-- ==== Sys2Proof/Word.lean ====
section
/-! DEFINITION. The two widths of the LinkPhy frame engine (00_scope.md R9, R11): unsigned bytes and 32-bit words. -/

namespace Sys2Proof

/-- A `b8` of the spec (R11). -/
abbrev Byte := BitVec 8

/-- A `u32` of the spec (R11): an address, a timer count, a register value. -/
abbrev Word := BitVec 32

end Sys2Proof
end

