-- ==== Sys2Proof/Config.lean ====
section
/-! DEFINITION. What an implementation fixes: the parameters of 00_scope.md R8, their constraints (R8, R10), the test
configuration TC, and the free values that `draw()` takes when the environment has fixed none (R14). -/

namespace Sys2Proof

/-- The parameters of R8, fixed for a run (R295). The state carries one; no step changes it (assumption log 1). -/
structure Config where
  sofValue : Byte
  typeReq : Byte
  typeAck : Byte
  typeNack : Byte
  subNackCsum : Byte
  subNackTimeout : Byte
  maxPayload : Byte
  rbCap : Nat
  evqCap : Nat
  tSend : Word
  tRecv : Word
  maxRetryDefault : Byte
  localAddr : Word
deriving DecidableEq, Repr

/-- The admitted ranges of R8, with R58's bound on `RB_CAP`, and the constraints of R10. `EVQ_CAP` has no upper bound (R8, D10).
A configuration outside them is refused by `step` (assumption log 12 and 18). -/
def Config.valid (c : Config) : Bool :=
  [ c.typeReq != c.typeAck, c.typeReq != c.typeNack, c.typeAck != c.typeNack,
    c.subNackCsum != 0x00#8, c.subNackTimeout != 0x00#8, c.subNackTimeout != c.subNackCsum,
    decide (1 ≤ c.rbCap), decide (c.rbCap < 2 ^ 32), decide (1 ≤ c.evqCap),
    c.tSend != 0#32, c.tRecv != 0#32 ].all id

/-- The spec's test configuration TC (R8, column TC; 95_test_vectors.md section 0). Not normative: it is the configuration
`State.reset` carries (DESIGN CHOICE, assumption log 1), and no statement about every configuration rests on it. -/
def Config.tc : Config where
  sofValue := 0x7E#8
  typeReq := 0x01#8
  typeAck := 0x02#8
  typeNack := 0x03#8
  subNackCsum := 0x01#8
  subNackTimeout := 0x02#8
  maxPayload := 16#8
  rbCap := 4
  evqCap := 8
  tSend := 10#32
  tRecv := 5#32
  maxRetryDefault := 2#8
  localAddr := 0x00000001#32

/-- What the transport answers to a frame write (46_host_transport.md R291). -/
inductive WriteStatus where
  | ok
  | fail
deriving DecidableEq, Repr, Inhabited

/-- The `n`-th sequence number drawn with nothing fixed by the environment: a free value (R14, R181; assumption log 3). -/
opaque Config.freeSeq : Nat → Byte

/-- The `n`-th write status drawn with nothing fixed by the environment: a free value (R14, R291; assumption log 3). -/
opaque Config.freeStatus : Nat → WriteStatus

/-- What EVQ_COUNT shows for a queue length that 32 bits do not hold: a free value, since R59 zero-extends the length to 32 bits and
R8 puts no upper bound on `EVQ_CAP` (DESIGN CHOICE, assumption log 20). -/
opaque Config.wideCount : Nat → Word

end Sys2Proof
end

