-- ==== Sys2Proof/Syntax.lean ====
section
/-! DEFINITION. The instructions: every row of spec/opcode_table.json is one constructor of `Instr`. Command words are the
operations of the block's agents (30_encoding.md R97, R100). The `EV_` rows are the events LINK_DISPATCH handles (R103), and
the `FRAME_` rows the four kinds of a valid received frame (R94). -/

namespace Sys2Proof

/-- A frame record or frame snapshot (30_encoding.md R92, R104). -/
structure Frame where
  dest : Word
  src : Word
  type : Byte
  sub : Byte
  seq : Byte
  len : Byte
  payload : List Byte
  fcs : Byte
deriving DecidableEq, Repr

/-- The kinds of frame that the type byte at wire offset 9 tells apart (R94). -/
inductive FrameKind where
  | req
  | ack
  | nack
  | other
deriving DecidableEq, Repr

/-- The five signals of an event (R103). -/
inductive Signal where
  | sendRequest
  | sendTimeout
  | frameReceived
  | frameChecksumError
  | frameReceiveTimeout
deriving DecidableEq, Repr

/-- An event of the link event queue: a signal and its payload (42_event_queue.md R160). -/
inductive Event where
  | sendRequest (dest : Word) (len : Byte) (payload : List Byte)
  | sendTimeout
  | frameReceived (f : Frame)
  | frameChecksumError (f : Frame)
  | frameReceiveTimeout
deriving DecidableEq, Repr

/-- The instruction set: one constructor per row of spec/opcode_table.json. -/
inductive Instr where
  | rxPut (b : Byte)
  | parseStep
  | tick (delta : Word)
  | sendReq (dest : Word) (len : Byte) (payload : List Byte)
  | cfgWr (reg : Byte) (value : Word)
  | cfgRd (reg : Byte)
  | linkInit
  | linkDispatch
  | reset
  | reserved (opcode : Byte)
  | evSendRequest (dest : Word) (len : Byte) (payload : List Byte)
  | evSendTimeout
  | evFrameReceived (f : Frame)
  | evFrameChecksumError (f : Frame)
  | evFrameReceiveTimeout
  | frameReq (f : Frame)
  | frameAck (f : Frame)
  | frameNack (f : Frame)
  | frameOther (f : Frame)
deriving DecidableEq, Repr

end Sys2Proof
end

