-- ==== Sys2Proof/Decode.lean ====
section
/-! DEFINITION. The encodings of 30_encoding.md: command words (R97, R98, R100, R101), the wire frame (R90 to R94), and the
signal codes of events (R103). The command decoder is total on byte strings and rejects by name; the encoders follow, written
from the same tables. -/

namespace Sys2Proof

/-! ### Byte order (R72, R73, R98): most significant byte first -/

/-- `{b0, b1, b2, b3}`, with `b0` the most significant byte (R11, R72, R98). -/
def wordOfBytes (b0 b1 b2 b3 : Byte) : Word :=
  b0 ++ b1 ++ b2 ++ b3

/-- `v[31-8k : 24-8k]`: the `k`-th byte of a word in transmission order (R72). -/
def wordByte (w : Word) (k : Nat) : Byte :=
  w.extractLsb' (24 - 8 * k) 8

/-- The four bytes of a word in transmission order (R72, R92). -/
def wordBytes (w : Word) : List Byte :=
  [wordByte w 0, wordByte w 1, wordByte w 2, wordByte w 3]

/-! ### Command words -/

/-- Why a byte string is not a command (R101). -/
inductive DecodeError where
  /-- There is no opcode byte at all. -/
  | noWord
  /-- The word is cut short before the length its opcode, or `w[5]` of SEND_REQ, gives it. -/
  | cutShort
deriving DecidableEq, Repr

/-- The opcodes of R100: 0x00, 0x09 to 0x0E, and 0x10 to 0xFF. -/
def reservedOpcode (op : Byte) : Bool :=
  op == 0x00#8 || (decide (0x09 ≤ op.toNat) && decide (op.toNat ≤ 0x0E)) || decide (0x10 ≤ op.toNat)

/-- The operands of RX_PUT: `b = w[1]` (R98). -/
def decodeRxPut : List Byte → Except DecodeError (Instr × List Byte)
  | b :: rest => .ok (.rxPut b, rest)
  | _ => .error .cutShort

/-- The operand of TICK: `delta = {w[1], w[2], w[3], w[4]}` (R98). -/
def decodeTick : List Byte → Except DecodeError (Instr × List Byte)
  | b0 :: b1 :: b2 :: b3 :: rest => .ok (.tick (wordOfBytes b0 b1 b2 b3), rest)
  | _ => .error .cutShort

/-- The operands of SEND_REQ: `dest`, `len = w[5]`, and then `len` payload bytes, if they are all there (R98, R101). -/
def decodeSendReq : List Byte → Except DecodeError (Instr × List Byte)
  | b0 :: b1 :: b2 :: b3 :: len :: rest =>
    if (rest.take len.toNat).length < len.toNat then .error .cutShort
    else .ok (.sendReq (wordOfBytes b0 b1 b2 b3) len (rest.take len.toNat), rest.drop len.toNat)
  | _ => .error .cutShort

/-- The operands of CFG_WR: `reg = w[1]`, `value = {w[2], w[3], w[4], w[5]}` (R98). -/
def decodeCfgWr : List Byte → Except DecodeError (Instr × List Byte)
  | reg :: b0 :: b1 :: b2 :: b3 :: rest => .ok (.cfgWr reg (wordOfBytes b0 b1 b2 b3), rest)
  | _ => .error .cutShort

/-- The operand of CFG_RD: `reg = w[1]` (R98). -/
def decodeCfgRd : List Byte → Except DecodeError (Instr × List Byte)
  | reg :: rest => .ok (.cfgRd reg, rest)
  | _ => .error .cutShort

/-- The opcode table of R97; every other opcode is reserved and one byte long (R100). -/
def decodeOpcode (op : Byte) (t : List Byte) : Except DecodeError (Instr × List Byte) :=
  if op = 0x01#8 then decodeRxPut t
  else if op = 0x02#8 then .ok (.parseStep, t)
  else if op = 0x03#8 then decodeTick t
  else if op = 0x04#8 then decodeSendReq t
  else if op = 0x05#8 then decodeCfgWr t
  else if op = 0x06#8 then decodeCfgRd t
  else if op = 0x07#8 then .ok (.linkInit, t)
  else if op = 0x08#8 then .ok (.linkDispatch, t)
  else if op = 0x0F#8 then .ok (.reset, t)
  else .ok (.reserved op, t)

/-- The command decoder: the first command word of a byte string, with the bytes after it (R97 to R101). -/
def decode : List Byte → Except DecodeError (Instr × List Byte)
  | [] => .error .noWord
  | op :: t => decodeOpcode op t

/-! ### Events (R103) -/

/-- The signal codes of R103. -/
def Signal.code : Signal → Byte
  | .sendRequest => 0x01#8
  | .sendTimeout => 0x02#8
  | .frameReceived => 0x03#8
  | .frameChecksumError => 0x04#8
  | .frameReceiveTimeout => 0x05#8

/-- The signal of a code; codes 0x00 and 0x06 to 0xFF are never posted (R103). -/
def Signal.ofCode (code : Byte) : Option Signal :=
  if code = 0x01#8 then some .sendRequest
  else if code = 0x02#8 then some .sendTimeout
  else if code = 0x03#8 then some .frameReceived
  else if code = 0x04#8 then some .frameChecksumError
  else if code = 0x05#8 then some .frameReceiveTimeout
  else none

/-- The signal of an event (R160). -/
def Event.signal : Event → Signal
  | .sendRequest _ _ _ => .sendRequest
  | .sendTimeout => .sendTimeout
  | .frameReceived _ => .frameReceived
  | .frameChecksumError _ => .frameChecksumError
  | .frameReceiveTimeout => .frameReceiveTimeout

/-- The instruction an event is: its row of the opcode table with its payload as operands (R103, R160). -/
def decodeEvent : Event → Instr
  | .sendRequest dest len payload => .evSendRequest dest len payload
  | .sendTimeout => .evSendTimeout
  | .frameReceived f => .evFrameReceived f
  | .frameChecksumError f => .evFrameChecksumError f
  | .frameReceiveTimeout => .evFrameReceiveTimeout

/-! ### The wire frame (R90 to R94) -/

/-- The 13 bytes of a frame before its payload, in wire order (R90, R92). -/
def Frame.header (c : Config) (f : Frame) : List Byte :=
  c.sofValue :: (wordBytes f.dest ++ (wordBytes f.src ++ [f.type, f.sub, f.seq, f.len]))

/-- `payload[0..len-1]` (R92). -/
def Frame.body (f : Frame) : List Byte :=
  f.payload.take f.len.toNat

/-- `Serialise(f)`: the wire bytes of a frame, its checksum byte last (R92). -/
def serialise (c : Config) (f : Frame) : List Byte :=
  f.header c ++ (f.body ++ [f.fcs])

/-- The kind of frame a type byte names (R94). -/
def frameKind (c : Config) (type : Byte) : FrameKind :=
  if type = c.typeReq then .req
  else if type = c.typeAck then .ack
  else if type = c.typeNack then .nack
  else .other

/-- The instruction a frame is: the `FRAME_` row its type byte names (R94). -/
def frameInstr (c : Config) (f : Frame) : Instr :=
  match frameKind c f.type with
  | .req => .frameReq f
  | .ack => .frameAck f
  | .nack => .frameNack f
  | .other => .frameOther f

/-- Why a byte string does not begin with a frame. -/
inductive FrameError where
  /-- Its first byte is not `SOF_VALUE` (R90, R232). -/
  | noSof
  /-- It ends before wire offset `13 + len` (R93). -/
  | cutShort
  /-- Its length byte exceeds `MAX_PAYLOAD` (R93, R238). -/
  | oversize
deriving DecidableEq, Repr

/-- The frame a byte string begins with, laid out as R90 says, and the bytes after it. -/
def decodeFrame (c : Config) : List Byte → Except FrameError (Frame × List Byte)
  | sof :: d0 :: d1 :: d2 :: d3 :: s0 :: s1 :: s2 :: s3 :: type :: sub :: seq :: len :: rest =>
    if sof ≠ c.sofValue then .error .noSof
    else if c.maxPayload.toNat < len.toNat then .error .oversize
    else
      match rest.drop len.toNat with
      | [] => .error .cutShort
      | fcs :: after =>
        .ok (⟨wordOfBytes d0 d1 d2 d3, wordOfBytes s0 s1 s2 s3, type, sub, seq, len, rest.take len.toNat, fcs⟩, after)
  | [] => .error .cutShort
  | sof :: _ => if sof ≠ c.sofValue then .error .noSof else .error .cutShort

/-! ### The encoder -/

/-- The ten rows that are command words; the others are events and wire frames (R97, R100, R103, R94). -/
def Instr.isCommand : Instr → Bool
  | .rxPut _ => true
  | .parseStep => true
  | .tick _ => true
  | .sendReq _ _ _ => true
  | .cfgWr _ _ => true
  | .cfgRd _ => true
  | .linkInit => true
  | .linkDispatch => true
  | .reset => true
  | .reserved _ => true
  | .evSendRequest _ _ _ => false
  | .evSendTimeout => false
  | .evFrameReceived _ => false
  | .evFrameChecksumError _ => false
  | .evFrameReceiveTimeout => false
  | .frameReq _ => false
  | .frameAck _ => false
  | .frameNack _ => false
  | .frameOther _ => false

/-- The words of an instruction, each row in its own encoding: a command word (R97), the signal code of an event, which is all of
an event that the spec encodes (R103), or the wire bytes of a frame (R92). -/
def encode (c : Config) : Instr → List Byte
  | .rxPut b => [0x01#8, b]
  | .parseStep => [0x02#8]
  | .tick delta => 0x03#8 :: wordBytes delta
  | .sendReq dest len payload => 0x04#8 :: (wordBytes dest ++ len :: payload)
  | .cfgWr reg value => 0x05#8 :: reg :: wordBytes value
  | .cfgRd reg => [0x06#8, reg]
  | .linkInit => [0x07#8]
  | .linkDispatch => [0x08#8]
  | .reset => [0x0F#8]
  | .reserved opcode => [opcode]
  | .evSendRequest _ _ _ => [Signal.sendRequest.code]
  | .evSendTimeout => [Signal.sendTimeout.code]
  | .evFrameReceived _ => [Signal.frameReceived.code]
  | .evFrameChecksumError _ => [Signal.frameChecksumError.code]
  | .evFrameReceiveTimeout => [Signal.frameReceiveTimeout.code]
  | .frameReq f => serialise c f
  | .frameAck f => serialise c f
  | .frameNack f => serialise c f
  | .frameOther f => serialise c f

/-- How many bytes an instruction's encoding has: a command word's length (R97), one signal code (R103), or `14 + len` (R93). -/
def Instr.size : Instr → Nat
  | .rxPut _ => 2
  | .parseStep => 1
  | .tick _ => 5
  | .sendReq _ len _ => 6 + len.toNat
  | .cfgWr _ _ => 6
  | .cfgRd _ => 2
  | .linkInit => 1
  | .linkDispatch => 1
  | .reset => 1
  | .reserved _ => 1
  | .evSendRequest _ _ _ => 1
  | .evSendTimeout => 1
  | .evFrameReceived _ => 1
  | .evFrameChecksumError _ => 1
  | .evFrameReceiveTimeout => 1
  | .frameReq f => 14 + f.len.toNat
  | .frameAck f => 14 + f.len.toNat
  | .frameNack f => 14 + f.len.toNat
  | .frameOther f => 14 + f.len.toNat

/-! ### The opcode table's words -/

/-- The length of the longest command word: a SEND_REQ of 255 payload bytes (R97). -/
def maxWordLength : Nat := 261

/-- The first `n` bytes of a table word, whose first byte is bits 7..0. -/
def tableBytes : Nat → Nat → List Byte
  | 0, _ => []
  | n + 1, w => BitVec.ofNat 8 w :: tableBytes n (w / 256)

/-- The byte string of a table word of `nbits` bits: its bytes, and zeros up to the longest command word. -/
def tableString (nbits w : Nat) : List Byte :=
  tableBytes ((nbits + 7) / 8) (w % 2 ^ nbits) ++ List.replicate maxWordLength 0x00#8

/-- The first command word of a byte string, as bytes; empty where it holds none. -/
def firstWord (bs : List Byte) : List Byte :=
  match decode bs with
  | .ok (i, _) => bs.take i.size
  | .error _ => []

/-- The instruction the command decoder reads from a table word (assumption log 8). -/
def decodeTableWord (nbits w : Nat) : Option Instr :=
  match decode (tableString nbits w) with
  | .ok (i, _) => some i
  | .error _ => none

end Sys2Proof
end

