-- ==== Sys2Proof/Machine/State.lean ====
section
/-! DEFINITION. The state of the block, by the sections of 10_state.md: ring buffer, frame parser, timers, event queue, ARQ engine,
fatal state. Beside it stand the records the environment keeps of what the block sent (R49), the parameters (R8), and the
environment's inputs: the command words still to be issued and the draws it has fixed (assumption log 3 and 4). -/

namespace Sys2Proof.Machine

/-- A byte array of R70 as its written elements: (index, byte) cells, indices strictly rising. An unlisted index is an unwritten
element and holds no value (R64; assumption log 2). -/
abbrev Memory := List Host.Cell

/-- The ring buffer (R31 to R34). -/
structure Ring where
  mem : Memory
  head : Nat
  tail : Nat
  count : Nat
deriving DecidableEq, Repr

/-- The parser states (R35). -/
inductive PState where
  | awaitingSof
  | destAddr
  | srcAddr
  | type
  | subType
  | seqNum
  | len
  | data
  | fcs
deriving DecidableEq, Repr

/-- A 32-bit address register that is filled byte by byte, `b0` being bits [31:24] (R72). A byte not yet taken is unwritten
(R233; assumption log 17). -/
structure AddrReg where
  b0 : Option Byte
  b1 : Option Byte
  b2 : Option Byte
  b3 : Option Byte
deriving DecidableEq, Repr

/-- The frame parser and its scratch receive frame (R35 to R38). `none` is the spec's unwritten (R64). -/
structure Parser where
  pstate : PState
  pidx : Byte
  rxDest : AddrReg
  rxSrc : AddrReg
  rxType : Option Byte
  rxSub : Option Byte
  rxSeq : Option Byte
  rxLen : Option Byte
  rxFcs : Option Byte
  rxPayload : Memory
deriving DecidableEq, Repr

/-- The keys of the two timers (R39). -/
inductive TimerKey where
  | sendTmo
  | recvTmo
deriving DecidableEq, Repr

/-- An armed timer: its key and its remaining ticks (R39). -/
structure TimerEntry where
  key : TimerKey
  remaining : Word
deriving DecidableEq, Repr

/-- The link FSM state (R41). -/
inductive LState where
  | init
  | handle
deriving DecidableEq, Repr

/-- Whether a REQ is outstanding (R42). -/
inductive SendState where
  | idle
  | sending
deriving DecidableEq, Repr

/-- The send frame: the single outstanding REQ (R47). `none` is the spec's unwritten (R64). -/
structure SendFrame where
  dest : Option Word
  src : Option Word
  type : Option Byte
  sub : Option Byte
  seq : Option Byte
  len : Option Byte
  fcs : Option Byte
  payload : Memory
deriving DecidableEq, Repr

/-- The ARQ engine (R41 to R47). -/
structure Arq where
  lstate : LState
  sendState : SendState
  sendSeq : Option Byte
  recvSeq : Option Byte
  retry : Byte
  maxRetry : Byte
  tx : SendFrame
deriving DecidableEq, Repr

/-- An entry of `txlog` (R49, R291). A failed write records the frame; how much of it reached the wire is not known (U6). -/
inductive TxEntry where
  | sent (w : List Byte)
  | failed (w : List Byte)
deriving DecidableEq, Repr

/-- An entry of `notelog` (R105). -/
inductive Note where
  | sendOk
  | sendFail
  | deliver (len : Byte) (payload : List Byte)
deriving DecidableEq, Repr

/-- The status of a host command's answer (R99). -/
inductive Status where
  | ok
  | full
  | err
deriving DecidableEq, Repr

/-- An entry of `resplog`: a status, and for a CFG_RD answered OK the value read (R99). -/
structure Response where
  status : Status
  value : Option Word
deriving DecidableEq, Repr

/-- The environment's record of the block's outputs (R49). -/
structure Out where
  txlog : List TxEntry
  notelog : List Note
  resplog : List Response
deriving DecidableEq, Repr

/-- The environment's inputs, the model's own fields (assumption log 3 and 4): the command words still to be issued, as bytes; the
sequence numbers and the write statuses it has fixed for the next draws; and how many free draws have been taken. -/
structure Env where
  script : List Byte
  seqDraws : List Byte
  writeDraws : List WriteStatus
  drawCount : Nat
deriving DecidableEq, Repr

/-- The state of the block and of its environment's records. -/
structure State where
  cfg : Config
  ring : Ring
  parser : Parser
  tmList : List TimerEntry
  evq : List Event
  arq : Arq
  fatal : Bool
  fatalCode : Byte
  out : Out
  env : Env
deriving DecidableEq, Repr

/-- What stops the model itself. No rule of the spec does either from a reachable state (R64, R71; the
statement InvariantStatesNeverFault). -/
inductive Fault where
  /-- A rule read an element that has no reset value and that no step has written. The spec makes that a fault of the model (R64, R71,
  D34; U11: treatment `fault`). Raised by `written` of Machine/Ops.lean alone. Safe: the model stops. -/
  | unwrittenRead
  /-- A rule used an array index outside the array (R71). Raised by the array accesses of Machine/Ops.lean and
  Machine/Operands.lean. Safe: the model stops. -/
  | indexOutOfRange
deriving DecidableEq, Repr

/-- Why a word is not run: the operation has no step in this state (R7, R102), or there is no word to run. -/
inductive Refusal where
  /-- An instruction with no meaning yet, by mnemonic. Raised by Machine/Dispatch.lean only. Safe. -/
  | notModelled (mnemonic : String)
  /-- The block is fatal, and only CFG_RD and RESET are enabled (R312). Raised by every other operation. Safe. -/
  | fatalState
  /-- PARSE_STEP has no step on an empty ring (R230). Raised by PARSE_STEP. Safe. -/
  | ringEmpty
  /-- LINK_DISPATCH has no step on an empty queue (R165, R180). Raised by LINK_DISPATCH. Safe. -/
  | queueEmpty
  /-- LINK_INIT has no step outside Init (R180). Raised by LINK_INIT. Safe. -/
  | notInInit
  /-- LINK_DISPATCH and the handlers it runs have no step outside Handle (R180). Raised by LINK_DISPATCH and by the `EV_` and
  `FRAME_` instructions. Safe. -/
  | notInHandle
  /-- The environment has issued no further word: every agent waits (R335). Raised by the fetch. Safe. -/
  | scriptEmpty
  /-- The word issued is cut short before its length, so it is no command (R101). Raised by the fetch. Safe. -/
  | truncatedWord
  /-- The parameters break a constraint, so the configuration has no meaning (R10). Raised by `step`. Safe. -/
  | badConfig
deriving DecidableEq, Repr

/-! ### Updates, one per part of the state -/

def State.setRing (s : State) (x : Ring) : State := { s with ring := x }
def State.setParser (s : State) (x : Parser) : State := { s with parser := x }
def State.setTimers (s : State) (x : List TimerEntry) : State := { s with tmList := x }
def State.setEvq (s : State) (x : List Event) : State := { s with evq := x }
def State.setArq (s : State) (x : Arq) : State := { s with arq := x }
def State.setFatal (s : State) (x : Bool) (code : Byte) : State := { s with fatal := x, fatalCode := code }
def State.setOut (s : State) (x : Out) : State := { s with out := x }
def State.setEnv (s : State) (x : Env) : State := { s with env := x }

/-! ### Reset (R340, R341) -/

/-- An address register no byte of which is written (R37). -/
def AddrReg.unwritten : AddrReg := ⟨none, none, none, none⟩

/-- A send frame no field of which is written (R47). -/
def SendFrame.unwritten : SendFrame := ⟨none, none, none, none, none, none, none, []⟩

/-- The state right after power-on under a configuration: the block's reset values of R341, empty records (assumption log 11), and
nothing issued or drawn by the environment (assumption log 3 and 4). -/
def State.resetWith (c : Config) : State where
  cfg := c
  ring := ⟨[], 0, 0, 0⟩
  parser :=
    { pstate := .awaitingSof, pidx := 0#8
      rxDest := .unwritten, rxSrc := .unwritten
      rxType := none, rxSub := none, rxSeq := none, rxLen := none, rxFcs := none, rxPayload := [] }
  tmList := []
  evq := []
  arq :=
    { lstate := .init, sendState := .idle, sendSeq := none, recvSeq := none
      retry := 0#8, maxRetry := c.maxRetryDefault, tx := .unwritten }
  fatal := false
  fatalCode := 0x00#8
  out := ⟨[], [], []⟩
  env := ⟨[], [], [], 0⟩

/-- The machine right after reset. Its configuration is the spec's TC (DESIGN CHOICE, assumption log 1). -/
def State.reset : State := State.resetWith Config.tc

end Sys2Proof.Machine
end

