-- ==== Sys2Proof/Machine/Ops.lean ====
section
/-! DEFINITION. The primitives of 00_scope.md R13 and the operations beside them, each over the whole state: raising a fatal, byte
arrays, the ring buffer, the timers, the event queue, the parser reset, the checksum, the transport write, the notifications, the
answers, the draws, and the reset. -/

namespace Sys2Proof.Machine

/-! ### How a step ends (R7, R12) -/

/-- How a sequence of statements ends: it goes on, it raised a fatal and the rest of the step does not run (R310), or the model itself
faulted (R64, R71). -/
inductive Res where
  | ok (s : State)
  | fatal (s : State)
  | fault (r : Fault)
deriving DecidableEq, Repr

/-- Runs the statements after others: not at all once a fatal has been raised (R12). -/
def Res.andThen (r : Res) (next : State → Res) : Res :=
  match r with
  | .ok s => next s
  | .fatal s => .fatal s
  | .fault e => .fault e

/-- The outcome of a step. A fatal is a state the block goes on in: only CFG_RD and RESET have a step there (R310, R312;
assumption log 6). -/
def Res.outcome : Res → Host.Outcome State Fault Refusal
  | .ok s => .next s
  | .fatal s => .next s
  | .fault e => .fault e

/-- Goes on with a read value, or faults (R64, R71). -/
def Res.ofRead {α : Type} (r : Except Fault α) (next : α → Res) : Res :=
  match r with
  | .ok a => next a
  | .error e => .fault e

/-! ### Fatal (R310, R311) -/

/-- The causes of a fatal (R311). -/
inductive FatalCause where
  | concurrentSend
  | oversizePayload
  | txWriteFail
  | evqOverflow
deriving DecidableEq, Repr

/-- The fatal codes of R311. -/
def FatalCause.code : FatalCause → Byte
  | .concurrentSend => 0x01#8
  | .oversizePayload => 0x02#8
  | .txWriteFail => 0x03#8
  | .evqOverflow => 0x04#8

/-- `raise Fatal(code)`: the block's only exception entry. It sets `fatal` and `fatal_code`, and the step ends there with every
earlier write committed (R310, R322). -/
def raiseFatal (cause : FatalCause) (s : State) : Res :=
  .fatal (s.setFatal true cause.code)

/-! ### Byte arrays (R70, R71, R64) -/

/-- The element at an index, if some step has written it. -/
def Memory.read : Memory → Nat → Option Byte
  | [], _ => none
  | (j, x) :: m, i => if i = j then some x else Memory.read m i

/-- `A[i] <- b`, keeping indices strictly rising. -/
def Memory.write : Memory → Nat → Byte → Memory
  | [], i, b => [(i, b)]
  | (j, x) :: m, i, b =>
    if i < j then (i, b) :: (j, x) :: m
    else if i = j then (i, b) :: m
    else (j, x) :: Memory.write m i b

/-- The canonical form: indices strictly rising. An unlisted element holds no value, so any byte may be listed. -/
def Memory.wf : Memory → Bool
  | [] => true
  | c :: m => m.all (fun d => decide (c.1 < d.1)) && Memory.wf m

/-- Every listed index is inside an array of `cap` elements. -/
def Memory.below (cap : Nat) (m : Memory) : Bool :=
  m.all (fun c => decide (c.1 < cap))

/-- The value of an element, a register or an element of an array. The spec says what a model does where no step has written it: "If a
model reads one, the read is a fault of the model. It is never a zero." (R64; so R71, D34 and U11). Every read of an element that has no
reset value goes through here. -/
def written {α : Type} : Option α → Except Fault α
  | some a => .ok a
  | none => .error .unwrittenRead

/-- A read of `A[i]` of an array of `cap` elements (R71, R64). -/
def arrayRead (cap : Nat) (m : Memory) (i : Nat) : Except Fault Byte :=
  if i < cap then written (m.read i) else .error .indexOutOfRange

/-- A write of `A[i]` of an array of `cap` elements (R71). -/
def arrayWrite (cap : Nat) (m : Memory) (i : Nat) (b : Byte) : Except Fault Memory :=
  if i < cap then .ok (m.write i b) else .error .indexOutOfRange

/-- The elements `A[i .. i+n-1]`, in order. -/
def arrayRange (cap : Nat) (m : Memory) (i : Nat) : Nat → Except Fault (List Byte)
  | 0 => .ok []
  | n + 1 =>
    match arrayRead cap m i with
    | .error e => .error e
    | .ok b =>
      match arrayRange cap m (i + 1) n with
      | .error e => .error e
      | .ok bs => .ok (b :: bs)

/-- Writes bytes from index `i` on, in order. -/
def arrayFill (cap : Nat) (m : Memory) (i : Nat) : List Byte → Except Fault Memory
  | [] => .ok m
  | b :: bs =>
    match arrayWrite cap m i b with
    | .error e => .error e
    | .ok m' => arrayFill cap m' (i + 1) bs

/-- `payload[0..len-1]` of an operand or an event; a payload shorter than its length byte has no such element (R71; assumption log 16). -/
def payloadBytes (len : Byte) (payload : List Byte) : Except Fault (List Byte) :=
  if payload.length < len.toNat then .error .indexOutOfRange else .ok (payload.take len.toNat)

/-! ### The ring buffer (R121, R122) -/

/-- `RbPut(b)`: the state with the byte appended, or `none` for full (R121, R123). -/
def rbPut (b : Byte) (s : State) : Except Fault (Option State) :=
  if s.ring.count = s.cfg.rbCap then .ok none
  else
    match arrayWrite s.cfg.rbCap s.ring.mem s.ring.tail b with
    | .error e => .error e
    | .ok m => .ok (some (s.setRing
        { mem := m, head := s.ring.head, tail := (s.ring.tail + 1) % s.cfg.rbCap, count := s.ring.count + 1 }))

/-- `RbGet()`: the oldest byte and the state without it, or `none` for empty (R122). -/
def rbGet (s : State) : Except Fault (Option (Byte × State)) :=
  if s.ring.count = 0 then .ok none
  else
    match arrayRead s.cfg.rbCap s.ring.mem s.ring.head with
    | .error e => .error e
    | .ok b => .ok (some (b, s.setRing
        { mem := s.ring.mem, head := (s.ring.head + 1) % s.cfg.rbCap, tail := s.ring.tail, count := s.ring.count - 1 }))

/-! ### The timers (R140, R141, R143) -/

/-- `tm_list` without the entries of a key. -/
def dropKey (k : TimerKey) (l : List TimerEntry) : List TimerEntry :=
  l.filter (fun e => decide (e.key ≠ k))

/-- `TimerSet(k, n)` (R140). -/
def timerSet (k : TimerKey) (n : Word) (s : State) : State :=
  s.setTimers (dropKey k s.tmList ++ [⟨k, n⟩])

/-- `TimerCancel(k)` (R141). -/
def timerCancel (k : TimerKey) (s : State) : State :=
  s.setTimers (dropKey k s.tmList)

/-- `signal_of(k)`: the event a timer posts when it expires (R143). -/
def signalOf : TimerKey → Event
  | .sendTmo => .sendTimeout
  | .recvTmo => .frameReceiveTimeout

/-- The keys of the entries that expire within `delta` ticks, in list order (R142). -/
def firedKeys (delta : Word) (l : List TimerEntry) : List TimerKey :=
  (l.filter (fun e => decide (e.remaining ≤ delta))).map (fun e => e.key)

/-- The entries that do not expire within `delta` ticks, each `delta` ticks nearer (R142). -/
def keptEntries (delta : Word) (l : List TimerEntry) : List TimerEntry :=
  (l.filter (fun e => !decide (e.remaining ≤ delta))).map (fun e => ⟨e.key, e.remaining - delta⟩)

/-! ### The event queue (R161, R162) -/

/-- `EvqPost(ev)` (R161). -/
def evqPost (ev : Event) (s : State) : Res :=
  if s.evq.length = s.cfg.evqCap then raiseFatal .evqOverflow s else .ok (s.setEvq (s.evq ++ [ev]))

/-- Posts events in order; the first post that raises a fatal ends the step (R142, R12). -/
def postAll : List Event → State → Res
  | [], s => .ok s
  | ev :: evs, s => (evqPost ev s).andThen (postAll evs)

/-- `EvqTake()`: the oldest event and the state without it, or `none` on an empty queue (R162). -/
def evqTake (s : State) : Option (Event × State) :=
  match s.evq with
  | [] => none
  | ev :: rest => some (ev, s.setEvq rest)

/-! ### The parser reset (R231) -/

/-- `ParserReset()`: AwaitingSOF, with the scratch receive frame kept (R231). -/
def parserReset (s : State) : State :=
  s.setParser { s.parser with pstate := .awaitingSof, pidx := 0#8 }

/-! ### The checksum (R260) -/

/-- `XOR(list)`: folds exclusive-or over bytes, from 0x00 (R11). -/
def xorBytes (l : List Byte) : Byte :=
  l.foldl (fun a b => a ^^^ b) 0x00#8

/-- `Checksum(f)`: the exclusive-or of the 13 header bytes and the `len` payload bytes (R260). -/
def checksum (c : Config) (f : Frame) : Byte :=
  xorBytes (f.header c ++ f.body)

/-- The frame with its checksum byte computed (R262). -/
def withFcs (c : Config) (f : Frame) : Frame :=
  { f with fcs := checksum c f }

/-! ### The draws (R14) -/

/-- The next sequence-number draw: the environment's, or a free value (R14, R181; assumption log 3). -/
def drawSeq (s : State) : Byte × State :=
  match s.env.seqDraws with
  | d :: ds => (d, s.setEnv { s.env with seqDraws := ds })
  | [] => (Config.freeSeq s.env.drawCount, s.setEnv { s.env with drawCount := s.env.drawCount + 1 })

/-- The next write-status draw: the environment's, or a free value (R14, R291; assumption log 3). -/
def drawStatus (s : State) : WriteStatus × State :=
  match s.env.writeDraws with
  | d :: ds => (d, s.setEnv { s.env with writeDraws := ds })
  | [] => (Config.freeStatus s.env.drawCount, s.setEnv { s.env with drawCount := s.env.drawCount + 1 })

/-! ### The outputs (R49, R99, R291, R292, R293) -/

/-- Appends an entry to `txlog`. -/
def logTx (e : TxEntry) (s : State) : State :=
  s.setOut { s.out with txlog := s.out.txlog ++ [e] }

/-- `Notify(code)` and `Deliver(len, payload)`: appends an entry to `notelog` (R292, R293). -/
def notify (n : Note) (s : State) : State :=
  s.setOut { s.out with notelog := s.out.notelog ++ [n] }

/-- `respond(status[, value])`: appends an answer to `resplog` (R12, R49, R99). -/
def respond (status : Status) (value : Option Word) (s : State) : State :=
  s.setOut { s.out with resplog := s.out.resplog ++ [⟨status, value⟩] }

/-- The status codes of R99. -/
def Status.code : Status → Byte
  | .ok => 0x00#8
  | .full => 0x01#8
  | .err => 0x02#8

/-- The notification codes of R105. -/
def Note.code : Note → Byte
  | .sendOk => 0x01#8
  | .sendFail => 0x02#8
  | .deliver _ _ => 0x03#8

/-- `Transmit(f)`: one atomic frame write, answered by a drawn status; a failure is fatal (R291). -/
def transmit (f : Frame) (s : State) : Res :=
  match drawStatus s with
  | (.ok, s') => .ok (logTx (.sent (serialise s.cfg f)) s')
  | (.fail, s') => raiseFatal .txWriteFail (logTx (.failed (serialise s.cfg f)) s')

/-- `BuildResponse(type, sub, f)`: an ACK or NACK answering `f`, never stored (R198). -/
def buildResponse (c : Config) (type sub : Byte) (f : Frame) : Frame :=
  withFcs c { dest := f.src, src := f.dest, type := type, sub := sub, seq := f.seq, len := 0#8, payload := [], fcs := 0#8 }

/-! ### The enables (R180, R312) -/

/-- An operation of R312, which has no step while the block is fatal. -/
def whenAlive (s : State) (run : Host.Outcome State Fault Refusal) : Host.Outcome State Fault Refusal :=
  if s.fatal then .refused .fatalState else run

/-- A step of the LINK agent in Handle (R180). -/
def whenHandle (s : State) (run : Host.Outcome State Fault Refusal) : Host.Outcome State Fault Refusal :=
  whenAlive s
    (match s.arq.lstate with
    | .init => .refused .notInHandle
    | .handle => run)

/-- A step of the LINK agent in Init (R180). -/
def whenInit (s : State) (run : Host.Outcome State Fault Refusal) : Host.Outcome State Fault Refusal :=
  whenAlive s
    (match s.arq.lstate with
    | .init => run
    | .handle => .refused .notInInit)

/-! ### Reset (R340): the return from the fatal state (R323) -/

/-- RESET: every element of the block takes its reset value; the environment's records and inputs are not the block's and stay
(R340, R49). -/
def resetBlock (s : State) : State :=
  { State.resetWith s.cfg with out := s.out, env := s.env }

end Sys2Proof.Machine
end

