-- ==== Sys2Proof/Machine/Flags.lean ====
section
/-! DEFINITION. The status flags of 10_state.md R51 and the status words built from them: STATUS (R54) and TIMERS (R60). The block has no
condition codes. -/

namespace Sys2Proof.Machine

/-- Ring full (R34, R51). -/
def ringFull (s : State) : Bool := decide (s.ring.count = s.cfg.rbCap)

/-- Ring empty (R34, R51). -/
def ringEmpty (s : State) : Bool := decide (s.ring.count = 0)

/-- Event queue full (R51). -/
def evqFull (s : State) : Bool := decide (s.evq.length = s.cfg.evqCap)

/-- The parser state codes of R35, as the four bits STATUS shows. -/
def PState.code : PState → BitVec 4
  | .awaitingSof => 0#4
  | .destAddr => 1#4
  | .srcAddr => 2#4
  | .type => 3#4
  | .subType => 4#4
  | .seqNum => 5#4
  | .len => 6#4
  | .data => 7#4
  | .fcs => 8#4

/-- The link state codes of R41. -/
def LState.code : LState → BitVec 1
  | .init => 0#1
  | .handle => 1#1

/-- The send state codes of R42. -/
def SendState.code : SendState → BitVec 1
  | .idle => 0#1
  | .sending => 1#1

/-- One bit of a status word. -/
def flagBit (b : Bool) : BitVec 1 := BitVec.ofBool b

/-- STATUS: LSTATE in bit 0, SEND_STATE in bit 1, FATAL in bit 2, PSTATE in bits [7:4], FATAL_CODE in bits [15:8]; bit 3 and bits
[31:16] read 0 (R54). -/
def statusWord (s : State) : Word :=
  0#16 ++ s.fatalCode ++ s.parser.pstate.code ++ 0#1 ++ flagBit s.fatal ++ s.arq.sendState.code ++ s.arq.lstate.code

/-- Whether a timer is armed (R39). -/
def armed (k : TimerKey) (l : List TimerEntry) : Bool :=
  l.any (fun e => decide (e.key = k))

/-- TIMERS: bit 0 for an armed send timer, bit 1 for an armed receive timer; the rest read 0 (R60). -/
def timersWord (s : State) : Word :=
  0#30 ++ flagBit (armed .recvTmo s.tmList) ++ flagBit (armed .sendTmo s.tmList)

end Sys2Proof.Machine
end

