-- ==== Sys2Proof/Machine/Operands.lean ====
section
/-! DEFINITION. The operand forms: register numbers (10_state.md R52 to R61), the byte-wise address registers (R72, R233, R234), the scratch
receive frame as a snapshot (R240) and the send frame as a frame (R47). -/

namespace Sys2Proof.Machine

/-! ### Register numbers -/

/-- The registers of R52. -/
inductive Reg where
  | maxRetry
  | status
  | seq
  | retry
  | localAddr
  | rbCount
  | evqCount
  | timers
deriving DecidableEq, Repr

/-- The register a number names; 0x08 to 0xFF are reserved (R52, R61). -/
def regOf (n : Byte) : Option Reg :=
  if n = 0x00#8 then some .maxRetry
  else if n = 0x01#8 then some .status
  else if n = 0x02#8 then some .seq
  else if n = 0x03#8 then some .retry
  else if n = 0x04#8 then some .localAddr
  else if n = 0x05#8 then some .rbCount
  else if n = 0x06#8 then some .evqCount
  else if n = 0x07#8 then some .timers
  else none

/-- SEQ: `send_seq` in bits [7:0], `recv_seq` in bits [15:8] (R55). -/
def seqWord (sendSeq recvSeq : Byte) : Word :=
  0#16 ++ recvSeq ++ sendSeq

/-- SEQ as CFG_RD finds it: rejected in Init, where neither number is written (R55). -/
def readSeq (s : State) : Except Fault (Option Word) :=
  match s.arq.lstate with
  | .init => .ok none
  | .handle => do
    let a ← written s.arq.sendSeq
    let b ← written s.arq.recvSeq
    return some (seqWord a b)

/-- A count as a 32-bit register shows it: zero-extended where 32 bits hold it (R59), and a free value otherwise (DESIGN CHOICE,
assumption log 20). -/
def countWord (n : Nat) : Word :=
  if n < 2 ^ 32 then BitVec.ofNat 32 n else Config.wideCount n

/-- The value of a register, or `none` where the read is rejected (R53 to R60). -/
def readReg (s : State) : Reg → Except Fault (Option Word)
  | .maxRetry => .ok (some (s.arq.maxRetry.setWidth 32))
  | .status => .ok (some (statusWord s))
  | .seq => readSeq s
  | .retry => .ok (some (s.arq.retry.setWidth 32))
  | .localAddr => .ok (some s.cfg.localAddr)
  | .rbCount => .ok (some (BitVec.ofNat 32 s.ring.count))
  | .evqCount => .ok (some (countWord s.evq.length))
  | .timers => .ok (some (timersWord s))

/-! ### Address registers -/

/-- `A[31-8k : 24-8k] <- b`; there are four such bytes (R72, R71). -/
def AddrReg.put (a : AddrReg) (k : Nat) (b : Byte) : Except Fault AddrReg :=
  match k with
  | 0 => .ok { a with b0 := some b }
  | 1 => .ok { a with b1 := some b }
  | 2 => .ok { a with b2 := some b }
  | 3 => .ok { a with b3 := some b }
  | _ => .error .indexOutOfRange

/-- The whole register `{b0, b1, b2, b3}`; a byte not written has no value (R72, R64). -/
def AddrReg.value (a : AddrReg) : Except Fault Word := do
  let b0 ← written a.b0
  let b1 ← written a.b1
  let b2 ← written a.b2
  let b3 ← written a.b3
  return wordOfBytes b0 b1 b2 b3

/-! ### Frames held in registers -/

/-- The frame snapshot of the scratch receive frame (R104, R240). -/
def rxSnapshot (c : Config) (p : Parser) : Except Fault Frame := do
  let dest ← p.rxDest.value
  let src ← p.rxSrc.value
  let type ← written p.rxType
  let sub ← written p.rxSub
  let seq ← written p.rxSeq
  let len ← written p.rxLen
  let payload ← arrayRange c.maxPayload.toNat p.rxPayload 0 len.toNat
  let fcs ← written p.rxFcs
  return { dest, src, type, sub, seq, len, payload, fcs }

/-- The send frame as a frame record (R47). -/
def txFrame (c : Config) (t : SendFrame) : Except Fault Frame := do
  let dest ← written t.dest
  let src ← written t.src
  let type ← written t.type
  let sub ← written t.sub
  let seq ← written t.seq
  let len ← written t.len
  let payload ← arrayRange c.maxPayload.toNat t.payload 0 len.toNat
  let fcs ← written t.fcs
  return { dest, src, type, sub, seq, len, payload, fcs }

/-- The send frame holding a frame's fields, with the given payload array (R184). -/
def SendFrame.ofFrame (f : Frame) (payload : Memory) : SendFrame :=
  { dest := some f.dest, src := some f.src, type := some f.type, sub := some f.sub, seq := some f.seq, len := some f.len,
    fcs := some f.fcs, payload := payload }

end Sys2Proof.Machine
end

