-- ==== Sys2Proof/Machine/HostPort.lean ====
section
/-! DEFINITION. The HOST's command words: SEND_REQ, CFG_WR and CFG_RD (46_host_transport.md R280 to R282), and the reserved opcodes
(30_encoding.md R100). -/

namespace Sys2Proof.Machine

/-- SEND_REQ's rule: the request is posted whatever its length and whatever the send state; an overflow gives no answer (R280). -/
def postSendRequest (dest : Word) (len : Byte) (payload : List Byte) (s : State) : Res :=
  .ofRead (payloadBytes len payload) fun p =>
    (evqPost (.sendRequest dest len p) s).andThen fun s' => .ok (respond .ok none s')

/-- SEND_REQ (R280). -/
def execSendReq (dest : Word) (len : Byte) (payload : List Byte) (s : State) : Host.Outcome State Fault Refusal :=
  whenAlive s (postSendRequest dest len payload s).outcome

/-- CFG_WR's rule: only MAX_RETRY is writable, from bits [7:0]; every other number is rejected with no state change (R282, R53, R61). -/
def writeReg (reg : Byte) (value : Word) (s : State) : Res :=
  match regOf reg with
  | some .maxRetry => .ok (respond .ok none (s.setArq { s.arq with maxRetry := value.setWidth 8 }))
  | _ => .ok (respond .err none s)

/-- CFG_WR (R282). -/
def execCfgWr (reg : Byte) (value : Word) (s : State) : Host.Outcome State Fault Refusal :=
  whenAlive s (writeReg reg value s).outcome

/-- The value a register number reads as, or `none` where the read is rejected: a reserved number, and SEQ in Init (R281). -/
def readNumber (reg : Byte) (s : State) : Except Fault (Option Word) :=
  match regOf reg with
  | some r => readReg s r
  | none => .ok none

/-- CFG_RD's rule (R281). -/
def answerRead (reg : Byte) (s : State) : Res :=
  .ofRead (readNumber reg s) fun
    | some v => .ok (respond .ok (some v) s)
    | none => .ok (respond .err none s)

/-- CFG_RD: enabled always, in the fatal state too (R281, R312). -/
def execCfgRd (reg : Byte) (s : State) : Host.Outcome State Fault Refusal :=
  (answerRead reg s).outcome

/-- A reserved opcode: rejected with ERR, in any state, with no state change (R100; assumption log 10). -/
def execReserved (_opcode : Byte) (s : State) : Host.Outcome State Fault Refusal :=
  .next (respond .err none s)

end Sys2Proof.Machine
end

