-- ==== Sys2Proof/Machine/Link.lean ====
section
/-! DEFINITION. The LINK agent (43_arq_engine.md): LINK_INIT, LINK_DISPATCH, the handlers of the five events (R183 to R197) and, within
FrameReceived, of the four kinds of frame (R189 to R195). -/

namespace Sys2Proof.Machine

/-! ### LINK_INIT -/

/-- LINK_INIT's rule: two draws, Idle, the default ceiling, and the transition to Handle (R181). -/
def initLink (s : State) : Res :=
  let a := drawSeq s
  let b := drawSeq a.2
  .ok (b.2.setArq { b.2.arq with
    sendSeq := some a.1, recvSeq := some b.1, sendState := .idle, maxRetry := s.cfg.maxRetryDefault, lstate := .handle })

/-- LINK_INIT (R180, R181). -/
def execLinkInit (s : State) : Host.Outcome State Fault Refusal :=
  whenInit s (initLink s).outcome

/-! ### What the handlers share -/

/-- `Transmit(s.tx)` (R186, R191). -/
def transmitTx (s : State) : Res :=
  .ofRead (txFrame s.cfg s.arq.tx) fun f => transmit f s

/-- `TimerSet(SEND_TMO, T_SEND)`. -/
def armSend (s : State) : State :=
  timerSet .sendTmo s.cfg.tSend s

/-- `retry <- retry + 1`. -/
def bumpRetry (s : State) : State :=
  s.setArq { s.arq with retry := s.arq.retry + 1#8 }

/-- The outstanding REQ sent again, its timer armed again and the retry counted (R186; R191 after its cancel). -/
def retransmit (s : State) : Res :=
  (transmitTx s).andThen fun s' => .ok (bumpRetry (armSend s'))

/-- `send_state <- x`. -/
def setSendState (x : SendState) (s : State) : State :=
  s.setArq { s.arq with sendState := x }

/-- `Abandon()` (R202). -/
def abandon (s : State) : State :=
  notify .sendFail (setSendState .idle s)

/-- Whether a received ACK or NACK matches the outstanding send: Sending, and the sequence numbers equal (R190, R191, R192). -/
def matchesSend (f : Frame) (s : State) : Except Fault Bool :=
  match s.arq.sendState with
  | .idle => .ok false
  | .sending => (written s.arq.sendSeq).map fun q => decide (f.seq = q)

/-! ### SendRequest (R183 to R185) -/

/-- The REQ that a request builds: from `LOCAL_ADDR`, of sub-type 0x00, with its checksum (R184, R262). -/
def requestFrame (c : Config) (dest : Word) (seq len : Byte) (payload : List Byte) : Frame :=
  withFcs c { dest := dest, src := c.localAddr, type := c.typeReq, sub := 0x00#8, seq := seq, len := len,
              payload := payload, fcs := 0#8 }

/-- The ARQ engine as an accepted SendRequest leaves it before its transmission (R184). -/
def loadSend (a : Arq) (seq : Byte) (f : Frame) (payload : Memory) : Arq :=
  { a with sendSeq := some seq, tx := .ofFrame f payload, retry := 0#8, sendState := .sending }

/-- SendRequest while Idle with `len ≤ MAX_PAYLOAD`: the REQ is built, sent and its timeout armed (R184). -/
def acceptSend (dest : Word) (len : Byte) (payload : List Byte) (s : State) : Res :=
  .ofRead (written s.arq.sendSeq) fun q =>
    .ofRead (payloadBytes len payload) fun p =>
      .ofRead (arrayFill s.cfg.maxPayload.toNat s.arq.tx.payload 0 p) fun m =>
        let f := requestFrame s.cfg dest (q + 1#8) len p
        (transmitTx (s.setArq (loadSend s.arq (q + 1#8) f m))).andThen fun s' => .ok (armSend s')

/-- SendRequest while Idle with `len > MAX_PAYLOAD`: `send_seq` is incremented, then the fatal (R185). -/
def oversizeSend (s : State) : Res :=
  .ofRead (written s.arq.sendSeq) fun q =>
    raiseFatal .oversizePayload (s.setArq { s.arq with sendSeq := some (q + 1#8) })

/-- The SendRequest handler (R183, R184, R185). -/
def handleSendRequest (dest : Word) (len : Byte) (payload : List Byte) (s : State) : Res :=
  match s.arq.sendState with
  | .sending => raiseFatal .concurrentSend s
  | .idle => if s.cfg.maxPayload.toNat < len.toNat then oversizeSend s else acceptSend dest len payload s

/-! ### SendTimeout (R186 to R188) -/

/-- The SendTimeout handler: retransmit, abandon, or ignore a stale timeout (R186, R187, R188). -/
def handleSendTimeout (s : State) : Res :=
  match s.arq.sendState with
  | .idle => .ok s
  | .sending => if s.arq.retry < s.arq.maxRetry then retransmit s else .ok (abandon s)

/-! ### FrameReceived (R189 to R195) -/

/-- A received REQ: its sequence number kept, an ACK sent back, its payload delivered, whatever the send state (R189). -/
def handleReq (f : Frame) (s : State) : Res :=
  let s1 := s.setArq { s.arq with recvSeq := some f.seq }
  (transmit (buildResponse s.cfg s.cfg.typeAck 0x00#8 f) s1).andThen fun s2 =>
    .ofRead (payloadBytes f.len f.payload) fun p => .ok (notify (.deliver f.len p) s2)

/-- The send ends in success (R190). -/
def completeSend (s : State) : State :=
  notify .sendOk (setSendState .idle (timerCancel .sendTmo s))

/-- A received ACK: success where it matches, otherwise ignored (R190, R193). -/
def handleAck (f : Frame) (s : State) : Res :=
  .ofRead (matchesSend f s) fun hit => .ok (if hit then completeSend s else s)

/-- A received NACK: where it matches, the send timeout is cancelled and the REQ sent again or abandoned; otherwise ignored
(R191, R192, R194). -/
def handleNack (f : Frame) (s : State) : Res :=
  .ofRead (matchesSend f s) fun hit =>
    if hit then
      if s.arq.retry < s.arq.maxRetry then retransmit (timerCancel .sendTmo s)
      else .ok (abandon (timerCancel .sendTmo s))
    else .ok s

/-- A received frame of any other type is ignored (R195). -/
def handleOther (_f : Frame) (s : State) : Res := .ok s

/-- The FrameReceived handler (R94, R189 to R195). -/
def handleFrameReceived (f : Frame) (s : State) : Res :=
  match frameKind s.cfg f.type with
  | .req => handleReq f s
  | .ack => handleAck f s
  | .nack => handleNack f s
  | .other => handleOther f s

/-! ### FrameChecksumError and FrameReceiveTimeout (R196, R197) -/

/-- The FrameChecksumError handler: a NACK back to the sender (R196). -/
def handleChecksumError (f : Frame) (s : State) : Res :=
  transmit (buildResponse s.cfg s.cfg.typeNack s.cfg.subNackCsum f) s

/-- The FrameReceiveTimeout handler: the parser is reset (R197). -/
def handleReceiveTimeout (s : State) : Res := .ok (parserReset s)

/-! ### LINK_DISPATCH (R182) -/

/-- The handler of an event (R182, R199). -/
def handleEvent (ev : Event) (s : State) : Res :=
  match ev with
  | .sendRequest dest len payload => handleSendRequest dest len payload s
  | .sendTimeout => handleSendTimeout s
  | .frameReceived f => handleFrameReceived f s
  | .frameChecksumError f => handleChecksumError f s
  | .frameReceiveTimeout => handleReceiveTimeout s

/-- LINK_DISPATCH's rule: the oldest event is taken and its handler run; no step on an empty queue (R182, R165). -/
def dispatchOldest (s : State) : Host.Outcome State Fault Refusal :=
  match evqTake s with
  | none => .refused .queueEmpty
  | some (ev, s') => (handleEvent ev s').outcome

/-- LINK_DISPATCH (R180, R182). -/
def execLinkDispatch (s : State) : Host.Outcome State Fault Refusal :=
  whenHandle s (dispatchOldest s)

/-! ### The events and the received frames as instructions: the LINK agent runs the handler of an event already taken
(assumption log 7) -/

/-- EV_SendRequest (R183, R184, R185). -/
def execEvSendRequest (dest : Word) (len : Byte) (payload : List Byte) (s : State) : Host.Outcome State Fault Refusal :=
  whenHandle s (handleSendRequest dest len payload s).outcome

/-- EV_SendTimeout (R186, R187, R188). -/
def execEvSendTimeout (s : State) : Host.Outcome State Fault Refusal :=
  whenHandle s (handleSendTimeout s).outcome

/-- EV_FrameReceived (R189 to R195). -/
def execEvFrameReceived (f : Frame) (s : State) : Host.Outcome State Fault Refusal :=
  whenHandle s (handleFrameReceived f s).outcome

/-- EV_FrameChecksumError (R196). -/
def execEvFrameChecksumError (f : Frame) (s : State) : Host.Outcome State Fault Refusal :=
  whenHandle s (handleChecksumError f s).outcome

/-- EV_FrameReceiveTimeout (R197). -/
def execEvFrameReceiveTimeout (s : State) : Host.Outcome State Fault Refusal :=
  whenHandle s (handleReceiveTimeout s).outcome

/-- FRAME_REQ (R189). -/
def execFrameReq (f : Frame) (s : State) : Host.Outcome State Fault Refusal :=
  whenHandle s (handleReq f s).outcome

/-- FRAME_ACK (R190, R193). -/
def execFrameAck (f : Frame) (s : State) : Host.Outcome State Fault Refusal :=
  whenHandle s (handleAck f s).outcome

/-- FRAME_NACK (R191, R192, R194). -/
def execFrameNack (f : Frame) (s : State) : Host.Outcome State Fault Refusal :=
  whenHandle s (handleNack f s).outcome

/-- FRAME_OTHER (R195). -/
def execFrameOther (f : Frame) (s : State) : Host.Outcome State Fault Refusal :=
  whenHandle s (handleOther f s).outcome

end Sys2Proof.Machine
end

