-- ==== Sys2Proof/Machine/ParserAgent.lean ====
section
/-! DEFINITION. The PARSER agent: PARSE_STEP and its nine transitions (44_frame_parser.md R230 to R240). -/

namespace Sys2Proof.Machine

/-- AwaitingSOF: the start-of-frame byte arms the receive timeout and starts a frame; any other byte is ignored (R232). -/
def takeSof (b : Byte) (s : State) : Res :=
  if b = s.cfg.sofValue then
    let s1 := timerSet .recvTmo s.cfg.tRecv s
    .ok (s1.setParser { s1.parser with pidx := 0#8, pstate := .destAddr })
  else .ok s

/-- DestAddr: one byte of the destination address, most significant first (R233). -/
def takeDest (b : Byte) (s : State) : Res :=
  let p := s.parser
  .ofRead (p.rxDest.put p.pidx.toNat b) fun a =>
    if p.pidx = 3#8 then .ok (s.setParser { p with rxDest := a, pidx := 0#8, pstate := .srcAddr })
    else .ok (s.setParser { p with rxDest := a, pidx := p.pidx + 1#8 })

/-- SrcAddr: one byte of the source address, most significant first (R234). -/
def takeSrc (b : Byte) (s : State) : Res :=
  let p := s.parser
  .ofRead (p.rxSrc.put p.pidx.toNat b) fun a =>
    if p.pidx = 3#8 then .ok (s.setParser { p with rxSrc := a, pidx := 0#8, pstate := .type })
    else .ok (s.setParser { p with rxSrc := a, pidx := p.pidx + 1#8 })

/-- Type: every value is stored (R235). -/
def takeType (b : Byte) (s : State) : Res :=
  .ok (s.setParser { s.parser with rxType := some b, pstate := .subType })

/-- SubType: every value is stored (R236). -/
def takeSub (b : Byte) (s : State) : Res :=
  .ok (s.setParser { s.parser with rxSub := some b, pstate := .seqNum })

/-- SeqNum (R237). -/
def takeSeq (b : Byte) (s : State) : Res :=
  .ok (s.setParser { s.parser with rxSeq := some b, pstate := .len })

/-- Len: a length above `MAX_PAYLOAD` drops the frame silently; zero goes straight to FCS (R238). -/
def takeLen (b : Byte) (s : State) : Res :=
  let s1 := s.setParser { s.parser with rxLen := some b }
  if s.cfg.maxPayload.toNat < b.toNat then .ok (parserReset (timerCancel .recvTmo s1))
  else if b = 0#8 then .ok (s1.setParser { s1.parser with pstate := .fcs })
  else .ok (s1.setParser { s1.parser with pidx := 0#8, pstate := .data })

/-- Data: one payload byte (R239). -/
def takeData (b : Byte) (s : State) : Res :=
  let p := s.parser
  .ofRead (arrayWrite s.cfg.maxPayload.toNat p.rxPayload p.pidx.toNat b) fun m =>
    .ofRead (written p.rxLen) fun len =>
      if p.pidx.toNat + 1 = len.toNat then
        .ok (s.setParser { p with rxPayload := m, pidx := 0#8, pstate := .fcs })
      else .ok (s.setParser { p with rxPayload := m, pidx := p.pidx + 1#8 })

/-- The event a completed frame is posted as: FrameReceived where the checksum agrees with the byte received, FrameChecksumError
otherwise (R240, R261). -/
def frameEvent (c : Config) (f : Frame) : Event :=
  if checksum c f = f.fcs then .frameReceived f else .frameChecksumError f

/-- FCS: the checksum byte. The receive timeout is cancelled, the frame's event posted, and the parser reset, unless the post raised a
fatal (R240). -/
def takeFcs (b : Byte) (s : State) : Res :=
  let s1 := timerCancel .recvTmo (s.setParser { s.parser with rxFcs := some b })
  .ofRead (rxSnapshot s1.cfg s1.parser) fun f =>
    (evqPost (frameEvent s1.cfg f) s1).andThen fun s2 => .ok (parserReset s2)

/-- One parser transition on a byte (R230, R241). -/
def parseByte (b : Byte) (s : State) : Res :=
  match s.parser.pstate with
  | .awaitingSof => takeSof b s
  | .destAddr => takeDest b s
  | .srcAddr => takeSrc b s
  | .type => takeType b s
  | .subType => takeSub b s
  | .seqNum => takeSeq b s
  | .len => takeLen b s
  | .data => takeData b s
  | .fcs => takeFcs b s

/-- PARSE_STEP's rule: the oldest byte of the ring, run through one transition; no step on an empty ring (R230). -/
def parseOldest (s : State) : Host.Outcome State Fault Refusal :=
  match rbGet s with
  | .error e => .fault e
  | .ok none => .refused .ringEmpty
  | .ok (some (b, s')) => (parseByte b s').outcome

/-- PARSE_STEP (R230). -/
def execParseStep (s : State) : Host.Outcome State Fault Refusal :=
  whenAlive s (parseOldest s)

end Sys2Proof.Machine
end

