-- ==== Sys2Proof/Machine/ResetAgent.lean ====
section
/-! DEFINITION. The environment's RESET (70_reset_and_hazards.md R340), enabled always. -/

namespace Sys2Proof.Machine

/-- RESET: enabled always, the fatal state included (R340, R323). -/
def execReset (s : State) : Host.Outcome State Fault Refusal :=
  .next (resetBlock s)

end Sys2Proof.Machine
end

