-- ==== Sys2Proof/Machine/RingPort.lean ====
section
/-! DEFINITION. The RX agent: RX_PUT (40_ring_buffer.md R120). -/

namespace Sys2Proof.Machine

/-- RX_PUT's rule: the byte goes into the ring and the answer is OK, or the ring is full and the answer is FULL (R120, R123). -/
def putReceived (b : Byte) (s : State) : Res :=
  .ofRead (rbPut b s) fun
    | some s' => .ok (respond .ok none s')
    | none => .ok (respond .full none s)

/-- RX_PUT (R120). -/
def execRxPut (b : Byte) (s : State) : Host.Outcome State Fault Refusal :=
  whenAlive s (putReceived b s).outcome

end Sys2Proof.Machine
end

