-- ==== Sys2Proof/Machine/Timer.lean ====
section
/-! DEFINITION. The TIMER agent: TICK (41_timer.md R142). -/

namespace Sys2Proof.Machine

/-- TICK's rule: every armed timer comes `delta` ticks nearer, and those that expire post their events in registration order. The new
`tm_list` is written before the first post (R142). -/
def tickTimers (delta : Word) (s : State) : Res :=
  postAll ((firedKeys delta s.tmList).map signalOf) (s.setTimers (keptEntries delta s.tmList))

/-- TICK (R142). -/
def execTick (delta : Word) (s : State) : Host.Outcome State Fault Refusal :=
  whenAlive s (tickTimers delta s).outcome

end Sys2Proof.Machine
end

