-- ==== Sys2Proof/Machine/Dispatch.lean ====
section
/-! DEFINITION. The meaning of every instruction, one arm per constructor. -/

namespace Sys2Proof.Machine

def exec (i : Instr) (s : State) : Host.Outcome State Fault Refusal :=
  match i with
  | .rxPut b => Sys2Proof.Machine.execRxPut b s
  | .parseStep => Sys2Proof.Machine.execParseStep s
  | .tick delta => Sys2Proof.Machine.execTick delta s
  | .sendReq dest len payload => Sys2Proof.Machine.execSendReq dest len payload s
  | .cfgWr reg value => Sys2Proof.Machine.execCfgWr reg value s
  | .cfgRd reg => Sys2Proof.Machine.execCfgRd reg s
  | .linkInit => Sys2Proof.Machine.execLinkInit s
  | .linkDispatch => Sys2Proof.Machine.execLinkDispatch s
  | .reset => Sys2Proof.Machine.execReset s
  | .reserved opcode => Sys2Proof.Machine.execReserved opcode s
  | .evSendRequest dest len payload => Sys2Proof.Machine.execEvSendRequest dest len payload s
  | .evSendTimeout => Sys2Proof.Machine.execEvSendTimeout s
  | .evFrameReceived f => Sys2Proof.Machine.execEvFrameReceived f s
  | .evFrameChecksumError f => Sys2Proof.Machine.execEvFrameChecksumError f s
  | .evFrameReceiveTimeout => Sys2Proof.Machine.execEvFrameReceiveTimeout s
  | .frameReq f => Sys2Proof.Machine.execFrameReq f s
  | .frameAck f => Sys2Proof.Machine.execFrameAck f s
  | .frameNack f => Sys2Proof.Machine.execFrameNack f s
  | .frameOther f => Sys2Proof.Machine.execFrameOther f s

end Sys2Proof.Machine
end

