-- ==== Sys2Proof/Machine/Fetch.lean ====
section
/-! DEFINITION. Taking the next command word from those the environment has still to issue (30_encoding.md R97, R101, R102; assumption
log 4), and issuing a word in front of them. -/

namespace Sys2Proof.Machine

/-- The state with the words still to be issued replaced. -/
def setScript (script : List Byte) (s : State) : State :=
  s.setEnv { s.env with script := script }

/-- The next command word's instruction, and the state with the word issued (R101). -/
def fetch (s : State) : Except Refusal (Instr × State) :=
  match decode s.env.script with
  | .ok (i, rest) => .ok (i, setScript rest s)
  | .error .noWord => .error .scriptEmpty
  | .error .cutShort => .error .truncatedWord

/-- The state whose next command word is the first word of the given bytes. -/
def issueWord (bs : List Byte) (s : State) : State :=
  setScript (firstWord bs ++ s.env.script) s

end Sys2Proof.Machine
end

