-- ==== Sys2Proof/Machine/Step.lean ====
section
/-! DEFINITION. One step: the next command word is taken and its instruction run (30_encoding.md R102). A configuration that breaks a
constraint has no step (00_scope.md R10). -/

namespace Sys2Proof.Machine

def step (s : State) : Host.Outcome State Fault Refusal :=
  if s.cfg.valid then
    match fetch s with
    | .ok (i, s') => exec i s'
    | .error r => .refused r
  else .refused .badConfig

/-- The state whose next command word is the given table word (assumption log 4 and 8). -/
def State.withFetchWord (s : State) (nbits w : Nat) : State :=
  issueWord (tableString nbits w) s

end Sys2Proof.Machine
end

