-- ==== Sys2Proof/WellFormed.lean ====
section
/-! DEFINITION. When an instruction is one the spec admits: lengths that agree with payloads, opcodes that are reserved, and
frames whose type byte is the one their row names (30_encoding.md R94, R98, R100; 42_event_queue.md R160). -/

namespace Sys2Proof

/-- A payload operand has exactly the number of bytes its length byte says (R98, R160). -/
def payloadFits (len : Byte) (payload : List Byte) : Bool :=
  payload.length == len.toNat

/-- A frame snapshot's length byte agrees with its payload and is at most `MAX_PAYLOAD` (R160). -/
def Frame.wf (c : Config) (f : Frame) : Bool :=
  payloadFits f.len f.payload && decide (f.len.toNat ≤ c.maxPayload.toNat)

/-- An event as R160 admits it. -/
def Event.wf (c : Config) : Event → Bool
  | .sendRequest _ len payload => payloadFits len payload
  | .sendTimeout => true
  | .frameReceived f => f.wf c
  | .frameChecksumError f => f.wf c
  | .frameReceiveTimeout => true

/-- The instructions the spec admits under a configuration. -/
def Instr.wf (c : Config) : Instr → Bool
  | .rxPut _ => true
  | .parseStep => true
  | .tick _ => true
  | .sendReq _ len payload => payloadFits len payload
  | .cfgWr _ _ => true
  | .cfgRd _ => true
  | .linkInit => true
  | .linkDispatch => true
  | .reset => true
  | .reserved opcode => reservedOpcode opcode
  | .evSendRequest _ len payload => payloadFits len payload
  | .evSendTimeout => true
  | .evFrameReceived f => f.wf c
  | .evFrameChecksumError f => f.wf c
  | .evFrameReceiveTimeout => true
  | .frameReq f => f.wf c && decide (frameKind c f.type = .req)
  | .frameAck f => f.wf c && decide (frameKind c f.type = .ack)
  | .frameNack f => f.wf c && decide (frameKind c f.type = .nack)
  | .frameOther f => f.wf c && decide (frameKind c f.type = .other)

end Sys2Proof
end

