-- ==== Sys2Proof/Safety.lean ====
section
/-! DEFINITION. The terms claims are stated in: the invariants of 10_state.md R63 and what stands beside them, when an instruction is
enabled (R7, R180, R230, R312), which event's handler it runs (R182), the bytes the ring holds, what a logged write may have put on the wire (U6), and runs of several
instructions. -/

namespace Sys2Proof

/-- The instructions of the LINK agent: its two steps, and the handlers LINK_DISPATCH runs (R6, R180, R182). -/
def Instr.ofLink : Instr → Bool
  | .rxPut _ => false
  | .parseStep => false
  | .tick _ => false
  | .sendReq _ _ _ => false
  | .cfgWr _ _ => false
  | .cfgRd _ => false
  | .linkInit => true
  | .linkDispatch => true
  | .reset => false
  | .reserved _ => false
  | .evSendRequest _ _ _ => true
  | .evSendTimeout => true
  | .evFrameReceived _ => true
  | .evFrameChecksumError _ => true
  | .evFrameReceiveTimeout => true
  | .frameReq _ => true
  | .frameAck _ => true
  | .frameNack _ => true
  | .frameOther _ => true

end Sys2Proof

namespace Sys2Proof.Machine

/-! ### The invariants -/

/-- R63 (a), with the index ranges of R32 to R34, and every byte the ring holds written (R122). -/
structure Ring.Inv (c : Config) (r : Ring) : Prop where
  headInRange : r.head < c.rbCap
  countInRange : r.count ≤ c.rbCap
  tailAgrees : r.tail = (r.head + r.count) % c.rbCap
  memWf : r.mem.wf = true
  memBelow : r.mem.below c.rbCap = true
  heldWritten : ∀ k < r.count, (r.mem.read ((r.head + k) % c.rbCap)).isSome = true

/-- R63 (b): the range R36 gives `pidx` in each parser state. -/
def Parser.idxInRange (p : Parser) : Prop :=
  match p.pstate with
  | .destAddr => p.pidx.toNat ≤ 3
  | .srcAddr => p.pidx.toNat ≤ 3
  | .data => ∃ len, p.rxLen = some len ∧ p.pidx.toNat < len.toNat
  | _ => p.pidx = 0#8

/-- How many bytes of the current frame's destination address the parser has taken (R36). -/
def Parser.destTaken (p : Parser) : Nat :=
  match p.pstate with
  | .awaitingSof => 0
  | .destAddr => p.pidx.toNat
  | _ => 4

/-- How many bytes of the current frame's source address the parser has taken (R36). -/
def Parser.srcTaken (p : Parser) : Nat :=
  match p.pstate with
  | .awaitingSof => 0
  | .destAddr => 0
  | .srcAddr => p.pidx.toNat
  | _ => 4

/-- How many payload bytes of the current frame the parser has taken (R36). -/
def Parser.payloadTaken (p : Parser) : Nat :=
  match p.pstate with
  | .data => p.pidx.toNat
  | .fcs => (p.rxLen.map BitVec.toNat).getD 0
  | _ => 0

/-- The `k`-th byte of an address register in transmission order (R72). -/
def AddrReg.byte (a : AddrReg) : Nat → Option Byte
  | 0 => a.b0
  | 1 => a.b1
  | 2 => a.b2
  | _ => a.b3

/-- R63 (b), and every part of the scratch receive frame that the parser has passed is written, with a length the parser accepts
(R238). -/
structure Parser.Inv (c : Config) (p : Parser) : Prop where
  idx : p.idxInRange
  destWritten : ∀ k < p.destTaken, (p.rxDest.byte k).isSome = true
  srcWritten : ∀ k < p.srcTaken, (p.rxSrc.byte k).isSome = true
  typeWritten : 3#4 < p.pstate.code → p.rxType.isSome = true
  subWritten : 4#4 < p.pstate.code → p.rxSub.isSome = true
  seqWritten : 5#4 < p.pstate.code → p.rxSeq.isSome = true
  lenAccepted : 6#4 < p.pstate.code → ∃ len, p.rxLen = some len ∧ len.toNat ≤ c.maxPayload.toNat
  payloadWritten : ∀ k < p.payloadTaken, (p.rxPayload.read k).isSome = true
  memWf : p.rxPayload.wf = true
  memBelow : p.rxPayload.below c.maxPayload.toNat = true

/-- R39 and R142: at most one entry per key, and every entry has ticks remaining. -/
structure TimersInv (l : List TimerEntry) : Prop where
  onePerKey : (l.map (fun e => e.key)).Nodup
  remainingPositive : ∀ e ∈ l, e.remaining ≠ 0#32

/-- R40 and R160: a bounded queue of events the spec admits. -/
structure EvqInv (c : Config) (q : List Event) : Prop where
  bounded : q.length ≤ c.evqCap
  eventsWf : ∀ ev ∈ q, ev.wf c = true

/-- R63 (d) and (e): while Sending the whole send frame is written and carries `send_seq`; in Handle both sequence numbers are
written. The outstanding REQ also has the fields R184 gives it, and no REQ is outstanding in Init (R180). -/
structure Arq.Inv (c : Config) (a : Arq) : Prop where
  sendFrame : a.sendState = .sending →
    ∃ f, txFrame c a.tx = .ok f ∧ a.sendSeq = some f.seq ∧ f.wf c = true ∧
      f.src = c.localAddr ∧ f.type = c.typeReq ∧ f.sub = 0x00#8 ∧ f.fcs = checksum c f
  seqWritten : a.lstate = .handle → a.sendSeq.isSome = true ∧ a.recvSeq.isSome = true
  initIdle : a.lstate = .init → a.sendState = .idle
  memWf : a.tx.payload.wf = true
  memBelow : a.tx.payload.below c.maxPayload.toNat = true

/-- R48 and R311: the code is 0x00 exactly while no fatal has occurred, and otherwise one of the four. -/
def FatalInv (fatal : Bool) (code : Byte) : Prop :=
  match fatal with
  | false => code = 0x00#8
  | true => ∃ cause : FatalCause, code = cause.code

/-- The invariants of R63 but for its clause (c), which R187 does not keep (assumption log 13), with those of R39, R40, R48 and the
constraints of R10. -/
structure State.Inv (s : State) : Prop where
  config : s.cfg.valid = true
  ring : s.ring.Inv s.cfg
  parser : s.parser.Inv s.cfg
  timers : TimersInv s.tmList
  queue : EvqInv s.cfg s.evq
  arq : s.arq.Inv s.cfg
  fatal : FatalInv s.fatal s.fatalCode

/-- R63 (c): while Idle, `tm_list` holds no `SEND_TMO` entry. The statement EveryStepKeepsTheInvariant says how far the steps keep it
(assumption log 13). -/
def IdleHasNoSendTimer (s : State) : Prop :=
  s.arq.sendState = .idle → armed .sendTmo s.tmList = false

/-! ### Enables -/

/-- Whether the operation has a step in this state (R7, R180, R230, R312). A reserved opcode is always answered (R100; while fatal too:
DEDUCED, assumption log 10), and a handler runs whenever the LINK agent is alive and in Handle (DEDUCED, assumption log 7). -/
def Enabled (i : Instr) (s : State) : Prop :=
  match i with
  | .rxPut _ => s.fatal = false
  | .parseStep => s.fatal = false ∧ s.ring.count ≠ 0
  | .tick _ => s.fatal = false
  | .sendReq _ _ _ => s.fatal = false
  | .cfgWr _ _ => s.fatal = false
  | .cfgRd _ => True
  | .linkInit => s.fatal = false ∧ s.arq.lstate = .init
  | .linkDispatch => s.fatal = false ∧ s.arq.lstate = .handle ∧ s.evq ≠ []
  | .reset => True
  | .reserved _ => True
  | .evSendRequest _ _ _ => s.fatal = false ∧ s.arq.lstate = .handle
  | .evSendTimeout => s.fatal = false ∧ s.arq.lstate = .handle
  | .evFrameReceived _ => s.fatal = false ∧ s.arq.lstate = .handle
  | .evFrameChecksumError _ => s.fatal = false ∧ s.arq.lstate = .handle
  | .evFrameReceiveTimeout => s.fatal = false ∧ s.arq.lstate = .handle
  | .frameReq _ => s.fatal = false ∧ s.arq.lstate = .handle
  | .frameAck _ => s.fatal = false ∧ s.arq.lstate = .handle
  | .frameNack _ => s.fatal = false ∧ s.arq.lstate = .handle
  | .frameOther _ => s.fatal = false ∧ s.arq.lstate = .handle

/-- The instruction runs the handler of this event: as the event's own row, or as LINK_DISPATCH with the event at the front of the
queue (R182; assumption log 7). -/
def RunsHandler (ev : Event) (i : Instr) (s : State) : Prop :=
  i = decodeEvent ev ∨ (i = .linkDispatch ∧ s.evq.head? = some ev)

/-! ### What the ring and a log entry mean -/

/-- The bytes the ring holds, oldest first (R34, R124). -/
def ringBytes (c : Config) (r : Ring) : List (Option Byte) :=
  (List.range r.count).map (fun k => r.mem.read ((r.head + k) % c.rbCap))

/-- The ring's oldest byte is `b` (R32, R122). -/
def OldestByte (s : State) (b : Byte) : Prop :=
  s.ring.count ≠ 0 ∧ s.ring.head < s.cfg.rbCap ∧ s.ring.mem.read s.ring.head = some b

/-- The ring without its oldest byte (R122). -/
def popped (c : Config) (r : Ring) : Ring :=
  { r with head := (r.head + 1) % c.rbCap, count := r.count - 1 }

/-- The frame bytes a `txlog` entry holds. -/
def TxEntry.bytes : TxEntry → List Byte
  | .sent w => w
  | .failed w => w

/-- The bytes that may have reached the wire for a `txlog` entry: all of a frame sent, any prefix of one whose write failed (R291, U6;
assumption log 14). -/
def TxEntry.OnWire : TxEntry → List Byte → Prop
  | .sent w, bytes => bytes = w
  | .failed w, bytes => bytes <+: w

/-! ### Runs -/

/-- Several instructions one after another, stopping at the first fault or refusal. -/
def runInstrs : List Instr → State → Host.Outcome State Fault Refusal
  | [], s => .next s
  | i :: rest, s =>
    match exec i s with
    | .next t => runInstrs rest t
    | .fault r => .fault r
    | .refused r => .refused r

/-- FEED of R108: each byte put into the ring and parsed. -/
def feed (bytes : List Byte) : List Instr :=
  bytes.flatMap (fun b => [.rxPut b, .parseStep])

/-- `n` rounds of a whole send timeout and the dispatch of its event (R201). -/
def timeoutRounds (c : Config) : Nat → List Instr
  | 0 => []
  | n + 1 => .tick c.tSend :: .linkDispatch :: timeoutRounds c n

end Sys2Proof.Machine
end

