-- ==== Sys2Proof/Certificates/Slice0/Obligations.lean ====
section
/-! DEFINITION. The statements about the model, each from the numbered rules of spec/. They hold for every configuration and every state
that meets their hypotheses; a next state is written as the state before with the fields a rule writes, so that every other field is
unchanged. -/

open Sys2Proof Sys2Proof.Machine

/-! ### Encodings -/

/-- R97, R98, R100, R101: the command word of a well-formed command decodes to it, with the bytes after it left over. -/
def Obligations.CommandWordRoundTrip : Prop :=
  ∀ (c : Config) (i : Instr) (rest : List Byte), i.isCommand = true → i.wf c = true →
    decode (encode c i ++ rest) = .ok (i, rest)

/-- R97, R98, R100, R101: whatever the decoder reads is a well-formed command, and the bytes it read are that command's word. -/
def Obligations.DecodedBytesAreTheCommandWord : Prop :=
  ∀ (c : Config) (bs : List Byte) (i : Instr) (rest : List Byte), decode bs = .ok (i, rest) →
    i.isCommand = true ∧ i.wf c = true ∧ encode c i ++ rest = bs

/-- R101: a word cut short before its length is not a command. -/
def Obligations.CutShortWordIsNoCommand : Prop :=
  ∀ (c : Config) (i : Instr) (k : Nat), i.isCommand = true → i.wf c = true → k < (encode c i).length →
    decode ((encode c i).take k) = .error (if k = 0 then .noWord else .cutShort)

/-- R100: the reserved opcodes are one-byte words that answer ERR, in every state, and change nothing but the record of answers, to which
the model adds their ERR (assumption log 9 and 10). -/
def Obligations.ReservedOpcodesAnswerErr : Prop :=
  ∀ (op : Byte) (rest : List Byte) (s : State),
    op.toNat = 0x00 ∨ (0x09 ≤ op.toNat ∧ op.toNat ≤ 0x0E) ∨ 0x10 ≤ op.toNat →
    decode (op :: rest) = .ok (.reserved op, rest) ∧
      exec (.reserved op) s = .next { s with out := { s.out with resplog := s.out.resplog ++ [⟨.err, none⟩] } }

/-- R90, R92, R93: the wire bytes of a frame are `14 + len`, and the wire layout read back from them is the frame. -/
def Obligations.FrameWireRoundTrip : Prop :=
  ∀ (c : Config) (f : Frame) (rest : List Byte), f.wf c = true →
    (serialise c f).length = 14 + f.len.toNat ∧ decodeFrame c (serialise c f ++ rest) = .ok (f, rest)

/-- R94: the type byte alone chooses the row a received frame is handled by; from a state of the invariant the handling answers a next
state. -/
def Obligations.FrameTypeSelectsItsRow : Prop :=
  ∀ (f : Frame) (s : State), s.cfg.valid = true →
    (f.type = s.cfg.typeReq → exec (.evFrameReceived f) s = exec (.frameReq f) s) ∧
    (f.type = s.cfg.typeAck → exec (.evFrameReceived f) s = exec (.frameAck f) s) ∧
    (f.type = s.cfg.typeNack → exec (.evFrameReceived f) s = exec (.frameNack f) s) ∧
    (f.type ≠ s.cfg.typeReq → f.type ≠ s.cfg.typeAck → f.type ≠ s.cfg.typeNack →
      exec (.evFrameReceived f) s = exec (.frameOther f) s) ∧
    (s.Inv → s.fatal = false → s.arq.lstate = .handle → f.wf s.cfg = true →
      ∃ t, exec (.evFrameReceived f) s = .next t ∧ t.evq = s.evq)

/-- R103: the five signal codes; 0x00 and 0x06 to 0xFF are no signal's. -/
def Obligations.SignalCodesAreOneToFive : Prop :=
  Signal.sendRequest.code = 0x01#8 ∧ Signal.sendTimeout.code = 0x02#8 ∧ Signal.frameReceived.code = 0x03#8 ∧
    Signal.frameChecksumError.code = 0x04#8 ∧ Signal.frameReceiveTimeout.code = 0x05#8 ∧
    (∀ g : Signal, Signal.ofCode g.code = some g) ∧
    (∀ code : Byte, (Signal.ofCode code).isNone = true ↔ code.toNat = 0 ∨ 6 ≤ code.toNat)

/-- Words written out from R97 and R98, with what they stand for (95_test_vectors.md: R280 and R282's examples, HC1, P2). -/
def Obligations.WordsOfTheSpecDecode : Prop :=
  decode [0x01#8, 0x7E#8] = .ok (.rxPut 0x7E#8, []) ∧
  decode [0x03#8, 0x00#8, 0x00#8, 0x00#8, 0x0A#8] = .ok (.tick 10#32, []) ∧
  decode [0x04#8, 0x00#8, 0x00#8, 0x00#8, 0x02#8, 0x03#8, 0x01#8, 0x02#8, 0x03#8] =
    .ok (.sendReq 0x00000002#32 3#8 [0x01#8, 0x02#8, 0x03#8], []) ∧
  decode [0x05#8, 0x00#8, 0x00#8, 0x00#8, 0x00#8, 0x05#8] = .ok (.cfgWr 0x00#8 5#32, []) ∧
  decode [0x06#8, 0x01#8] = .ok (.cfgRd 0x01#8, []) ∧
  decode [0x08#8, 0x0F#8] = .ok (.linkDispatch, [0x0F#8])

/-! ### The step -/

/-- R102 says what issuing a word means; that the words still to be issued stand in `env.script`, and that a step takes the next one from
there and leaves the rest, is the model's choice (DESIGN CHOICE, assumption log 4): a step runs that word's instruction on the state with
the word issued. -/
def Obligations.StepRunsDecodedInstruction : Prop :=
  ∀ (s : State) (i : Instr) (rest : List Byte), s.cfg.valid = true → decode s.env.script = .ok (i, rest) →
    step s = exec i { s with env := { s.env with script := rest } }

/-- R10, R101: a configuration that is not legal has no step, which `step` alone checks (DESIGN CHOICE, assumption log 18) and which counts
R8's admitted ranges and R58's bound among the constraints (DEDUCED, assumption log 12); where `env.script` holds no word (DESIGN CHOICE,
assumption log 4), or no whole one, none is run. -/
def Obligations.StepStopsWithoutAnInstruction : Prop :=
  ∀ s : State,
    (s.cfg.valid = false → step s = .refused .badConfig) ∧
    (s.cfg.valid = true → decode s.env.script = .error .noWord → step s = .refused .scriptEmpty) ∧
    (s.cfg.valid = true → decode s.env.script = .error .cutShort → step s = .refused .truncatedWord)

/-! ### RESET -/

/-- R340: RESET, always enabled, puts every element of the block to its reset value and keeps the environment's records and inputs. -/
def Obligations.ResetRestoresEveryElement : Prop :=
  ∀ s : State, exec .reset s = .next
    { cfg := s.cfg
      ring := { mem := [], head := 0, tail := 0, count := 0 }
      parser :=
        { pstate := .awaitingSof, pidx := 0#8
          rxDest := ⟨none, none, none, none⟩, rxSrc := ⟨none, none, none, none⟩
          rxType := none, rxSub := none, rxSeq := none, rxLen := none, rxFcs := none, rxPayload := [] }
      tmList := []
      evq := []
      arq :=
        { lstate := .init, sendState := .idle, sendSeq := none, recvSeq := none
          retry := 0#8, maxRetry := s.cfg.maxRetryDefault
          tx := ⟨none, none, none, none, none, none, none, []⟩ }
      fatal := false
      fatalCode := 0x00#8
      out := s.out
      env := s.env }

/-- R341, last row, and R52: what every register number reads as right after RESET. -/
def Obligations.RegistersAfterReset : Prop :=
  ∀ c : Config,
    readNumber 0x00#8 (State.resetWith c) = .ok (some (c.maxRetryDefault.setWidth 32)) ∧
    readNumber 0x01#8 (State.resetWith c) = .ok (some 0#32) ∧
    readNumber 0x02#8 (State.resetWith c) = .ok none ∧
    readNumber 0x03#8 (State.resetWith c) = .ok (some 0#32) ∧
    readNumber 0x04#8 (State.resetWith c) = .ok (some c.localAddr) ∧
    readNumber 0x05#8 (State.resetWith c) = .ok (some 0#32) ∧
    readNumber 0x06#8 (State.resetWith c) = .ok (some 0#32) ∧
    readNumber 0x07#8 (State.resetWith c) = .ok (some 0#32) ∧
    ∀ n : Byte, 0x08 ≤ n.toNat → readNumber n (State.resetWith c) = .ok none

/-- R63 and R341: the state after power-on meets the invariant and clause (c), so all of R63, under every legal configuration and whatever
the environment will issue and draw. -/
def Obligations.ResetMeetsInvariant : Prop :=
  ∀ (c : Config) (e : Env), c.valid = true →
    ((State.resetWith c).setEnv e).Inv ∧ IdleHasNoSendTimer ((State.resetWith c).setEnv e)

/-! ### The ring buffer -/

/-- R120, R121, R123: RX_PUT writes its byte at the tail and answers OK; a full ring answers FULL and changes nothing else; a fatal
block has no step. The answers are recorded in `resplog` (assumption log 9). -/
def Obligations.RxPutAppendsOrAnswersFull : Prop :=
  ∀ (b : Byte) (s : State),
    (s.fatal = true → exec (.rxPut b) s = .refused .fatalState) ∧
    (s.fatal = false → s.ring.count = s.cfg.rbCap →
      exec (.rxPut b) s = .next { s with out := { s.out with resplog := s.out.resplog ++ [⟨.full, none⟩] } }) ∧
    (s.fatal = false → s.ring.count ≠ s.cfg.rbCap → s.ring.tail < s.cfg.rbCap →
      exec (.rxPut b) s = .next
        { s with
          ring :=
            { mem := s.ring.mem.write s.ring.tail b, head := s.ring.head
              tail := (s.ring.tail + 1) % s.cfg.rbCap, count := s.ring.count + 1 }
          out := { s.out with resplog := s.out.resplog ++ [⟨.ok, none⟩] } })

/-- R121, R122, R239: the frame of the stores into byte arrays. RX_PUT changes no ring element but the one at the tail, PARSE_STEP
changes no ring element and no payload element but, in Data, the one at `pidx`. -/
def Obligations.ByteStoresTouchOneElement : Prop :=
  (∀ (b : Byte) (s t : State), exec (.rxPut b) s = .next t →
    t.parser.rxPayload = s.parser.rxPayload ∧ t.arq.tx = s.arq.tx ∧
    ∀ k, k ≠ s.ring.tail ∨ s.ring.count = s.cfg.rbCap → t.ring.mem.read k = s.ring.mem.read k) ∧
  (∀ s t : State, exec .parseStep s = .next t →
    t.ring.mem = s.ring.mem ∧ t.arq.tx = s.arq.tx ∧
    ∀ k, k ≠ s.parser.pidx.toNat ∨ s.parser.pstate ≠ .data → t.parser.rxPayload.read k = s.parser.rxPayload.read k)

/-- R124: the ring is FIFO. A byte accepted comes last of those held, and the byte taken is the first of them. -/
def Obligations.RingIsFifo : Prop :=
  ∀ s : State, s.ring.Inv s.cfg →
    (∀ b s', rbPut b s = .ok (some s') → ringBytes s'.cfg s'.ring = ringBytes s.cfg s.ring ++ [some b]) ∧
    (∀ b s', rbGet s = .ok (some (b, s')) → ringBytes s.cfg s.ring = some b :: ringBytes s'.cfg s'.ring) ∧
    (rbGet s = .ok none → ringBytes s.cfg s.ring = [])

/-! ### The frame parser -/

/-- R232: in AwaitingSOF the sentinel arms the receive timeout, last in the list, and starts a frame; any other byte only leaves the
ring. -/
def Obligations.AwaitingSofTransition : Prop :=
  ∀ (s : State) (b : Byte), s.fatal = false → OldestByte s b → s.parser.pstate = .awaitingSof →
    exec .parseStep s = .next
      (if b = s.cfg.sofValue then
        { s with
          ring := popped s.cfg s.ring
          tmList := s.tmList.filter (fun e => decide (e.key ≠ .recvTmo)) ++ [⟨.recvTmo, s.cfg.tRecv⟩]
          parser := { s.parser with pidx := 0#8, pstate := .destAddr } }
      else { s with ring := popped s.cfg s.ring })

/-- R233, R234: in DestAddr and SrcAddr the byte goes into bits [31-8k : 24-8k] of the address register, `k` being `pidx`; the fourth byte
moves to the next state. -/
def Obligations.AddressByteTransitions : Prop :=
  ∀ (s : State) (b : Byte), s.fatal = false → OldestByte s b → s.parser.pidx.toNat ≤ 3 →
    (s.parser.pstate = .destAddr → ∃ a : AddrReg,
      (∀ j ≤ 3, a.byte j = if j = s.parser.pidx.toNat then some b else s.parser.rxDest.byte j) ∧
      exec .parseStep s = .next
        { s with
          ring := popped s.cfg s.ring
          parser :=
            if s.parser.pidx = 3#8 then { s.parser with rxDest := a, pidx := 0#8, pstate := .srcAddr }
            else { s.parser with rxDest := a, pidx := s.parser.pidx + 1#8 } }) ∧
    (s.parser.pstate = .srcAddr → ∃ a : AddrReg,
      (∀ j ≤ 3, a.byte j = if j = s.parser.pidx.toNat then some b else s.parser.rxSrc.byte j) ∧
      exec .parseStep s = .next
        { s with
          ring := popped s.cfg s.ring
          parser :=
            if s.parser.pidx = 3#8 then { s.parser with rxSrc := a, pidx := 0#8, pstate := .type }
            else { s.parser with rxSrc := a, pidx := s.parser.pidx + 1#8 } })

/-- R72: an address register is its bytes, the first taken in bits [31:24] and the last in bits [7:0]. -/
def Obligations.AddressesAreMostSignificantFirst : Prop :=
  ∀ b0 b1 b2 b3 : Byte, ∃ w : Word,
    AddrReg.value ⟨some b0, some b1, some b2, some b3⟩ = .ok w ∧ wordBytes w = [b0, b1, b2, b3] ∧
      w.toNat = b0.toNat * 2 ^ 24 + b1.toNat * 2 ^ 16 + b2.toNat * 2 ^ 8 + b3.toNat

/-- R235, R236, R237: Type, SubType and SeqNum store every value and move on. -/
def Obligations.HeaderByteTransitions : Prop :=
  ∀ (s : State) (b : Byte), s.fatal = false → OldestByte s b →
    (s.parser.pstate = .type → exec .parseStep s = .next
      { s with ring := popped s.cfg s.ring, parser := { s.parser with rxType := some b, pstate := .subType } }) ∧
    (s.parser.pstate = .subType → exec .parseStep s = .next
      { s with ring := popped s.cfg s.ring, parser := { s.parser with rxSub := some b, pstate := .seqNum } }) ∧
    (s.parser.pstate = .seqNum → exec .parseStep s = .next
      { s with ring := popped s.cfg s.ring, parser := { s.parser with rxSeq := some b, pstate := .len } })

/-- R238: in Len, a length above `MAX_PAYLOAD` cancels the receive timeout and drops the frame with no event; zero goes to FCS, and any
other to Data. -/
def Obligations.LenTransition : Prop :=
  ∀ (s : State) (b : Byte), s.fatal = false → OldestByte s b → s.parser.pstate = .len →
    exec .parseStep s = .next
      (if s.cfg.maxPayload.toNat < b.toNat then
        { s with
          ring := popped s.cfg s.ring
          tmList := s.tmList.filter (fun e => decide (e.key ≠ .recvTmo))
          parser := { s.parser with rxLen := some b, pstate := .awaitingSof, pidx := 0#8 } }
      else if b = 0#8 then
        { s with ring := popped s.cfg s.ring, parser := { s.parser with rxLen := some b, pstate := .fcs } }
      else
        { s with ring := popped s.cfg s.ring, parser := { s.parser with rxLen := some b, pidx := 0#8, pstate := .data } })

/-- R239: in Data the byte goes into `rx_payload[pidx]`; the last of `rx_len` bytes moves to FCS. -/
def Obligations.DataTransition : Prop :=
  ∀ (s : State) (b len : Byte), s.fatal = false → OldestByte s b → s.parser.pstate = .data → s.parser.rxLen = some len →
    s.parser.pidx.toNat < len.toNat → len.toNat ≤ s.cfg.maxPayload.toNat →
    exec .parseStep s = .next
      { s with
        ring := popped s.cfg s.ring
        parser :=
          if s.parser.pidx.toNat + 1 = len.toNat then
            { s.parser with
              rxPayload := s.parser.rxPayload.write s.parser.pidx.toNat b, pidx := 0#8, pstate := .fcs }
          else
            { s.parser with
              rxPayload := s.parser.rxPayload.write s.parser.pidx.toNat b, pidx := s.parser.pidx + 1#8 } }

/-- R240, R261: in FCS the receive timeout is cancelled and the frame posted, as received where its checksum equals the byte and as a
checksum error otherwise, and the parser reset; into a full queue the post is fatal and the reset does not run. -/
def Obligations.FcsTransition : Prop :=
  ∀ (s : State) (b : Byte) (f : Frame), s.fatal = false → OldestByte s b → s.parser.pstate = .fcs →
    rxSnapshot s.cfg { s.parser with rxFcs := some b } = .ok f →
    exec .parseStep s = .next
      (if s.evq.length = s.cfg.evqCap then
        { s with
          ring := popped s.cfg s.ring
          tmList := s.tmList.filter (fun e => decide (e.key ≠ .recvTmo))
          parser := { s.parser with rxFcs := some b }
          fatal := true
          fatalCode := 0x04#8 }
      else
        { s with
          ring := popped s.cfg s.ring
          tmList := s.tmList.filter (fun e => decide (e.key ≠ .recvTmo))
          parser := { s.parser with rxFcs := some b, pstate := .awaitingSof, pidx := 0#8 }
          evq := s.evq ++ [if checksum s.cfg f = b then .frameReceived f else .frameChecksumError f] })

/-- R242, R267, R241: feeding the `14 + len` wire bytes of a frame to a parser in AwaitingSOF posts exactly one event, which holds the
frame's own fields, and returns the parser to AwaitingSOF with no receive timer armed. -/
def Obligations.ParserTakesAWholeFrame : Prop :=
  ∀ (s : State) (f : Frame), s.Inv → s.fatal = false → s.parser.pstate = .awaitingSof → s.ring.count = 0 →
    s.evq.length < s.cfg.evqCap → f.wf s.cfg = true →
    ∃ t, runInstrs (feed (serialise s.cfg f)) s = .next t ∧
      t.evq = s.evq ++ [if checksum s.cfg f = f.fcs then .frameReceived f else .frameChecksumError f] ∧
      t.parser.pstate = .awaitingSof ∧ t.parser.pidx = 0#8 ∧ t.ring.count = 0 ∧
      t.tmList = s.tmList.filter (fun e => decide (e.key ≠ .recvTmo)) ∧
      t.arq = s.arq ∧ t.fatal = false ∧ t.out.txlog = s.out.txlog ∧ t.out.notelog = s.out.notelog ∧ t.Inv

/-- R243: after a header whose length byte exceeds `MAX_PAYLOAD` and any bytes none of which is `SOF_VALUE`, a frame that follows is parsed
and posted, and the dropped one has posted nothing. -/
def Obligations.ParserRecoversAfterOversizedLength : Prop :=
  ∀ (s : State) (dropped f : Frame) (junk : List Byte), s.Inv → s.fatal = false → s.parser.pstate = .awaitingSof →
    s.ring.count = 0 → s.evq.length < s.cfg.evqCap → s.cfg.maxPayload.toNat < dropped.len.toNat →
    s.cfg.sofValue ∉ junk → f.wf s.cfg = true → checksum s.cfg f = f.fcs →
    ∃ t, runInstrs (feed (dropped.header s.cfg ++ junk ++ serialise s.cfg f)) s = .next t ∧
      t.evq = s.evq ++ [.frameReceived f] ∧ t.parser.pstate = .awaitingSof ∧ t.arq = s.arq ∧
      t.out.txlog = s.out.txlog ∧ t.out.notelog = s.out.notelog

/-! ### The checksum -/

/-- R264: a frame is valid exactly when the exclusive-or of all its wire bytes is zero. -/
def Obligations.ValidExactlyWhenWireXorIsZero : Prop :=
  ∀ (c : Config) (f : Frame), checksum c f = f.fcs ↔ xorBytes (serialise c f) = 0x00#8

/-- R265 (a): one flipped bit of an address, the type, the sub-type, the sequence number, a payload byte or the checksum is detected. -/
def Obligations.SingleBitFlipsAreDetected : Prop :=
  ∀ (c : Config) (f : Frame) (n k : Nat), checksum c f = f.fcs → f.payload.length = f.len.toNat →
    (n < 32 → checksum c { f with dest := f.dest ^^^ BitVec.twoPow 32 n } ≠ f.fcs) ∧
    (n < 32 → checksum c { f with src := f.src ^^^ BitVec.twoPow 32 n } ≠ f.fcs) ∧
    (n < 8 → checksum c { f with type := f.type ^^^ BitVec.twoPow 8 n } ≠ f.fcs) ∧
    (n < 8 → checksum c { f with sub := f.sub ^^^ BitVec.twoPow 8 n } ≠ f.fcs) ∧
    (n < 8 → checksum c { f with seq := f.seq ^^^ BitVec.twoPow 8 n } ≠ f.fcs) ∧
    (n < 8 → k < f.payload.length →
      checksum c { f with payload := f.payload.modify k (fun b => b ^^^ BitVec.twoPow 8 n) } ≠ f.fcs) ∧
    (n < 8 → checksum c f ≠ f.fcs ^^^ BitVec.twoPow 8 n)

/-- R262, R88, R95, R82 (c): from a state of the invariant, what an instruction adds to `txlog` is at most one frame, of the wire
format, with its own checksum, a known type and a sub-type the block sends. -/
def Obligations.TransmittedFramesAreValid : Prop :=
  ∀ (i : Instr) (s t : State), s.Inv → exec i s = .next t →
    ∃ es, t.out.txlog = s.out.txlog ++ es ∧ es.length ≤ 1 ∧
      ∀ e ∈ es, ∃ f : Frame, f.wf s.cfg = true ∧ e.bytes = serialise s.cfg f ∧ f.fcs = checksum s.cfg f ∧
        ((f.type = s.cfg.typeReq ∧ f.sub = 0x00#8 ∧ f.src = s.cfg.localAddr) ∨
          (f.type = s.cfg.typeAck ∧ f.sub = 0x00#8 ∧ f.len = 0#8) ∨
          (f.type = s.cfg.typeNack ∧ f.sub = s.cfg.subNackCsum ∧ f.len = 0#8))

/-! ### The timers -/

/-- R142, R143: TICK takes `delta` from every entry that has more than `delta` left, removes the others, and posts the events of those
in list order, where the queue has room for them. -/
def Obligations.TickFiresExpiredTimersInOrder : Prop :=
  ∀ (delta : Word) (s : State), s.fatal = false →
    s.evq.length + (s.tmList.filter (fun e => decide (e.remaining.toNat ≤ delta.toNat))).length ≤ s.cfg.evqCap →
    exec (.tick delta) s = .next
      { s with
        tmList := s.tmList.filterMap
          (fun e => if e.remaining.toNat ≤ delta.toNat then none else some ⟨e.key, e.remaining - delta⟩)
        evq := s.evq ++ s.tmList.filterMap
          (fun e => if e.remaining.toNat ≤ delta.toNat then
              some (match e.key with | .sendTmo => .sendTimeout | .recvTmo => .frameReceiveTimeout)
            else none) }

/-- R142, R161, R12: where the queue has no room for every expiry, the events that fit are posted, the next post is fatal, and the new
`tm_list` stays as written. -/
def Obligations.TickOverflowIsFatal : Prop :=
  ∀ (delta : Word) (s : State), s.fatal = false → s.evq.length ≤ s.cfg.evqCap →
    s.cfg.evqCap < s.evq.length + (s.tmList.filter (fun e => decide (e.remaining.toNat ≤ delta.toNat))).length →
    ∃ posted, exec (.tick delta) s = .next
      { s with
        tmList := s.tmList.filterMap
          (fun e => if e.remaining.toNat ≤ delta.toNat then none else some ⟨e.key, e.remaining - delta⟩)
        evq := s.evq ++ posted
        fatal := true
        fatalCode := 0x04#8 } ∧
      (s.evq ++ posted).length = s.cfg.evqCap ∧
      posted <+: s.tmList.filterMap
        (fun e => if e.remaining.toNat ≤ delta.toNat then
            some (match e.key with | .sendTmo => .sendTimeout | .recvTmo => .frameReceiveTimeout)
          else none)

/-- R140, R141: setting a timer replaces its entry and puts it last, cancelling removes it, and both leave the other timer's entry as it
was, in its order. -/
def Obligations.TimerSetAndCancel : Prop :=
  ∀ (k : TimerKey) (n : Word) (s : State),
    timerSet k n s = { s with tmList := s.tmList.filter (fun e => decide (e.key ≠ k)) ++ [⟨k, n⟩] } ∧
    timerCancel k s = { s with tmList := s.tmList.filter (fun e => decide (e.key ≠ k)) } ∧
    armed k (timerSet k n s).tmList = true ∧ armed k (timerCancel k s).tmList = false ∧
    (armed k s.tmList = false → timerCancel k s = s) ∧
    (TimersInv s.tmList → n ≠ 0#32 → TimersInv (timerSet k n s).tmList ∧ TimersInv (timerCancel k s).tmList)

/-! ### The host's commands -/

/-- R280, R161: SEND_REQ posts its request, whatever its length and whatever the link and send states, and answers OK; into a full queue it
is fatal and gives no answer; a fatal block has no step. -/
def Obligations.SendReqPostsItsRequest : Prop :=
  ∀ (dest : Word) (len : Byte) (payload : List Byte) (s : State), payload.length = len.toNat →
    (s.fatal = true → exec (.sendReq dest len payload) s = .refused .fatalState) ∧
    (s.fatal = false → s.evq.length ≠ s.cfg.evqCap → exec (.sendReq dest len payload) s = .next
      { s with
        evq := s.evq ++ [.sendRequest dest len payload]
        out := { s.out with resplog := s.out.resplog ++ [⟨.ok, none⟩] } }) ∧
    (s.fatal = false → s.evq.length = s.cfg.evqCap → exec (.sendReq dest len payload) s = .next
      { s with fatal := true, fatalCode := 0x04#8 })

/-- R282, R53, R61: CFG_WR writes bits [7:0] of its value into MAX_RETRY and answers OK; of every other number it is rejected with ERR and
changes no state; a fatal block has no step. -/
def Obligations.CfgWrWritesOnlyMaxRetry : Prop :=
  ∀ (reg : Byte) (value : Word) (s : State),
    (s.fatal = true → exec (.cfgWr reg value) s = .refused .fatalState) ∧
    (s.fatal = false → exec (.cfgWr reg value) s = .next
      (if reg = 0x00#8 then
        { s with
          arq := { s.arq with maxRetry := value.extractLsb' 0 8 }
          out := { s.out with resplog := s.out.resplog ++ [⟨.ok, none⟩] } }
      else { s with out := { s.out with resplog := s.out.resplog ++ [⟨.err, none⟩] } }))

/-- R281, R78, R61, R55, R312: CFG_RD, always enabled, answers and changes nothing else: ERR for a reserved number and for SEQ in Init, and
otherwise OK with the register's value. A queue length that 32 bits do not hold is shown as a free value (DESIGN CHOICE, assumption
log 20). -/
def Obligations.CfgRdAnswersWithoutSideEffect : Prop :=
  ∀ (reg : Byte) (s : State), (s.arq.lstate = .handle → s.arq.sendSeq.isSome = true ∧ s.arq.recvSeq.isSome = true) →
    ∃ r : Response,
      exec (.cfgRd reg) s = .next { s with out := { s.out with resplog := s.out.resplog ++ [r] } } ∧
      (0x08 ≤ reg.toNat ∨ (reg = 0x02#8 ∧ s.arq.lstate = .init) → r = ⟨.err, none⟩) ∧
      (reg = 0x00#8 → r = ⟨.ok, some (s.arq.maxRetry.setWidth 32)⟩) ∧
      (reg = 0x01#8 → r = ⟨.ok, some (statusWord s)⟩) ∧
      (∀ a b, reg = 0x02#8 → s.arq.lstate = .handle → s.arq.sendSeq = some a → s.arq.recvSeq = some b →
        r = ⟨.ok, some (BitVec.ofNat 32 (b.toNat * 256 + a.toNat))⟩) ∧
      (reg = 0x03#8 → r = ⟨.ok, some (s.arq.retry.setWidth 32)⟩) ∧
      (reg = 0x04#8 → r = ⟨.ok, some s.cfg.localAddr⟩) ∧
      (reg = 0x05#8 → r = ⟨.ok, some (BitVec.ofNat 32 s.ring.count)⟩) ∧
      (reg = 0x06#8 → ∃ w, r = ⟨.ok, some w⟩ ∧ (s.evq.length < 2 ^ 32 → w = BitVec.ofNat 32 s.evq.length)) ∧
      (reg = 0x07#8 → r = ⟨.ok, some (timersWord s)⟩)

/-- R54, R35, R60: the fields of STATUS and of TIMERS. -/
def Obligations.StatusAndTimersShowTheirFields : Prop :=
  ∀ s : State,
    ((statusWord s).getLsbD 0 = true ↔ s.arq.lstate = .handle) ∧
    ((statusWord s).getLsbD 1 = true ↔ s.arq.sendState = .sending) ∧
    ((statusWord s).getLsbD 2 = true ↔ s.fatal = true) ∧
    (statusWord s).getLsbD 3 = false ∧
    (statusWord s).extractLsb' 4 4 = BitVec.ofNat 4
      (match s.parser.pstate with
      | .awaitingSof => 0 | .destAddr => 1 | .srcAddr => 2 | .type => 3 | .subType => 4
      | .seqNum => 5 | .len => 6 | .data => 7 | .fcs => 8) ∧
    (statusWord s).extractLsb' 8 8 = s.fatalCode ∧
    (statusWord s).extractLsb' 16 16 = 0#16 ∧
    ((timersWord s).getLsbD 0 = true ↔ ∃ e ∈ s.tmList, e.key = .sendTmo) ∧
    ((timersWord s).getLsbD 1 = true ↔ ∃ e ∈ s.tmList, e.key = .recvTmo) ∧
    (timersWord s).extractLsb' 2 30 = 0#30

/-! ### The ARQ engine -/

/-- R180, R181: LINK_INIT in Init takes two draws into the sequence numbers, sets Idle and the default ceiling, and moves to Handle; the
draws are the environment's where it has fixed them (the model's form of R14, assumption log 3), and may be any pair. In Handle, and while
fatal, it has no step. -/
def Obligations.LinkInitSetsUpTheEngine : Prop :=
  ∀ s : State,
    (s.fatal = true → exec .linkInit s = .refused .fatalState) ∧
    (s.fatal = false → s.arq.lstate = .handle → exec .linkInit s = .refused .notInInit) ∧
    (s.fatal = false → s.arq.lstate = .init → ∃ (a b : Byte) (e : Env),
      exec .linkInit s = .next
        { s with
          arq :=
            { s.arq with
              sendSeq := some a, recvSeq := some b, sendState := .idle
              maxRetry := s.cfg.maxRetryDefault, lstate := .handle }
          env := e } ∧
      e.script = s.env.script ∧ e.writeDraws = s.env.writeDraws ∧
      ∀ x y rest, s.env.seqDraws = x :: y :: rest → a = x ∧ b = y ∧ e = { s.env with seqDraws := rest })

/-- R182, R180: LINK_DISPATCH takes the oldest event and runs that event's handler on the state without it, which from a state of the
invariant answers a next state. Outside Handle, on an empty queue and while fatal it has no step. -/
def Obligations.LinkDispatchRunsTheOldestEvent : Prop :=
  ∀ s : State,
    (s.fatal = true → exec .linkDispatch s = .refused .fatalState) ∧
    (s.fatal = false → s.arq.lstate = .init → exec .linkDispatch s = .refused .notInHandle) ∧
    (s.fatal = false → s.arq.lstate = .handle → s.evq = [] → exec .linkDispatch s = .refused .queueEmpty) ∧
    (∀ ev rest, s.evq = ev :: rest → exec .linkDispatch s = exec (decodeEvent ev) { s with evq := rest }) ∧
    (s.Inv → s.fatal = false → s.arq.lstate = .handle → ∀ ev rest, s.evq = ev :: rest →
      ∃ t, exec .linkDispatch s = .next t ∧ t.evq = rest)

/-- R183, R185: a SendRequest while Sending is fatal before its length is looked at, and touches nothing else; while Idle, one of more than
`MAX_PAYLOAD` bytes increments `send_seq` and is fatal, with nothing built or sent. -/
def Obligations.RefusedSendRequestsAreFatal : Prop :=
  ∀ (dest : Word) (len : Byte) (payload : List Byte) (s : State), s.fatal = false → s.arq.lstate = .handle →
    (s.arq.sendState = .sending →
      exec (.evSendRequest dest len payload) s = .next { s with fatal := true, fatalCode := 0x01#8 }) ∧
    (∀ q, s.arq.sendState = .idle → s.arq.sendSeq = some q → s.cfg.maxPayload.toNat < len.toNat →
      exec (.evSendRequest dest len payload) s = .next
        { s with arq := { s.arq with sendSeq := some (q + 1#8) }, fatal := true, fatalCode := 0x02#8 })

/-- R184, R291: a SendRequest while Idle of at most `MAX_PAYLOAD` bytes builds the REQ in the send frame with the next sequence number and
its checksum, resets `retry`, sets Sending, transmits, and arms the send timeout, which a failed write leaves out. -/
def Obligations.SendRequestWhileIdleIsSent : Prop :=
  ∀ (dest : Word) (len q : Byte) (payload : List Byte) (s : State), s.fatal = false → s.arq.lstate = .handle →
    s.arq.sendState = .idle → s.arq.sendSeq = some q → payload.length = len.toNat → len.toNat ≤ s.cfg.maxPayload.toNat →
    ∃ (f : Frame) (m : Memory),
      f.dest = dest ∧ f.src = s.cfg.localAddr ∧ f.type = s.cfg.typeReq ∧ f.sub = 0x00#8 ∧ f.seq = q + 1#8 ∧ f.len = len ∧
      f.payload = payload ∧ f.fcs = checksum s.cfg f ∧
      (∀ k, m.read k = if k < len.toNat then payload[k]? else s.arq.tx.payload.read k) ∧
      exec (.evSendRequest dest len payload) s = .next
        (match (drawStatus s).1 with
        | .ok =>
          { s with
            arq :=
              { s.arq with
                sendSeq := some (q + 1#8), retry := 0#8, sendState := .sending
                tx := ⟨some f.dest, some f.src, some f.type, some f.sub, some f.seq, some f.len, some f.fcs, m⟩ }
            tmList := s.tmList.filter (fun e => decide (e.key ≠ .sendTmo)) ++ [⟨.sendTmo, s.cfg.tSend⟩]
            out := { s.out with txlog := s.out.txlog ++ [.sent (serialise s.cfg f)] }
            env := (drawStatus s).2.env }
        | .fail =>
          { s with
            arq :=
              { s.arq with
                sendSeq := some (q + 1#8), retry := 0#8, sendState := .sending
                tx := ⟨some f.dest, some f.src, some f.type, some f.sub, some f.seq, some f.len, some f.fcs, m⟩ }
            out := { s.out with txlog := s.out.txlog ++ [.failed (serialise s.cfg f)] }
            env := (drawStatus s).2.env
            fatal := true
            fatalCode := 0x03#8 })

/-- R186, R187, R188, R202: a SendTimeout while Sending retransmits the same frame, re-arms and counts the retry below the ceiling, and at
the ceiling abandons the send; while Idle it is ignored. -/
def Obligations.SendTimeoutRetriesOrAbandons : Prop :=
  ∀ s : State, s.fatal = false → s.arq.lstate = .handle →
    (s.arq.sendState = .idle → exec .evSendTimeout s = .next s) ∧
    (s.arq.sendState = .sending → s.arq.maxRetry.toNat ≤ s.arq.retry.toNat → exec .evSendTimeout s = .next
      { s with
        arq := { s.arq with sendState := .idle }
        out := { s.out with notelog := s.out.notelog ++ [.sendFail] } }) ∧
    (∀ f, s.arq.sendState = .sending → s.arq.retry.toNat < s.arq.maxRetry.toNat → txFrame s.cfg s.arq.tx = .ok f →
      exec .evSendTimeout s = .next
        (match (drawStatus s).1 with
        | .ok =>
          { s with
            arq := { s.arq with retry := s.arq.retry + 1#8 }
            tmList := s.tmList.filter (fun e => decide (e.key ≠ .sendTmo)) ++ [⟨.sendTmo, s.cfg.tSend⟩]
            out := { s.out with txlog := s.out.txlog ++ [.sent (serialise s.cfg f)] }
            env := (drawStatus s).2.env }
        | .fail =>
          { s with
            out := { s.out with txlog := s.out.txlog ++ [.failed (serialise s.cfg f)] }
            env := (drawStatus s).2.env
            fatal := true
            fatalCode := 0x03#8 }))

/-- R189, R198, R204: a received REQ, in any send state, writes `recv_seq`, is acknowledged to its sender with its own sequence number, and
is delivered; a failed write of the ACK is fatal and leaves the delivery out. -/
def Obligations.ReceivedReqIsAcknowledgedAndDelivered : Prop :=
  ∀ (f : Frame) (s : State), s.fatal = false → s.arq.lstate = .handle → f.payload.length = f.len.toNat →
    ∃ r : Frame,
      r.dest = f.src ∧ r.src = f.dest ∧ r.type = s.cfg.typeAck ∧ r.sub = 0x00#8 ∧ r.seq = f.seq ∧ r.len = 0#8 ∧
      r.payload = [] ∧ r.fcs = checksum s.cfg r ∧
      exec (.frameReq f) s = .next
        (match (drawStatus s).1 with
        | .ok =>
          { s with
            arq := { s.arq with recvSeq := some f.seq }
            out :=
              { s.out with
                txlog := s.out.txlog ++ [.sent (serialise s.cfg r)]
                notelog := s.out.notelog ++ [.deliver f.len f.payload] }
            env := (drawStatus s).2.env }
        | .fail =>
          { s with
            arq := { s.arq with recvSeq := some f.seq }
            out := { s.out with txlog := s.out.txlog ++ [.failed (serialise s.cfg r)] }
            env := (drawStatus s).2.env
            fatal := true
            fatalCode := 0x03#8 })

/-- R190, R193: a received ACK that matches the outstanding send ends it with SEND_OK and cancels the send timeout; any other ACK is
ignored. Only its sequence number is looked at. -/
def Obligations.ReceivedAckCompletesOrIsIgnored : Prop :=
  ∀ (f : Frame) (q : Byte) (s : State), s.fatal = false → s.arq.lstate = .handle → s.arq.sendSeq = some q →
    exec (.frameAck f) s = .next
      (if s.arq.sendState = .sending ∧ f.seq = q then
        { s with
          tmList := s.tmList.filter (fun e => decide (e.key ≠ .sendTmo))
          arq := { s.arq with sendState := .idle }
          out := { s.out with notelog := s.out.notelog ++ [.sendOk] } }
      else s)

/-- R191, R192, R194, R202: a received NACK that matches the outstanding send cancels the send timeout and then, below the ceiling,
retransmits, re-arms and counts the retry, and at the ceiling abandons the send; any other NACK is ignored. -/
def Obligations.ReceivedNackRetriesAbandonsOrIsIgnored : Prop :=
  ∀ (f g : Frame) (q : Byte) (s : State), s.fatal = false → s.arq.lstate = .handle → s.arq.sendSeq = some q →
    (s.arq.sendState = .idle ∨ f.seq ≠ q → exec (.frameNack f) s = .next s) ∧
    (s.arq.sendState = .sending → f.seq = q → s.arq.maxRetry.toNat ≤ s.arq.retry.toNat →
      exec (.frameNack f) s = .next
        { s with
          tmList := s.tmList.filter (fun e => decide (e.key ≠ .sendTmo))
          arq := { s.arq with sendState := .idle }
          out := { s.out with notelog := s.out.notelog ++ [.sendFail] } }) ∧
    (s.arq.sendState = .sending → f.seq = q → s.arq.retry.toNat < s.arq.maxRetry.toNat →
      txFrame s.cfg s.arq.tx = .ok g →
      exec (.frameNack f) s = .next
        (match (drawStatus s).1 with
        | .ok =>
          { s with
            arq := { s.arq with retry := s.arq.retry + 1#8 }
            tmList := s.tmList.filter (fun e => decide (e.key ≠ .sendTmo)) ++ [⟨.sendTmo, s.cfg.tSend⟩]
            out := { s.out with txlog := s.out.txlog ++ [.sent (serialise s.cfg g)] }
            env := (drawStatus s).2.env }
        | .fail =>
          { s with
            tmList := s.tmList.filter (fun e => decide (e.key ≠ .sendTmo))
            out := { s.out with txlog := s.out.txlog ++ [.failed (serialise s.cfg g)] }
            env := (drawStatus s).2.env
            fatal := true
            fatalCode := 0x03#8 }))

/-- R195: a received frame of any other type changes nothing. -/
def Obligations.ReceivedOtherFrameIsIgnored : Prop :=
  ∀ (f : Frame) (s : State), s.fatal = false → s.arq.lstate = .handle →
    exec (.frameOther f) s = .next s ∧
      (s.cfg.valid = true → f.type ≠ s.cfg.typeReq → f.type ≠ s.cfg.typeAck → f.type ≠ s.cfg.typeNack →
        exec (.evFrameReceived f) s = .next s)

/-- R196, R198, R204: a checksum error, in any send state, is answered with one NACK to the frame's sender, with the received sequence
number, and nothing else changes; a failed write is fatal. -/
def Obligations.ChecksumErrorIsNacked : Prop :=
  ∀ (f : Frame) (s : State), s.fatal = false → s.arq.lstate = .handle →
    ∃ r : Frame,
      r.dest = f.src ∧ r.src = f.dest ∧ r.type = s.cfg.typeNack ∧ r.sub = s.cfg.subNackCsum ∧ r.seq = f.seq ∧ r.len = 0#8 ∧
      r.payload = [] ∧ r.fcs = checksum s.cfg r ∧
      exec (.evFrameChecksumError f) s = .next
        (match (drawStatus s).1 with
        | .ok =>
          { s with
            out := { s.out with txlog := s.out.txlog ++ [.sent (serialise s.cfg r)] }
            env := (drawStatus s).2.env }
        | .fail =>
          { s with
            out := { s.out with txlog := s.out.txlog ++ [.failed (serialise s.cfg r)] }
            env := (drawStatus s).2.env
            fatal := true
            fatalCode := 0x03#8 })

/-- R197, R231: a FrameReceiveTimeout returns the parser to AwaitingSOF; the scratch frame and the timers stay. -/
def Obligations.ReceiveTimeoutResetsTheParser : Prop :=
  ∀ s : State, s.fatal = false → s.arq.lstate = .handle →
    exec .evFrameReceiveTimeout s = .next { s with parser := { s.parser with pstate := .awaitingSof, pidx := 0#8 } }

/-- R201, R186, R187, in one schedule, rounds of TICK `T_SEND` and LINK_DISPATCH: with no answer and no failed write, a send that has been
transmitted once and retried `retry` times is retransmitted exactly `max_retry - retry` more times, one send timeout apart, and then
SEND_FAIL is posted once. That the writes go through is said by the draws the environment has fixed, `env.writeDraws` (DESIGN CHOICE,
assumption log 3). What holds in every schedule (R81) is RetransmissionsAreCounted. -/
def Obligations.UnansweredSendEndsAfterItsRetries : Prop :=
  ∀ (s : State) (f : Frame) (n : Nat) (ds : List WriteStatus), s.Inv → s.fatal = false → s.arq.lstate = .handle →
    s.arq.sendState = .sending → txFrame s.cfg s.arq.tx = .ok f → s.evq = [] → s.tmList = [⟨.sendTmo, s.cfg.tSend⟩] →
    s.arq.retry.toNat + n = s.arq.maxRetry.toNat → s.env.writeDraws = List.replicate n .ok ++ ds →
    ∃ t, runInstrs (timeoutRounds s.cfg (n + 1)) s = .next t ∧
      t.out.txlog = s.out.txlog ++ List.replicate n (.sent (serialise s.cfg f)) ∧
      t.out.notelog = s.out.notelog ++ [.sendFail] ∧
      t.arq = { s.arq with retry := s.arq.maxRetry, sendState := .idle } ∧
      t.tmList = [] ∧ t.evq = [] ∧ t.fatal = false ∧ t.env = { s.env with writeDraws := ds }

/-! ### Whole-machine rules -/

/-- R312, R313, R323: while fatal only CFG_RD, RESET and the rejection of reserved opcodes are enabled, and until RESET the flag and the code
stay. -/
def Obligations.FatalIsQuiescentUntilReset : Prop :=
  ∀ (i : Instr) (s : State), s.fatal = true →
    ((∀ reg, i ≠ .cfgRd reg) → (∀ op, i ≠ .reserved op) → i ≠ .reset → exec i s = .refused .fatalState) ∧
    (∀ t, exec i s = .next t → i ≠ .reset →
      t = { s with out := { s.out with resplog := t.out.resplog } }) ∧
    (∃ t, exec .reset s = .next t ∧ t.fatal = false ∧ t.fatalCode = 0x00#8)

/-- R311, R183, R185, R291, R161: the ways into the fatal state, each with its code: a SendRequest handled while Sending; one of more than
`MAX_PAYLOAD` bytes handled while Idle, with `send_seq` incremented; a transport write that fails, logged as FAILED; and a post into a
full queue, by PARSE_STEP in FCS, TICK or SEND_REQ. The write's status is the draw of assumption log 3, and the `EV_` rows run the same
handlers as LINK_DISPATCH (assumption log 7). -/
def Obligations.FatalHasOnlyItsFourCauses : Prop :=
  ∀ (i : Instr) (s t : State), s.Inv → s.fatal = false → exec i s = .next t → t.fatal = true →
    (t.fatalCode = 0x01#8 ∧ s.arq.sendState = .sending ∧
      (∃ dest len payload, RunsHandler (.sendRequest dest len payload) i s) ∧ t.arq = s.arq ∧ t.out = s.out) ∨
    (t.fatalCode = 0x02#8 ∧ s.arq.sendState = .idle ∧
      (∃ dest len payload, RunsHandler (.sendRequest dest len payload) i s ∧ s.cfg.maxPayload.toNat < len.toNat) ∧
      (∃ q, s.arq.sendSeq = some q ∧ t.arq = { s.arq with sendSeq := some (q + 1#8) }) ∧ t.out = s.out) ∨
    (t.fatalCode = 0x03#8 ∧ i.ofLink = true ∧ (drawStatus s).1 = .fail ∧
      ∃ w, t.out = { s.out with txlog := s.out.txlog ++ [.failed w] }) ∨
    (t.fatalCode = 0x04#8 ∧ t.evq.length = s.cfg.evqCap ∧ t.out = s.out ∧
      ((i = .parseStep ∧ s.parser.pstate = .fcs) ∨ (∃ delta, i = .tick delta) ∨
        ∃ dest len payload, i = .sendReq dest len payload))

/-- R88: only the LINK agent transmits, and one instruction transmits at most one frame. -/
def Obligations.OnlyLinkTransmits : Prop :=
  ∀ (i : Instr) (s t : State), exec i s = .next t →
    ∃ es, t.out.txlog = s.out.txlog ++ es ∧ es.length ≤ 1 ∧ (es ≠ [] → i.ofLink = true ∧ i ≠ .linkInit)

/-- R163, R82 (b), R162: the queue is FIFO. Only LINK_DISPATCH takes from it, one event from its front; every other instruction but RESET
only appends. -/
def Obligations.EventQueueIsFifo : Prop :=
  ∀ (i : Instr) (s t : State), exec i s = .next t → i ≠ .reset →
    (i = .linkDispatch → ∃ ev, s.evq = ev :: t.evq) ∧ (i ≠ .linkDispatch → ∃ posted, t.evq = s.evq ++ posted)

/-- R87, R340: which agents write which shared elements. RESET writes them all. -/
def Obligations.SharedElementsHaveTheirWriters : Prop :=
  ∀ (i : Instr) (s t : State), exec i s = .next t → i ≠ .reset →
    (t.parser ≠ s.parser → i = .parseStep ∨ i = .linkDispatch ∨ i = .evFrameReceiveTimeout) ∧
    (t.tmList ≠ s.tmList → i = .parseStep ∨ i.ofLink = true ∨ ∃ delta, i = .tick delta) ∧
    (t.evq ≠ s.evq → i = .parseStep ∨ i = .linkDispatch ∨ (∃ delta, i = .tick delta) ∨
      ∃ dest len payload, i = .sendReq dest len payload) ∧
    (t.ring ≠ s.ring → i = .parseStep ∨ ∃ b, i = .rxPut b) ∧
    (t.arq.maxRetry ≠ s.arq.maxRetry → i = .linkInit ∨ ∃ reg value, i = .cfgWr reg value) ∧
    ({ t.arq with maxRetry := s.arq.maxRetry } ≠ s.arq → i.ofLink = true)

/-- R295, R125, R49, R340: no step, RESET among them, changes a parameter or takes anything out of the environment's three records. -/
def Obligations.ParametersStayAndRecordsOnlyGrow : Prop :=
  ∀ s t : State, step s = .next t →
    t.cfg = s.cfg ∧
      s.out.txlog <+: t.out.txlog ∧ s.out.notelog <+: t.out.notelog ∧ s.out.resplog <+: t.out.resplog

/-- R41, R180, R182: LINK_INIT alone leads from Init to Handle, and only RESET leads back. -/
def Obligations.HandleIsLeftOnlyByReset : Prop :=
  ∀ (i : Instr) (s t : State), exec i s = .next t → i ≠ .reset →
    (s.arq.lstate = .handle → t.arq.lstate = .handle) ∧
    (s.arq.lstate = .init → t.arq.lstate = .handle → i = .linkInit)

/-- R203, R202: but for RESET, an outstanding send ends only with SEND_OK or SEND_FAIL, posted in the same step. -/
def Obligations.SendEndsOnlyWithANotification : Prop :=
  ∀ (i : Instr) (s t : State), s.Inv → exec i s = .next t → i ≠ .reset → s.arq.sendState = .sending → t.arq.sendState = .idle →
    i.ofLink = true ∧
      (t.out.notelog = s.out.notelog ++ [.sendOk] ∨ t.out.notelog = s.out.notelog ++ [.sendFail])

/-- R63, R39, R40, R48: every step keeps the invariant; and it keeps clause (c) of R63 too, but for the dispatch of a SendTimeout while
Sending at the ceiling with SEND_TMO armed, where R187 and R202 do not (assumption log 13). -/
def Obligations.EveryStepKeepsTheInvariant : Prop :=
  ∀ s t : State, s.Inv → step s = .next t →
    t.Inv ∧ (IdleHasNoSendTimer s → IdleHasNoSendTimer t ∨
      (s.evq.head? = some .sendTimeout ∧ s.arq.sendState = .sending ∧ s.arq.maxRetry.toNat ≤ s.arq.retry.toNat ∧
        armed .sendTmo s.tmList = true))

/-- R64, R71: from a state of the invariant no step reads an unwritten element or uses an index out of range. -/
def Obligations.InvariantStatesNeverFault : Prop :=
  ∀ (s : State) (r : Fault), s.Inv → step s ≠ .fault r

/-- R7, R180, R230, R312, R165: from a state of the invariant a well-formed instruction has a next state where it is enabled, and has no step,
which the model refuses by name, where it is not. `Enabled` is the spec's but in two places: that a reserved opcode is answered while
fatal too is assumption log 10 (DEDUCED; R312 does not say so), and that an `EV_` or `FRAME_` row is enabled when alive and in Handle
is assumption log 7 (DEDUCED). -/
def Obligations.EnabledInstructionsComplete : Prop :=
  ∀ (i : Instr) (s : State), s.Inv → i.wf s.cfg = true →
    (Enabled i s → ∃ t, exec i s = .next t) ∧
    (¬ Enabled i s → ∃ r, exec i s = .refused r ∧ (s.fatal = true → r = .fatalState) ∧
      (s.fatal = false → i = .parseStep → r = .ringEmpty))

/-- R63 (c) and R187: the model follows R187 and R202, which leave an armed send timer behind when a stale SendTimeout (R352) at the ceiling
abandons a newer send (DEDUCED, assumption log 13). From every state of the invariant in which that can happen LINK_DISPATCH answers a
state that is Idle with SEND_TMO armed; and every other instruction keeps clause (c). -/
def Obligations.StaleTimeoutBreaksIdleTimerClause : Prop :=
  (∀ (s : State) (rest : List Event), s.Inv → s.fatal = false → s.arq.lstate = .handle → s.arq.sendState = .sending →
    s.arq.maxRetry.toNat ≤ s.arq.retry.toNat → armed .sendTmo s.tmList = true → s.evq = .sendTimeout :: rest →
    ∃ t, exec .linkDispatch s = .next t ∧ t.Inv ∧ ¬ IdleHasNoSendTimer t ∧
      t = { s with
        evq := rest
        arq := { s.arq with sendState := .idle }
        out := { s.out with notelog := s.out.notelog ++ [.sendFail] } }) ∧
  (∀ (i : Instr) (s t : State), s.Inv → IdleHasNoSendTimer s → exec i s = .next t →
    IdleHasNoSendTimer t ∨
      (RunsHandler .sendTimeout i s ∧ s.arq.sendState = .sending ∧ s.arq.maxRetry.toNat ≤ s.arq.retry.toNat ∧
        armed .sendTmo s.tmList = true))

/-- R201, R186, R191, R204, R81: in every schedule, while a send is outstanding its frame stays in the send frame, and each instruction but
RESET either leaves `retry` as it is and does not send that frame, or sends it once, below the ceiling, counts it, and arms the send
timeout again. -/
def Obligations.RetransmissionsAreCounted : Prop :=
  ∀ (i : Instr) (s t : State) (f : Frame), s.Inv → s.arq.sendState = .sending → txFrame s.cfg s.arq.tx = .ok f → i ≠ .reset →
    exec i s = .next t →
    t.arq.tx = s.arq.tx ∧ t.arq.sendSeq = s.arq.sendSeq ∧
    ∃ es, t.out.txlog = s.out.txlog ++ es ∧
      ((TxEntry.sent (serialise s.cfg f) ∉ es ∧ t.arq.retry = s.arq.retry) ∨
        (es = [.sent (serialise s.cfg f)] ∧ s.arq.retry.toNat < s.arq.maxRetry.toNat ∧
          t.arq.retry.toNat = s.arq.retry.toNat + 1 ∧ t.arq.maxRetry = s.arq.maxRetry ∧ t.arq.sendState = .sending ∧
          ⟨.sendTmo, s.cfg.tSend⟩ ∈ t.tmList))
end

