-- ==== Sys2Proof/Laws/Codec.lean ====
section
/-! SUPPORT. Byte order, the lengths of encodings, and how the exclusive-or of bytes splits. -/

namespace Sys2Proof

/-- The bits of a word assembled from bytes: `b3` is bits [7:0] (R72). -/
theorem wordOfBytes_getLsbD (b0 b1 b2 b3 : Byte) (i : Nat) : (wordOfBytes b0 b1 b2 b3).getLsbD i =
    if i < 8 then b3.getLsbD i else if i < 16 then b2.getLsbD (i - 8) else if i < 24 then b1.getLsbD (i - 16)
    else b0.getLsbD (i - 24) := by
  have h : (wordOfBytes b0 b1 b2 b3).getLsbD i = (b0 ++ b1 ++ b2 ++ b3 : BitVec (8 + 8 + 8 + 8)).getLsbD i := rfl
  rw [h]
  simp only [BitVec.getLsbD_append, Nat.sub_sub]
  by_cases h1 : i < 8
  · simp [h1]
  · by_cases h2 : i < 16
    · simp [h1, h2, show i - 8 < 8 by omega]
    · by_cases h3 : i < 24
      · simp [h1, h2, h3, show ¬ i - 8 < 8 by omega, show i - 16 < 8 by omega]
      · simp [h1, h2, h3, show ¬ i - 8 < 8 by omega, show ¬ i - 16 < 8 by omega]

/-- The bytes of an assembled word are the bytes it was assembled from. -/
@[simp] theorem wordBytes_wordOfBytes (b0 b1 b2 b3 : Byte) : wordBytes (wordOfBytes b0 b1 b2 b3) = [b0, b1, b2, b3] := by
  simp only [wordBytes, wordByte, List.cons.injEq, and_true]
  refine ⟨?_, ?_, ?_, ?_⟩ <;>
  · apply BitVec.eq_of_getLsbD_eq
    intro i hi
    simp only [BitVec.getLsbD_extractLsb', hi, decide_true, Bool.true_and, wordOfBytes_getLsbD]
    first
      | rw [if_neg (by omega), if_neg (by omega), if_neg (by omega)]; congr 1; omega
      | rw [if_neg (by omega), if_neg (by omega), if_pos (by omega)]; congr 1; omega
      | rw [if_neg (by omega), if_pos (by omega)]; congr 1; omega
      | rw [if_pos (by omega)]; congr 1; omega

/-- A word assembled from its own bytes is the word. -/
@[simp] theorem wordOfBytes_wordByte (w : Word) : wordOfBytes (wordByte w 0) (wordByte w 1) (wordByte w 2) (wordByte w 3) = w := by
  apply BitVec.eq_of_getLsbD_eq
  intro i hi
  simp only [wordOfBytes_getLsbD, wordByte, BitVec.getLsbD_extractLsb']
  split
  · simp [*]
  · split
    · rw [decide_eq_true (by omega), Bool.true_and]; congr 1; omega
    · split
      · rw [decide_eq_true (by omega), Bool.true_and]; congr 1; omega
      · rw [decide_eq_true (by omega), Bool.true_and]; congr 1; omega

/-- The value of an assembled word. -/
theorem wordOfBytes_toNat (b0 b1 b2 b3 : Byte) :
    (wordOfBytes b0 b1 b2 b3).toNat = b0.toNat * 2 ^ 24 + b1.toNat * 2 ^ 16 + b2.toNat * 2 ^ 8 + b3.toNat := by
  have h : (wordOfBytes b0 b1 b2 b3).toNat = (b0 ++ b1 ++ b2 ++ b3 : BitVec (8 + 8 + 8 + 8)).toNat := rfl
  rw [h]
  have e : ∀ x y : Nat, y < 2 ^ 8 → x <<< 8 ||| y = x * 2 ^ 8 + y := fun x y hy => by
    rw [← Nat.shiftLeft_add_eq_or_of_lt hy, Nat.shiftLeft_eq]
  rw [BitVec.toNat_append, e _ _ b3.isLt, BitVec.toNat_append, e _ _ b2.isLt, BitVec.toNat_append, e _ _ b1.isLt]
  omega

@[simp] theorem wordBytes_length (w : Word) : (wordBytes w).length = 4 := rfl

@[simp] theorem Frame.header_length (c : Config) (f : Frame) : (f.header c).length = 13 := rfl

/-- The payload of a well-formed frame is its body (R92). -/
theorem Frame.body_eq {c : Config} {f : Frame} (h : f.wf c = true) : f.body = f.payload := by
  simp only [Frame.wf, payloadFits, Bool.and_eq_true, beq_iff_eq] at h
  rw [Frame.body, ← h.1, List.take_length]

/-- A well-formed frame has `14 + len` wire bytes (R90, R93). -/
theorem serialise_length {c : Config} {f : Frame} (h : f.wf c = true) : (serialise c f).length = 14 + f.len.toNat := by
  have hb := Frame.body_eq h
  simp only [Frame.wf, payloadFits, Bool.and_eq_true, beq_iff_eq] at h
  simp only [serialise, hb, List.length_append, Frame.header_length, List.length_cons, List.length_nil]
  omega

/-- The checksum of a frame looks at neither its checksum field nor the payload past `len` (R260). -/
theorem Machine.checksum_congr {c : Config} {f g : Frame} (hh : f.header c = g.header c) (hb : f.body = g.body) :
    Machine.checksum c f = Machine.checksum c g := by
  simp [Machine.checksum, hh, hb]

/-- A frame with its checksum computed carries it (R262). -/
@[simp] theorem Machine.withFcs_fcs (c : Config) (f : Frame) :
    (Machine.withFcs c f).fcs = Machine.checksum c (Machine.withFcs c f) := rfl

theorem Machine.foldl_xor (l : List Byte) (a : Byte) : l.foldl (fun x b => x ^^^ b) a = a ^^^ Machine.xorBytes l := by
  induction l generalizing a with
  | nil => simp [Machine.xorBytes]
  | cons b l ih =>
    have e : Machine.xorBytes (b :: l) = b ^^^ Machine.xorBytes l := by
      rw [Machine.xorBytes, List.foldl_cons, BitVec.zero_xor]
      exact ih b
    rw [List.foldl_cons, ih, e, BitVec.xor_assoc]

/-- The exclusive-or of two runs of bytes is the exclusive-or of theirs (R263). -/
theorem Machine.xorBytes_append (l m : List Byte) :
    Machine.xorBytes (l ++ m) = Machine.xorBytes l ^^^ Machine.xorBytes m := by
  rw [Machine.xorBytes, List.foldl_append, Machine.foldl_xor, ← Machine.xorBytes]

@[simp] theorem Machine.xorBytes_nil : Machine.xorBytes [] = 0x00#8 := rfl

@[simp] theorem Machine.xorBytes_cons (b : Byte) (l : List Byte) : Machine.xorBytes (b :: l) = b ^^^ Machine.xorBytes l := by
  rw [Machine.xorBytes, List.foldl_cons, Machine.foldl_xor, BitVec.zero_xor]

end Sys2Proof
end

