-- ==== Sys2Proof/Laws/Flags.lean ====
section
/-! SUPPORT. The status words bit by bit (10_state.md R54, R60). -/

namespace Sys2Proof.Machine

/-- The bits of STATUS (R54). -/
theorem statusWord_getLsbD (s : State) (i : Nat) :
    (statusWord s).getLsbD i =
      if i < 1 then s.arq.lstate.code.getLsbD i
      else if i < 2 then s.arq.sendState.code.getLsbD (i - 1)
      else if i < 3 then (flagBit s.fatal).getLsbD (i - 2)
      else if i < 4 then false
      else if i < 8 then s.parser.pstate.code.getLsbD (i - 4)
      else if i < 16 then s.fatalCode.getLsbD (i - 8)
      else false := by
  have h : (statusWord s).getLsbD i =
      (0#16 ++ s.fatalCode ++ s.parser.pstate.code ++ 0#1 ++ flagBit s.fatal ++ s.arq.sendState.code ++
        s.arq.lstate.code : BitVec (16 + 8 + 4 + 1 + 1 + 1 + 1)).getLsbD i := rfl
  rw [h]
  simp only [BitVec.getLsbD_append, Nat.sub_sub]
  by_cases h1 : i < 1
  · simp [h1]
  by_cases h2 : i < 2
  · simp [h1, h2, show i - 1 < 1 by omega]
  by_cases h3 : i < 3
  · simp [h1, h2, h3, show ¬ i - 1 < 1 by omega, show i - 2 < 1 by omega]
  by_cases h4 : i < 4
  · simp [h1, h2, h3, h4, show ¬ i - 1 < 1 by omega, show ¬ i - 2 < 1 by omega, show i - 3 < 1 by omega]
  by_cases h5 : i < 8
  · simp [h1, h2, h3, h4, h5,
      show ¬ i - 1 < 1 by omega, show ¬ i - 2 < 1 by omega,
      show ¬ i - 3 < 1 by omega, show i - 4 < 4 by omega]
  by_cases h6 : i < 16
  · simp [h1, h2, h3, h4, h5, h6,
      show ¬ i - 1 < 1 by omega, show ¬ i - 2 < 1 by omega,
      show ¬ i - 3 < 1 by omega, show ¬ i - 4 < 4 by omega, show i - 8 < 8 by omega]
  · simp [h1, h2, h3, h4, h5, h6,
      show ¬ i - 1 < 1 by omega, show ¬ i - 2 < 1 by omega,
      show ¬ i - 3 < 1 by omega, show ¬ i - 4 < 4 by omega, show ¬ i - 8 < 8 by omega]

/-- The bits of TIMERS (R60). -/
theorem timersWord_getLsbD (s : State) (i : Nat) :
    (timersWord s).getLsbD i =
      if i < 1 then (flagBit (armed .sendTmo s.tmList)).getLsbD i
      else if i < 2 then (flagBit (armed .recvTmo s.tmList)).getLsbD (i - 1)
      else false := by
  have h : (timersWord s).getLsbD i =
      (0#30 ++ flagBit (armed .recvTmo s.tmList) ++ flagBit (armed .sendTmo s.tmList) : BitVec (30 + 1 + 1)).getLsbD i := rfl
  rw [h]
  simp only [BitVec.getLsbD_append, Nat.sub_sub]
  by_cases h1 : i < 1
  · simp [h1]
  by_cases h2 : i < 2
  · simp [h1, h2, show i - 1 < 1 by omega]
  · simp [h1, h2, show ¬ i - 1 < 1 by omega]

/-- A timer is armed exactly where an entry has its key (R39). -/
theorem armed_iff {k : TimerKey} {l : List TimerEntry} : armed k l = true ↔ ∃ e ∈ l, e.key = k := by
  simp [armed]

end Sys2Proof.Machine
end

