-- ==== Sys2Proof/Laws/Memory.lean ====
section
/-! SUPPORT. The laws of byte arrays: a read after a write, and that writes keep the canonical form and the bound of the array. -/

namespace Sys2Proof.Machine

@[simp] theorem Memory.read_write_same (m : Memory) (i : Nat) (b : Byte) : (m.write i b).read i = some b := by
  induction m with
  | nil => simp [Memory.write, Memory.read]
  | cons c m ih =>
    obtain ⟨j, x⟩ := c
    simp only [Memory.write]
    split
    · simp [Memory.read]
    · split
      · simp [Memory.read]
      · next h => simp [Memory.read, h, ih]

theorem Memory.read_write_other (m : Memory) {i k : Nat} (b : Byte) (h : k ≠ i) : (m.write i b).read k = m.read k := by
  induction m with
  | nil => simp [Memory.write, Memory.read, h]
  | cons c m ih =>
    obtain ⟨j, x⟩ := c
    simp only [Memory.write]
    split
    · simp [Memory.read, h]
    · split
      · next e => subst e; simp [Memory.read, h]
      · simp [Memory.read, ih]

theorem Memory.read_write (m : Memory) (i k : Nat) (b : Byte) :
    (m.write i b).read k = if k = i then some b else m.read k := by
  split
  · next h => subst h; simp
  · next h => exact Memory.read_write_other m b h

theorem Memory.mem_write {m : Memory} {i : Nat} {b : Byte} {c : Host.Cell} (h : c ∈ m.write i b) : c = (i, b) ∨ c ∈ m := by
  induction m with
  | nil => simpa [Memory.write] using h
  | cons d m ih =>
    obtain ⟨j, x⟩ := d
    simp only [Memory.write] at h
    split at h
    · simpa using h
    · split at h
      · rcases List.mem_cons.mp h with h | h <;> simp [h]
      · rcases List.mem_cons.mp h with h | h
        · simp [h]
        · rcases ih h with h | h <;> simp [h]

/-- Every write keeps the canonical form. -/
theorem Memory.write_wf {m : Memory} (h : m.wf = true) (i : Nat) (b : Byte) : (m.write i b).wf = true := by
  induction m with
  | nil => simp [Memory.write, Memory.wf]
  | cons d m ih =>
    obtain ⟨j, x⟩ := d
    simp only [Memory.wf, Bool.and_eq_true, List.all_eq_true, decide_eq_true_eq] at h
    simp only [Memory.write]
    split
    · next lt =>
      simp only [Memory.wf, Bool.and_eq_true, List.all_eq_true, decide_eq_true_eq, List.mem_cons, forall_eq_or_imp]
      exact ⟨⟨lt, fun c hc => Nat.lt_trans lt (h.1 c hc)⟩, h⟩
    · next nlt =>
      split
      · next e => subst e; simpa [Memory.wf] using h
      · next ne =>
        simp only [Memory.wf, Bool.and_eq_true, List.all_eq_true, decide_eq_true_eq]
        refine ⟨fun c hc => ?_, ih h.2⟩
        rcases Memory.mem_write hc with rfl | hc
        · simp only; omega
        · exact h.1 c hc

/-- A write inside the array keeps every listed index inside it. -/
theorem Memory.write_below {cap : Nat} {m : Memory} (h : m.below cap = true) {i : Nat} (hi : i < cap) (b : Byte) :
    (m.write i b).below cap = true := by
  simp only [Memory.below, List.all_eq_true, decide_eq_true_eq] at *
  intro c hc
  rcases Memory.mem_write hc with rfl | hc
  · exact hi
  · exact h c hc

/-- What an array write can answer. -/
theorem arrayWrite_eq_ok {cap : Nat} {m m' : Memory} {i : Nat} {b : Byte} (h : arrayWrite cap m i b = .ok m') :
    i < cap ∧ m' = m.write i b := by
  unfold arrayWrite at h
  split at h
  · next hi => exact ⟨hi, (Except.ok.inj h).symm⟩
  · cases h

/-- What a read of an element can answer: its value, where it is written (R64). -/
theorem written_eq_ok {α : Type} {o : Option α} {a : α} (h : written o = .ok a) : o = some a := by
  cases o <;> simp_all [written]

@[simp] theorem written_some {α : Type} (a : α) : written (some a) = .ok a := rfl

/-- What an array read can answer. -/
theorem arrayRead_eq_ok {cap : Nat} {m : Memory} {i : Nat} {b : Byte} (h : arrayRead cap m i = .ok b) :
    i < cap ∧ m.read i = some b := by
  unfold arrayRead at h
  split at h
  · next hi => exact ⟨hi, written_eq_ok h⟩
  · cases h

theorem arrayRead_ok {cap : Nat} {m : Memory} {i : Nat} {b : Byte} (hi : i < cap) (h : m.read i = some b) :
    arrayRead cap m i = .ok b := by
  simp [arrayRead, hi, h]

theorem arrayWrite_ok {cap : Nat} {m : Memory} {i : Nat} {b : Byte} (hi : i < cap) :
    arrayWrite cap m i b = .ok (m.write i b) := by
  simp [arrayWrite, hi]

/-- What a range read can answer: exactly `n` bytes, each the written element of its index. -/
theorem arrayRange_eq_ok {cap : Nat} {m : Memory} {n i : Nat} {bs : List Byte} (h : arrayRange cap m i n = .ok bs) :
    bs.length = n ∧ (0 < n → i + n ≤ cap) ∧ ∀ k, k < n → m.read (i + k) = bs[k]? := by
  induction n generalizing i bs with
  | zero => simp only [arrayRange, Except.ok.injEq] at h; subst h; simp
  | succ n ih =>
    simp only [arrayRange] at h
    split at h
    · cases h
    · next b hb =>
      split at h
      · cases h
      · next bs' hr =>
        cases h
        obtain ⟨hl, hb', hk⟩ := ih hr
        obtain ⟨hi, hv⟩ := arrayRead_eq_ok hb
        refine ⟨by simp [hl], fun _ => ?_, ?_⟩
        · rcases Nat.eq_zero_or_pos n with rfl | hn
          · omega
          · have := hb' hn; omega
        · rintro (_ | k) hlt
          · simpa using hv
          · have := hk k (by omega)
            simpa [Nat.add_assoc, Nat.add_comm 1 k] using this

/-- A range of written elements inside the array can be read. -/
theorem arrayRange_ok {cap : Nat} {m : Memory} {n i : Nat} (hc : i + n ≤ cap)
    (hw : ∀ k, k < n → (m.read (i + k)).isSome = true) : ∃ bs, arrayRange cap m i n = .ok bs := by
  induction n generalizing i with
  | zero => exact ⟨[], rfl⟩
  | succ n ih =>
    obtain ⟨b, hb⟩ := Option.isSome_iff_exists.mp (hw 0 (by omega))
    have hr := arrayRead_ok (show i < cap by omega) (by simpa using hb)
    obtain ⟨bs, hbs⟩ := ih (i := i + 1) (by omega) (fun k hk => by
      have := hw (k + 1) (by omega)
      simpa [Nat.add_assoc, Nat.add_comm 1 k] using this)
    exact ⟨b :: bs, by simp [arrayRange, hr, hbs]⟩

/-- Reading a range does not depend on elements outside it. -/
theorem arrayRange_congr {cap : Nat} {m m' : Memory} {n i : Nat} (h : ∀ k, k < n → m.read (i + k) = m'.read (i + k)) :
    arrayRange cap m i n = arrayRange cap m' i n := by
  induction n generalizing i with
  | zero => rfl
  | succ n ih =>
    have h0 : arrayRead cap m i = arrayRead cap m' i := by
      have := h 0 (by omega)
      simp only [Nat.add_zero] at this
      simp [arrayRead, this]
    have ht := ih (i := i + 1) (fun k hk => by
      have := h (k + 1) (by omega)
      simpa [Nat.add_assoc, Nat.add_comm 1 k] using this)
    simp only [arrayRange, h0, ht]

/-- Filling inside the array answers, and what it leaves at every index: the byte written there, or what stood there. -/
theorem arrayFill_ok {cap : Nat} (bs : List Byte) {m : Memory} {i : Nat} (hc : i + bs.length ≤ cap) :
    ∃ m', arrayFill cap m i bs = .ok m' ∧
      (∀ k, m'.read k = if i ≤ k ∧ k < i + bs.length then bs[k - i]? else m.read k) ∧
      (m.wf = true → m'.wf = true) ∧ (m.below cap = true → m'.below cap = true) := by
  induction bs generalizing m i with
  | nil => exact ⟨m, rfl, fun k => (if_neg (by simp)).symm, id, id⟩
  | cons b bs ih =>
    simp only [List.length_cons] at hc
    obtain ⟨m', h1, h2, h3, h4⟩ := ih (m := m.write i b) (i := i + 1) (by omega)
    refine ⟨m', by simp [arrayFill, arrayWrite_ok (show i < cap by omega), h1], fun k => ?_,
      fun hw => h3 (Memory.write_wf hw i b), fun hb => h4 (Memory.write_below hb (by omega) b)⟩
    rw [h2 k, Memory.read_write]
    simp only [List.length_cons]
    by_cases hki : k = i
    · subst hki; simp
    · by_cases hin : i + 1 ≤ k ∧ k < i + 1 + bs.length
      · have : i ≤ k ∧ k < i + (bs.length + 1) := by omega
        obtain ⟨d, rfl⟩ : ∃ d, k = i + 1 + d := ⟨k - (i + 1), by omega⟩
        have e : i + 1 + d - i = d + 1 := by omega
        simp [hin, this, e]
      · have : ¬ (i ≤ k ∧ k < i + (bs.length + 1)) := by omega
        rw [if_neg hin, if_neg this, if_neg hki]

/-- A filled range reads back. -/
theorem arrayRange_fill {cap : Nat} {bs : List Byte} {m m' : Memory} (hc : bs.length ≤ cap)
    (h : arrayFill cap m 0 bs = .ok m') : arrayRange cap m' 0 bs.length = .ok bs := by
  obtain ⟨m'', h1, h2, -, -⟩ := arrayFill_ok (cap := cap) bs (m := m) (i := 0) (by omega)
  rw [h1] at h
  cases h
  obtain ⟨bs', hb⟩ := arrayRange_ok (cap := cap) (m := m') (n := bs.length) (i := 0) (by omega) (fun k hk => by
    rw [h2]; simp [hk])
  obtain ⟨hl, -, hk⟩ := arrayRange_eq_ok hb
  rw [hb]
  congr 1
  apply List.ext_getElem? fun k => ?_
  by_cases hlt : k < bs.length
  · rw [← hk k hlt, h2]; simp [hlt]
  · simp [hl, Nat.le_of_not_lt hlt]

end Sys2Proof.Machine
end

