-- ==== Sys2Proof/Laws/State.lean ====
section
/-! SUPPORT. One lemma per field per update of the state, and the fields of the state after power-on. -/

namespace Sys2Proof.Machine

@[simp] theorem State.setRing_cfg (s : State) (x : Ring) : (s.setRing x).cfg = s.cfg := rfl
@[simp] theorem State.setRing_ring (s : State) (x : Ring) : (s.setRing x).ring = x := rfl
@[simp] theorem State.setRing_parser (s : State) (x : Ring) : (s.setRing x).parser = s.parser := rfl
@[simp] theorem State.setRing_tmList (s : State) (x : Ring) : (s.setRing x).tmList = s.tmList := rfl
@[simp] theorem State.setRing_evq (s : State) (x : Ring) : (s.setRing x).evq = s.evq := rfl
@[simp] theorem State.setRing_arq (s : State) (x : Ring) : (s.setRing x).arq = s.arq := rfl
@[simp] theorem State.setRing_fatal (s : State) (x : Ring) : (s.setRing x).fatal = s.fatal := rfl
@[simp] theorem State.setRing_fatalCode (s : State) (x : Ring) : (s.setRing x).fatalCode = s.fatalCode := rfl
@[simp] theorem State.setRing_out (s : State) (x : Ring) : (s.setRing x).out = s.out := rfl
@[simp] theorem State.setRing_env (s : State) (x : Ring) : (s.setRing x).env = s.env := rfl

@[simp] theorem State.setParser_cfg (s : State) (x : Parser) : (s.setParser x).cfg = s.cfg := rfl
@[simp] theorem State.setParser_ring (s : State) (x : Parser) : (s.setParser x).ring = s.ring := rfl
@[simp] theorem State.setParser_parser (s : State) (x : Parser) : (s.setParser x).parser = x := rfl
@[simp] theorem State.setParser_tmList (s : State) (x : Parser) : (s.setParser x).tmList = s.tmList := rfl
@[simp] theorem State.setParser_evq (s : State) (x : Parser) : (s.setParser x).evq = s.evq := rfl
@[simp] theorem State.setParser_arq (s : State) (x : Parser) : (s.setParser x).arq = s.arq := rfl
@[simp] theorem State.setParser_fatal (s : State) (x : Parser) : (s.setParser x).fatal = s.fatal := rfl
@[simp] theorem State.setParser_fatalCode (s : State) (x : Parser) : (s.setParser x).fatalCode = s.fatalCode := rfl
@[simp] theorem State.setParser_out (s : State) (x : Parser) : (s.setParser x).out = s.out := rfl
@[simp] theorem State.setParser_env (s : State) (x : Parser) : (s.setParser x).env = s.env := rfl

@[simp] theorem State.setTimers_cfg (s : State) (x : List TimerEntry) : (s.setTimers x).cfg = s.cfg := rfl
@[simp] theorem State.setTimers_ring (s : State) (x : List TimerEntry) : (s.setTimers x).ring = s.ring := rfl
@[simp] theorem State.setTimers_parser (s : State) (x : List TimerEntry) : (s.setTimers x).parser = s.parser := rfl
@[simp] theorem State.setTimers_tmList (s : State) (x : List TimerEntry) : (s.setTimers x).tmList = x := rfl
@[simp] theorem State.setTimers_evq (s : State) (x : List TimerEntry) : (s.setTimers x).evq = s.evq := rfl
@[simp] theorem State.setTimers_arq (s : State) (x : List TimerEntry) : (s.setTimers x).arq = s.arq := rfl
@[simp] theorem State.setTimers_fatal (s : State) (x : List TimerEntry) : (s.setTimers x).fatal = s.fatal := rfl
@[simp] theorem State.setTimers_fatalCode (s : State) (x : List TimerEntry) : (s.setTimers x).fatalCode = s.fatalCode := rfl
@[simp] theorem State.setTimers_out (s : State) (x : List TimerEntry) : (s.setTimers x).out = s.out := rfl
@[simp] theorem State.setTimers_env (s : State) (x : List TimerEntry) : (s.setTimers x).env = s.env := rfl

@[simp] theorem State.setEvq_cfg (s : State) (x : List Event) : (s.setEvq x).cfg = s.cfg := rfl
@[simp] theorem State.setEvq_ring (s : State) (x : List Event) : (s.setEvq x).ring = s.ring := rfl
@[simp] theorem State.setEvq_parser (s : State) (x : List Event) : (s.setEvq x).parser = s.parser := rfl
@[simp] theorem State.setEvq_tmList (s : State) (x : List Event) : (s.setEvq x).tmList = s.tmList := rfl
@[simp] theorem State.setEvq_evq (s : State) (x : List Event) : (s.setEvq x).evq = x := rfl
@[simp] theorem State.setEvq_arq (s : State) (x : List Event) : (s.setEvq x).arq = s.arq := rfl
@[simp] theorem State.setEvq_fatal (s : State) (x : List Event) : (s.setEvq x).fatal = s.fatal := rfl
@[simp] theorem State.setEvq_fatalCode (s : State) (x : List Event) : (s.setEvq x).fatalCode = s.fatalCode := rfl
@[simp] theorem State.setEvq_out (s : State) (x : List Event) : (s.setEvq x).out = s.out := rfl
@[simp] theorem State.setEvq_env (s : State) (x : List Event) : (s.setEvq x).env = s.env := rfl

@[simp] theorem State.setArq_cfg (s : State) (x : Arq) : (s.setArq x).cfg = s.cfg := rfl
@[simp] theorem State.setArq_ring (s : State) (x : Arq) : (s.setArq x).ring = s.ring := rfl
@[simp] theorem State.setArq_parser (s : State) (x : Arq) : (s.setArq x).parser = s.parser := rfl
@[simp] theorem State.setArq_tmList (s : State) (x : Arq) : (s.setArq x).tmList = s.tmList := rfl
@[simp] theorem State.setArq_evq (s : State) (x : Arq) : (s.setArq x).evq = s.evq := rfl
@[simp] theorem State.setArq_arq (s : State) (x : Arq) : (s.setArq x).arq = x := rfl
@[simp] theorem State.setArq_fatal (s : State) (x : Arq) : (s.setArq x).fatal = s.fatal := rfl
@[simp] theorem State.setArq_fatalCode (s : State) (x : Arq) : (s.setArq x).fatalCode = s.fatalCode := rfl
@[simp] theorem State.setArq_out (s : State) (x : Arq) : (s.setArq x).out = s.out := rfl
@[simp] theorem State.setArq_env (s : State) (x : Arq) : (s.setArq x).env = s.env := rfl

@[simp] theorem State.setOut_cfg (s : State) (x : Out) : (s.setOut x).cfg = s.cfg := rfl
@[simp] theorem State.setOut_ring (s : State) (x : Out) : (s.setOut x).ring = s.ring := rfl
@[simp] theorem State.setOut_parser (s : State) (x : Out) : (s.setOut x).parser = s.parser := rfl
@[simp] theorem State.setOut_tmList (s : State) (x : Out) : (s.setOut x).tmList = s.tmList := rfl
@[simp] theorem State.setOut_evq (s : State) (x : Out) : (s.setOut x).evq = s.evq := rfl
@[simp] theorem State.setOut_arq (s : State) (x : Out) : (s.setOut x).arq = s.arq := rfl
@[simp] theorem State.setOut_fatal (s : State) (x : Out) : (s.setOut x).fatal = s.fatal := rfl
@[simp] theorem State.setOut_fatalCode (s : State) (x : Out) : (s.setOut x).fatalCode = s.fatalCode := rfl
@[simp] theorem State.setOut_out (s : State) (x : Out) : (s.setOut x).out = x := rfl
@[simp] theorem State.setOut_env (s : State) (x : Out) : (s.setOut x).env = s.env := rfl

@[simp] theorem State.setEnv_cfg (s : State) (x : Env) : (s.setEnv x).cfg = s.cfg := rfl
@[simp] theorem State.setEnv_ring (s : State) (x : Env) : (s.setEnv x).ring = s.ring := rfl
@[simp] theorem State.setEnv_parser (s : State) (x : Env) : (s.setEnv x).parser = s.parser := rfl
@[simp] theorem State.setEnv_tmList (s : State) (x : Env) : (s.setEnv x).tmList = s.tmList := rfl
@[simp] theorem State.setEnv_evq (s : State) (x : Env) : (s.setEnv x).evq = s.evq := rfl
@[simp] theorem State.setEnv_arq (s : State) (x : Env) : (s.setEnv x).arq = s.arq := rfl
@[simp] theorem State.setEnv_fatal (s : State) (x : Env) : (s.setEnv x).fatal = s.fatal := rfl
@[simp] theorem State.setEnv_fatalCode (s : State) (x : Env) : (s.setEnv x).fatalCode = s.fatalCode := rfl
@[simp] theorem State.setEnv_out (s : State) (x : Env) : (s.setEnv x).out = s.out := rfl
@[simp] theorem State.setEnv_env (s : State) (x : Env) : (s.setEnv x).env = x := rfl

@[simp] theorem State.setFatal_cfg (s : State) (b : Bool) (code : Byte) : (s.setFatal b code).cfg = s.cfg := rfl
@[simp] theorem State.setFatal_ring (s : State) (b : Bool) (code : Byte) : (s.setFatal b code).ring = s.ring := rfl
@[simp] theorem State.setFatal_parser (s : State) (b : Bool) (code : Byte) : (s.setFatal b code).parser = s.parser := rfl
@[simp] theorem State.setFatal_tmList (s : State) (b : Bool) (code : Byte) : (s.setFatal b code).tmList = s.tmList := rfl
@[simp] theorem State.setFatal_evq (s : State) (b : Bool) (code : Byte) : (s.setFatal b code).evq = s.evq := rfl
@[simp] theorem State.setFatal_arq (s : State) (b : Bool) (code : Byte) : (s.setFatal b code).arq = s.arq := rfl
@[simp] theorem State.setFatal_fatal (s : State) (b : Bool) (code : Byte) : (s.setFatal b code).fatal = b := rfl
@[simp] theorem State.setFatal_fatalCode (s : State) (b : Bool) (code : Byte) : (s.setFatal b code).fatalCode = code := rfl
@[simp] theorem State.setFatal_out (s : State) (b : Bool) (code : Byte) : (s.setFatal b code).out = s.out := rfl
@[simp] theorem State.setFatal_env (s : State) (b : Bool) (code : Byte) : (s.setFatal b code).env = s.env := rfl

@[simp] theorem State.resetWith_cfg (c : Config) : (State.resetWith c).cfg = c := rfl
@[simp] theorem State.resetWith_ring (c : Config) : (State.resetWith c).ring = ⟨[], 0, 0, 0⟩ := rfl
@[simp] theorem State.resetWith_tmList (c : Config) : (State.resetWith c).tmList = [] := rfl
@[simp] theorem State.resetWith_evq (c : Config) : (State.resetWith c).evq = [] := rfl
@[simp] theorem State.resetWith_fatal (c : Config) : (State.resetWith c).fatal = false := rfl
@[simp] theorem State.resetWith_fatalCode (c : Config) : (State.resetWith c).fatalCode = 0x00#8 := rfl
@[simp] theorem State.resetWith_out (c : Config) : (State.resetWith c).out = ⟨[], [], []⟩ := rfl
@[simp] theorem State.resetWith_env (c : Config) : (State.resetWith c).env = ⟨[], [], [], 0⟩ := rfl

end Sys2Proof.Machine
end

