-- ==== Sys2Proof/Laws/Ops.lean ====
section
/-! SUPPORT. One lemma for each shared operation that says everything it can do, and the small lemmas of the operations. -/

namespace Sys2Proof.Machine

/-! ### How a step ends -/

@[simp] theorem Res.andThen_ok (s : State) (k : State → Res) : (Res.ok s).andThen k = k s := rfl
@[simp] theorem Res.andThen_fatal (s : State) (k : State → Res) : (Res.fatal s).andThen k = .fatal s := rfl
@[simp] theorem Res.andThen_fault (e : Fault) (k : State → Res) : (Res.fault e).andThen k = .fault e := rfl
@[simp] theorem Res.ofRead_ok {α : Type} (a : α) (k : α → Res) : Res.ofRead (.ok a) k = k a := rfl
@[simp] theorem Res.ofRead_error {α : Type} (e : Fault) (k : α → Res) : Res.ofRead (.error e) k = .fault e := rfl
@[simp] theorem Res.outcome_ok (s : State) : (Res.ok s).outcome = .next s := rfl
@[simp] theorem Res.outcome_fatal (s : State) : (Res.fatal s).outcome = .next s := rfl
@[simp] theorem Res.outcome_fault (e : Fault) : (Res.fault e).outcome = .fault e := rfl

/-- A next state comes from statements that went through or raised a fatal. -/
theorem Res.outcome_eq_next {r : Res} {t : State} (h : r.outcome = .next t) : r = .ok t ∨ r = .fatal t := by
  cases r <;> simp_all [Res.outcome]

theorem Res.outcome_eq_fault {r : Res} {e : Fault} (h : r.outcome = .fault e) : r = .fault e := by
  cases r <;> simp_all [Res.outcome]

theorem Res.outcome_ne_refused (r : Res) (q : Refusal) : r.outcome ≠ .refused q := by
  cases r <;> simp [Res.outcome]

/-- What `whenAlive` lets through (R312). -/
theorem whenAlive_eq_next {s t : State} {run : Host.Outcome State Fault Refusal} (h : whenAlive s run = .next t) :
    s.fatal = false ∧ run = .next t := by
  unfold whenAlive at h
  split at h
  · cases h
  · next hf => exact ⟨by simpa using hf, h⟩

/-- What `whenHandle` lets through (R180). -/
theorem whenHandle_eq_next {s t : State} {run : Host.Outcome State Fault Refusal} (h : whenHandle s run = .next t) :
    s.fatal = false ∧ s.arq.lstate = .handle ∧ run = .next t := by
  obtain ⟨hf, hr⟩ := whenAlive_eq_next h
  split at hr
  · cases hr
  · next hl => exact ⟨hf, hl, hr⟩

/-- What `whenInit` lets through (R180). -/
theorem whenInit_eq_next {s t : State} {run : Host.Outcome State Fault Refusal} (h : whenInit s run = .next t) :
    s.fatal = false ∧ s.arq.lstate = .init ∧ run = .next t := by
  obtain ⟨hf, hr⟩ := whenAlive_eq_next h
  split at hr
  · next hl => exact ⟨hf, hl, hr⟩
  · cases hr

theorem whenAlive_alive {s : State} (h : s.fatal = false) (run : Host.Outcome State Fault Refusal) : whenAlive s run = run := by
  simp [whenAlive, h]

theorem whenAlive_fatal {s : State} (h : s.fatal = true) (run : Host.Outcome State Fault Refusal) :
    whenAlive s run = .refused .fatalState := by
  simp [whenAlive, h]

theorem whenHandle_handle {s : State} (hf : s.fatal = false) (hl : s.arq.lstate = .handle)
    (run : Host.Outcome State Fault Refusal) : whenHandle s run = run := by
  simp [whenHandle, whenAlive, hf, hl]

theorem whenInit_init {s : State} (hf : s.fatal = false) (hl : s.arq.lstate = .init)
    (run : Host.Outcome State Fault Refusal) : whenInit s run = run := by
  simp [whenInit, whenAlive, hf, hl]

/-! ### The ring -/

/-- RbPut answers full exactly on a full ring (R121, R123). -/
theorem rbPut_full {s : State} (b : Byte) (h : s.ring.count = s.cfg.rbCap) : rbPut b s = .ok none := by
  simp [rbPut, h]

/-- RbPut on a ring with room writes at the tail (R121). -/
theorem rbPut_room {s : State} (b : Byte) (h : s.ring.count ≠ s.cfg.rbCap) (ht : s.ring.tail < s.cfg.rbCap) :
    rbPut b s = .ok (some (s.setRing
      ⟨s.ring.mem.write s.ring.tail b, s.ring.head, (s.ring.tail + 1) % s.cfg.rbCap, s.ring.count + 1⟩)) := by
  simp [rbPut, h, arrayWrite_ok ht]

/-- RbGet answers empty exactly on an empty ring (R122). -/
theorem rbGet_empty {s : State} (h : s.ring.count = 0) : rbGet s = .ok none := by
  simp [rbGet, h]

/-- RbGet on a ring that holds a byte (R122). -/
theorem rbGet_byte {s : State} {b : Byte} (h : s.ring.count ≠ 0) (hh : s.ring.head < s.cfg.rbCap)
    (hb : s.ring.mem.read s.ring.head = some b) :
    rbGet s = .ok (some (b, s.setRing ⟨s.ring.mem, (s.ring.head + 1) % s.cfg.rbCap, s.ring.tail, s.ring.count - 1⟩)) := by
  simp [rbGet, h, arrayRead_ok hh hb]

/-! ### The timers -/

@[simp] theorem mem_dropKey {k : TimerKey} {l : List TimerEntry} {e : TimerEntry} : e ∈ dropKey k l ↔ e ∈ l ∧ e.key ≠ k := by
  simp [dropKey]

theorem timerSet_tmList (k : TimerKey) (n : Word) (s : State) : (timerSet k n s).tmList = dropKey k s.tmList ++ [⟨k, n⟩] := rfl
theorem timerCancel_tmList (k : TimerKey) (s : State) : (timerCancel k s).tmList = dropKey k s.tmList := rfl

/-! ### The event queue -/

/-- EvqPost with room appends (R161). -/
theorem evqPost_room {ev : Event} {s : State} (h : s.evq.length ≠ s.cfg.evqCap) :
    evqPost ev s = .ok (s.setEvq (s.evq ++ [ev])) := by
  simp [evqPost, h]

/-- EvqPost into a full queue raises EVQ_OVERFLOW (R161). -/
theorem evqPost_full {ev : Event} {s : State} (h : s.evq.length = s.cfg.evqCap) :
    evqPost ev s = .fatal (s.setFatal true 0x04#8) := by
  simp [evqPost, h, raiseFatal, FatalCause.code]

/-- Posting events in order: all of them where they fit, and otherwise those that fit before the fatal (R142, R161). -/
theorem postAll_eq (evs : List Event) {s : State} (h : s.evq.length ≤ s.cfg.evqCap) :
    postAll evs s =
      if s.evq.length + evs.length ≤ s.cfg.evqCap then .ok (s.setEvq (s.evq ++ evs))
      else .fatal ((s.setEvq (s.evq ++ evs.take (s.cfg.evqCap - s.evq.length))).setFatal true 0x04#8) := by
  induction evs generalizing s with
  | nil => simp [postAll, h, State.setEvq]
  | cons ev evs ih =>
    by_cases hf : s.evq.length = s.cfg.evqCap
    · simp [postAll, evqPost_full hf, hf, State.setEvq]
    · rw [postAll, evqPost_room hf, Res.andThen_ok, ih (by simp; omega)]
      obtain ⟨d, hd⟩ : ∃ d, s.cfg.evqCap - s.evq.length = d + 1 := ⟨s.cfg.evqCap - s.evq.length - 1, by omega⟩
      have hd' : s.cfg.evqCap - (s.evq.length + 1) = d := by omega
      by_cases hr : s.evq.length + (evs.length + 1) ≤ s.cfg.evqCap
      · simp [hr, show s.evq.length + 1 + evs.length ≤ s.cfg.evqCap by omega, State.setEvq]
      · simp [hr, show ¬ (s.evq.length + 1 + evs.length ≤ s.cfg.evqCap) by omega, State.setEvq, hd, hd']

/-! ### The draws and the transport -/

/-- A status draw changes nothing but the environment's inputs (R14). -/
theorem drawStatus_snd (s : State) : (drawStatus s).2 = s.setEnv (drawStatus s).2.env := by
  unfold drawStatus; split <;> rfl

/-- A sequence-number draw changes nothing but the environment's inputs (R14). -/
theorem drawSeq_snd (s : State) : (drawSeq s).2 = s.setEnv (drawSeq s).2.env := by
  unfold drawSeq; split <;> rfl

/-- A status draw depends on the environment's inputs alone. -/
theorem drawStatus_congr {s s' : State} (h : s.env = s'.env) :
    (drawStatus s).1 = (drawStatus s').1 ∧ (drawStatus s).2.env = (drawStatus s').2.env := by
  unfold drawStatus; rw [h]; split <;> simp

/-- What a transport write can do (R291): it logs the frame's bytes as sent and goes on, or logs them as FAILED and raises
TX_WRITE_FAIL. -/
theorem transmit_eq (f : Frame) (s : State) :
    transmit f s =
      match (drawStatus s).1 with
      | .ok => .ok ((s.setEnv (drawStatus s).2.env).setOut
          { s.out with txlog := s.out.txlog ++ [.sent (serialise s.cfg f)] })
      | .fail => .fatal (((s.setEnv (drawStatus s).2.env).setOut
          { s.out with txlog := s.out.txlog ++ [.failed (serialise s.cfg f)] }).setFatal true 0x03#8) := by
  have h := drawStatus_snd s
  unfold transmit
  rcases hd : drawStatus s with ⟨_ | _, s'⟩ <;> rw [hd] at h <;> rw [show s' = s.setEnv s'.env from h] <;> rfl

/-! ### Counts shown in registers -/

/-- A count that 32 bits hold is shown as it is (R59). -/
theorem countWord_toNat {n : Nat} (h : n < 2 ^ 32) : (countWord n).toNat = n := by
  rw [countWord, if_pos h, BitVec.toNat_ofNat, Nat.mod_eq_of_lt h]

@[simp] theorem countWord_zero : countWord 0 = 0#32 := rfl

/-! ### Frames held in registers -/

/-- An address register all of whose bytes are written (R72). -/
@[simp] theorem AddrReg.value_written (b0 b1 b2 b3 : Byte) :
    AddrReg.value ⟨some b0, some b1, some b2, some b3⟩ = .ok (wordOfBytes b0 b1 b2 b3) := rfl

/-- SEQ in Handle, where both numbers are written (R55, R63 (e)). -/
theorem readSeq_handle {s : State} {a b : Byte} (hh : s.arq.lstate = .handle) (ha : s.arq.sendSeq = some a)
    (hb : s.arq.recvSeq = some b) : readSeq s = .ok (some (seqWord a b)) := by
  rw [readSeq, hh, ha, hb]; rfl

/-- A send frame filled from a well-formed frame reads back as that frame (R184, R186). -/
theorem txFrame_ofFrame {c : Config} {f : Frame} {m m' : Memory} (hl : f.payload.length = f.len.toNat)
    (hc : f.len.toNat ≤ c.maxPayload.toNat) (h : arrayFill c.maxPayload.toNat m 0 f.payload = .ok m') :
    txFrame c (.ofFrame f m') = .ok f := by
  have hr := arrayRange_fill (cap := c.maxPayload.toNat) (by omega) h
  rw [hl] at hr
  simp [txFrame, SendFrame.ofFrame, hr, bind, Except.bind, pure, Except.pure]

/-- What a readable send frame holds (R47). -/
theorem txFrame_eq_ok {c : Config} {t : SendFrame} {f : Frame} (h : txFrame c t = .ok f) :
    t.dest = some f.dest ∧ t.src = some f.src ∧ t.type = some f.type ∧ t.sub = some f.sub ∧ t.seq = some f.seq ∧
      t.len = some f.len ∧ t.fcs = some f.fcs ∧ arrayRange c.maxPayload.toNat t.payload 0 f.len.toNat = .ok f.payload := by
  simp only [txFrame, bind, Except.bind, pure, Except.pure] at h
  repeat' (split at h; · cases h)
  cases h
  simp_all [written_eq_ok]

/-- What a readable scratch frame holds (R240). -/
theorem rxSnapshot_eq_ok {c : Config} {p : Parser} {f : Frame} (h : rxSnapshot c p = .ok f) :
    p.rxDest.value = .ok f.dest ∧ p.rxSrc.value = .ok f.src ∧ p.rxType = some f.type ∧ p.rxSub = some f.sub ∧
      p.rxSeq = some f.seq ∧ p.rxLen = some f.len ∧ p.rxFcs = some f.fcs ∧
      arrayRange c.maxPayload.toNat p.rxPayload 0 f.len.toNat = .ok f.payload := by
  simp only [rxSnapshot, bind, Except.bind, pure, Except.pure] at h
  repeat' (split at h; · cases h)
  cases h
  simp_all [written_eq_ok]

/-- A payload operand that fits its length byte is copied whole (R98, R164). -/
theorem payloadBytes_ok {len : Byte} {payload : List Byte} (h : payload.length = len.toNat) :
    payloadBytes len payload = .ok payload := by
  rw [payloadBytes, if_neg (by omega), ← h, List.take_length]

/-! ### The handlers' shared parts -/

/-- A retransmission of a readable send frame (R186, R191). -/
theorem retransmit_eq {s : State} {f : Frame} (h : txFrame s.cfg s.arq.tx = .ok f) :
    retransmit s = (transmit f s).andThen fun t => .ok (bumpRetry (armSend t)) := by
  simp [retransmit, transmitTx, h]

/-- Whether a frame matches the outstanding send, where the send sequence number is written (R190, R193). -/
theorem matchesSend_ok {s : State} {f : Frame} {q : Byte} (h : s.arq.sendSeq = some q) :
    matchesSend f s = .ok (decide (s.arq.sendState = .sending ∧ f.seq = q)) := by
  unfold matchesSend
  split <;> simp_all [Except.map]

end Sys2Proof.Machine
end

