-- ==== Sys2Proof/Laws/Invariant.lean ====
section
/-! SUPPORT. What each agent's rule can do to a state of the invariant: one lemma per rule, each saying once everything the
rule may change, that the invariant stays, and that no model fault is raised. -/

namespace Sys2Proof.Machine

/-- A property of the state a sequence of statements ends in, whether it went on or raised a fatal; no model fault. -/
def Res.All (P : State → Prop) : Res → Prop
  | .ok s => P s | .fatal s => P s | .fault _ => False

/-- What the LINK handlers may write keeps the invariant if the timers, the ARQ engine and the fatal flag keep theirs. -/
theorem State.Inv.of_link {s : State} (h : s.Inv) {tm a f c o e} (ht : TimersInv tm) (ha : a.Inv s.cfg)
    (hf : FatalInv f c) :
   State.Inv { s with tmList := tm, arq := a, fatal := f, fatalCode := c, out := o, env := e } :=
  ⟨h.config, h.ring, h.parser, ht, h.queue, ha, hf⟩

/-- Removing a timer keeps the timers' invariant (R141). -/
theorem TimersInv.drop {l k} (h : TimersInv l) : TimersInv (dropKey k l) :=
  ⟨(h.onePerKey.sublist (List.filter_sublist.map _)), fun e he => h.remainingPositive _ (by simp at he; exact he.1)⟩

/-- Setting a timer to a positive time keeps the timers' invariant (R140). -/
theorem TimersInv.set {l k n} (h : TimersInv l) (hn : n ≠ 0#32) : TimersInv (dropKey k l ++ [⟨k, n⟩]) := by
  constructor
  · rw [List.map_append, List.nodup_append]
    refine ⟨(TimersInv.drop h).onePerKey, by simp, ?_⟩
    simp; rintro a x hx h1 h2 rfl; simp_all
  · intro e he; simp at he; rcases he with ⟨h1, -⟩ | rfl
    · exact h.remainingPositive _ h1
    · exact hn

/-- A `txlog` entry that holds a frame the block may send: with its own checksum (R262), of a type and sub-type of R95. -/
def TxEntry.Valid (c : Config) (e : TxEntry) : Prop := ∃ f : Frame,
    f.wf c = true ∧ e.bytes = serialise c f ∧ f.fcs = checksum c f ∧
        ((f.type = c.typeReq ∧ f.sub = 0x00#8 ∧ f.src = c.localAddr) ∨
          (f.type = c.typeAck ∧ f.sub = 0x00#8 ∧ f.len = 0#8) ∨
          (f.type = c.typeNack ∧ f.sub = c.subNackCsum ∧ f.len = 0#8))

/-- Everything a handler of the LINK agent can do to a state of the invariant (R182 to R204). -/
structure LinkEffect (s t : State) : Prop where
  inv : t.Inv
  cfg : t.cfg = s.cfg
  evq : t.evq = s.evq
  ring : t.ring = s.ring
  ls : t.arq.lstate = s.arq.lstate
  mr : t.arq.maxRetry = s.arq.maxRetry
  resp : t.out.resplog = s.out.resplog
  script : t.env.script = s.env.script
  tx : ∃ es, t.out.txlog = s.out.txlog ++ es ∧ es.length ≤ 1 ∧ ∀ e ∈ es, TxEntry.Valid s.cfg e
  note : ∃ es, t.out.notelog = s.out.notelog ++ es
  ends : s.arq.sendState = .sending → t.arq.sendState = .idle →
      (t.out.notelog = s.out.notelog ++ [.sendOk] ∨ t.out.notelog = s.out.notelog ++ [.sendFail])
  fat : t.fatal = true →  (t.fatalCode = 0x01#8 ∧ s.arq.sendState = .sending ∧ t.arq = s.arq ∧ t.out = s.out) ∨
    (t.fatalCode = 0x02#8 ∧ s.arq.sendState = .idle ∧ t.arq.tx = s.arq.tx ∧ t.out = s.out) ∨
    (t.fatalCode = 0x03#8 ∧ ∃ w, t.out.txlog = s.out.txlog ++ [.failed w])

/-- A draw issues no command word. -/
theorem drawStatus_script (s : State) : (drawStatus s).2.env.script = s.env.script := by unfold drawStatus; split <;> rfl

/-- An ACK or NACK built as an answer is a frame the block may send (R198). -/
theorem buildResponse_valid (c : Config) (f : Frame) (ty su : Byte) (h : (ty = c.typeAck ∧ su = 0#8)
    ∨ (ty = c.typeNack ∧ su = c.subNackCsum)) :
   ∀ e, e.bytes = serialise c (buildResponse c ty su f) → TxEntry.Valid c e := by
  intro e he
  refine ⟨_, ?_, he, rfl, ?_⟩
  · simp [Frame.wf, payloadFits, buildResponse, withFcs]
  · rcases h with ⟨rfl, rfl⟩ | ⟨rfl, rfl⟩
    · exact .inr (.inl ⟨rfl, rfl, rfl⟩)
    · exact .inr (.inr ⟨rfl, rfl, rfl⟩)

/-- R10. -/
theorem State.Inv.tSend_ne_zero {s : State} (h : s.Inv) : s.cfg.tSend ≠ 0#32 := by
  have := h.config; simp [Config.valid] at this; grind
/-- R10. -/
theorem State.Inv.tRecv_ne_zero {s : State} (h : s.Inv) : s.cfg.tRecv ≠ 0#32 := by
  have := h.config; simp [Config.valid] at this; grind

/-- Ending a send keeps the engine's invariant. -/
theorem Arq.Inv.toIdle {c a} (h : Arq.Inv c a) : Arq.Inv c { a with sendState := .idle } :=
  ⟨(fun h => by cases h), h.seqWritten, fun _ => rfl, h.memWf, h.memBelow⟩

/-- The outstanding REQ is a frame the block may send (R184). -/
theorem Arq.Inv.outstanding_valid {c a f} (h : Arq.Inv c a) (hs : a.sendState = .sending) (ht : txFrame c a.tx = .ok f)
    : ∀ e, e.bytes = serialise c f → TxEntry.Valid c e := by
  intro e he
  obtain ⟨g, h1, h2, h3, h4, h5, h6, h7⟩ := h.sendFrame hs
  rw [ht] at h1; cases h1
  exact ⟨f, h3, he, h7, .inl ⟨h5, h6, h4⟩⟩

/-- R190, R193. -/
theorem handleAck_effect {f s} (h : s.Inv) (hf : s.fatal = false) (hh : s.arq.lstate = .handle) : Res.All (LinkEffect s)
    (handleAck f s) := by
  obtain ⟨q, hq⟩ := Option.isSome_iff_exists.mp (h.arq.seqWritten hh).1
  rw [handleAck, matchesSend_ok hq, Res.ofRead_ok]
  by_cases hc : s.arq.sendState = .sending ∧ f.seq = q
  · rw [decide_eq_true hc]
    refine ⟨State.Inv.of_link (o := _) (e := _) h (TimersInv.drop h.timers) (Arq.Inv.toIdle h.arq) h.fatal, rfl, rfl,
        rfl, rfl, rfl, rfl, rfl, ⟨[], by simp [completeSend, notify, setSendState, timerCancel]⟩, ⟨_, rfl⟩,
        fun _ _ => .inl rfl, fun h => ?_⟩
    simp [completeSend, notify, setSendState, timerCancel, hf] at h
  · rw [decide_eq_false hc]
    refine ⟨h, rfl, rfl, rfl, rfl, rfl, rfl, rfl, ⟨[], by simp⟩, ⟨[], by simp⟩, fun h1 h2 => by simp_all,
        fun h => by simp_all⟩

/-- A handler that ends in a failed write (R291). -/
theorem LinkEffect.of_failed {s} (h : s.Inv) {a tm w out : _} {e : Env} (he : e.script = s.env.script)
    (ht : TimersInv tm) (ha : Arq.Inv s.cfg a) (hl : a.lstate = s.arq.lstate) (hm : a.maxRetry = s.arq.maxRetry)
    (hs : ¬ (s.arq.sendState = .sending ∧ a.sendState = .idle))
   (hg : TxEntry.Valid s.cfg (.failed w)) (ho : out = { s.out with txlog := s.out.txlog ++ [.failed w] }) :
   LinkEffect s { s with tmList := tm, arq := a, fatal := true, fatalCode := 3#8, out := out, env := e } := by
  subst ho
  refine ⟨State.Inv.of_link h ht ha ⟨.txWriteFail, rfl⟩, rfl, rfl, rfl, hl, hm, rfl, he, ⟨_, rfl, by simp,
      by simpa using hg⟩, ⟨[], by simp⟩, fun h1 h2 => absurd ⟨h1, h2⟩ hs, fun _ => .inr (.inr ⟨rfl, _, rfl⟩)⟩

/-- A handler whose write went through (R291). -/
theorem LinkEffect.of_sent {s} (h : s.Inv) (hf : s.fatal = false) {a tm w out : _} {e : Env}
    (he : e.script = s.env.script) (ht : TimersInv tm) (ha : Arq.Inv s.cfg a) (hl : a.lstate = s.arq.lstate)
    (hm : a.maxRetry = s.arq.maxRetry) (hs : ¬ (s.arq.sendState = .sending ∧ a.sendState = .idle)) {nl}
   (hg : TxEntry.Valid s.cfg (.sent w)) (ho : out = { s.out with txlog := s.out.txlog ++ [.sent w], notelog := nl })
       (hn : ∃ ns, nl = s.out.notelog ++ ns) :
   LinkEffect s { s with tmList := tm, arq := a, out := out, env := e } := by
  subst ho
  refine ⟨State.Inv.of_link h ht ha h.fatal, rfl, rfl, rfl, hl, hm, rfl, he, ⟨_, rfl, by simp, by simpa using hg⟩, hn,
      fun h1 h2 => absurd ⟨h1, h2⟩ hs, fun h => by simp [hf] at h⟩

/-- Writing `recv_seq` keeps the engine's invariant. -/
theorem Arq.Inv.setRecvSeq {c a b} (h : Arq.Inv c a) : Arq.Inv c { a with recvSeq := some b } :=
  ⟨h.sendFrame, fun h' => ⟨(h.seqWritten h').1, rfl⟩, h.initIdle, h.memWf, h.memBelow⟩

/-- Counting a retry keeps the engine's invariant. -/
theorem Arq.Inv.setRetry {c a b} (h : Arq.Inv c a) : Arq.Inv c { a with retry := b } :=
  ⟨h.sendFrame, h.seqWritten, h.initIdle, h.memWf, h.memBelow⟩

/-- R189. -/
theorem handleReq_effect {f s} (h : s.Inv) (hf : s.fatal = false) (hw : f.wf s.cfg = true) : Res.All (LinkEffect s)
    (handleReq f s) := by
  have hp : f.payload.length = f.len.toNat := by simp [Frame.wf, payloadFits] at hw; exact hw.1
  rw [handleReq]
  simp only []
  rw [transmit_eq]
  have hd := drawStatus_congr (s := s.setArq { s.arq with recvSeq := some f.seq }) (s' := s) rfl
  rw [hd.1, hd.2, payloadBytes_ok hp]
  have g := buildResponse_valid s.cfg f s.cfg.typeAck 0#8 (.inl ⟨rfl, rfl⟩)
  cases (drawStatus s).1
  · exact LinkEffect.of_sent h hf (drawStatus_script s) h.timers (Arq.Inv.setRecvSeq h.arq)
        rfl rfl (by simp; intro h; simp [h]) (g (.sent _) rfl) rfl ⟨_, rfl⟩
  · exact LinkEffect.of_failed h (drawStatus_script s) h.timers (Arq.Inv.setRecvSeq h.arq)
        rfl rfl (by simp; intro h; simp [h]) (g (.failed _) rfl) rfl

/-- R196. -/
theorem handleChecksumError_effect {f s} (h : s.Inv) (hf : s.fatal = false) : Res.All (LinkEffect s)
    (handleChecksumError f s) := by
  rw [handleChecksumError, transmit_eq]
  have g := buildResponse_valid s.cfg f s.cfg.typeNack s.cfg.subNackCsum (.inr ⟨rfl, rfl⟩)
  cases (drawStatus s).1
  · exact LinkEffect.of_sent h hf (drawStatus_script s) h.timers h.arq rfl rfl (by simp; intro h; simp [h]) (g (.sent _)
        rfl) rfl ⟨[], by simp⟩
  · exact LinkEffect.of_failed h (drawStatus_script s) h.timers h.arq rfl rfl (by simp; intro h; simp [h])
        (g (.failed _) rfl) rfl

/-- R186, R191. -/
theorem retransmit_effect {s} (h : s.Inv) (hf : s.fatal = false) (hs : s.arq.sendState = .sending) :
    Res.All (LinkEffect s) (retransmit s) := by
  obtain ⟨f, h1, -⟩ := h.arq.sendFrame hs
  have g := Arq.Inv.outstanding_valid h.arq hs h1
  rw [retransmit_eq h1, transmit_eq]
  cases (drawStatus s).1
  · exact LinkEffect.of_sent h hf (drawStatus_script s) (TimersInv.set (k := .sendTmo) (n := s.cfg.tSend)
        h.timers (State.Inv.tSend_ne_zero h)) (Arq.Inv.setRetry h.arq)
        rfl rfl (fun x => by have := hs.symm.trans x.2; cases this) (g (.sent _) rfl) rfl ⟨[], by simp⟩
  · exact LinkEffect.of_failed h (drawStatus_script s) h.timers h.arq rfl rfl (by simp; intro h; simp [h])
        (g (.failed _) rfl) rfl

/-- R202. -/
theorem abandon_effect {s} (h : s.Inv) (hf : s.fatal = false) : LinkEffect s (abandon s) :=
  ⟨State.Inv.of_link h h.timers (Arq.Inv.toIdle h.arq) h.fatal, rfl, rfl, rfl, rfl, rfl, rfl, rfl, ⟨[],
      by simp [abandon, notify, setSendState]⟩, ⟨_, rfl⟩, fun _ _ => .inr rfl,
      fun h => by simp [abandon, notify, setSendState, hf] at h⟩

/-- A handler that ignores its event. -/
theorem LinkEffect.same {s} (h : s.Inv) (hf : s.fatal = false) : LinkEffect s s :=
  ⟨h, rfl, rfl, rfl, rfl, rfl, rfl, rfl, ⟨[], by simp⟩, ⟨[], by simp⟩, fun h1 h2 => by simp_all, fun h => by simp_all⟩

/-- R186 to R188. -/
theorem handleSendTimeout_effect {s} (h : s.Inv) (hf : s.fatal = false) : Res.All (LinkEffect s) (handleSendTimeout s) := by
  rw [handleSendTimeout]
  split
  · exact LinkEffect.same h hf
  · split
    · exact retransmit_effect h hf ‹_›
    · exact abandon_effect h hf

/-- A handler that first cancels a timer. -/
theorem LinkEffect.after_cancel {s k r} (h : Res.All (LinkEffect (timerCancel k s)) r) : Res.All (LinkEffect s) r := by
  cases r <;> simp only [Res.All] at * <;> exact ⟨h.inv, h.cfg, h.evq, h.ring, h.ls, h.mr, h.resp, h.script, h.tx,
      h.note, h.ends, h.fat⟩

/-- Cancelling a timer keeps the invariant (R141). -/
theorem timerCancel_inv {s k} (h : s.Inv) : (timerCancel k s).Inv := ⟨h.config, h.ring, h.parser,
    TimersInv.drop h.timers, h.queue, h.arq, h.fatal⟩

/-- R191, R192, R194. -/
theorem handleNack_effect {f s} (h : s.Inv) (hf : s.fatal = false) (hh : s.arq.lstate = .handle) :
    Res.All (LinkEffect s) (handleNack f s) := by
  obtain ⟨q, hq⟩ := Option.isSome_iff_exists.mp (h.arq.seqWritten hh).1
  rw [handleNack, matchesSend_ok hq, Res.ofRead_ok]
  by_cases hc : s.arq.sendState = .sending ∧ f.seq = q
  · rw [decide_eq_true hc]; simp only [if_true]
    apply LinkEffect.after_cancel (k := .sendTmo)
    split
    · exact retransmit_effect (timerCancel_inv h) hf hc.1
    · exact abandon_effect (timerCancel_inv h) hf
  · rw [decide_eq_false hc]
    exact LinkEffect.same h hf

/-- R183 to R185. -/
theorem handleSendRequest_effect {d l p s} (h : s.Inv) (hf : s.fatal = false) (hh : s.arq.lstate = .handle)
    (hw : p.length = l.toNat) : Res.All (LinkEffect s) (handleSendRequest d l p s) := by
  obtain ⟨q, hq⟩ := Option.isSome_iff_exists.mp (h.arq.seqWritten hh).1
  rw [handleSendRequest]
  split
  · next hs => exact ⟨State.Inv.of_link h h.timers h.arq ⟨.concurrentSend, rfl⟩, rfl, rfl, rfl, rfl, rfl, rfl, rfl, ⟨[],
        by simp [State.setFatal] ⟩, ⟨[], by simp [State.setFatal]⟩, fun h1 h2 => by simp_all [State.setFatal],
        fun _ => .inl ⟨rfl, hs, rfl, rfl⟩⟩
  · next hs =>
    split
    · rw [oversizeSend, hq]
      refine ⟨State.Inv.of_link h h.timers (Arq.Inv.mk (fun h => ?_) (fun h' => ⟨rfl, (h.arq.seqWritten h').2⟩)
          h.arq.initIdle h.arq.memWf h.arq.memBelow) ⟨.oversizePayload, rfl⟩, rfl, rfl, rfl, rfl, rfl, rfl, rfl,
          ⟨[], by simp [State.setFatal]⟩, ⟨[], by simp [State.setFatal]⟩, fun h1 h2 => by simp_all,
          fun _ => .inr (.inl ⟨rfl, hs, rfl, rfl⟩)⟩
      simp [hs] at h
    · next hl =>
      obtain ⟨m, hm, hr, hmw, hmb⟩ := arrayFill_ok (cap := s.cfg.maxPayload.toNat) p (m := s.arq.tx.payload) (i := 0)
          (by omega)
      have h6 : l.toNat ≤ s.cfg.maxPayload.toNat := by omega
      have this : txFrame (s.setArq (loadSend s.arq (q + 1#8) (requestFrame s.cfg d (q + 1#8) l p)
          m)).cfg (s.setArq (loadSend s.arq (q + 1#8) (requestFrame s.cfg d (q + 1#8) l p)
          m)).arq.tx = .ok (requestFrame s.cfg d (q + 1#8) l p) :=
        txFrame_ofFrame hw h6 hm
      have hwf : (requestFrame s.cfg d (q + 1#8)
          l p).wf s.cfg = true := by simp [Frame.wf, payloadFits, requestFrame, withFcs, hw, h6]
      have ha : Arq.Inv s.cfg (loadSend s.arq (q + 1#8) (requestFrame s.cfg d (q + 1#8) l p) m) :=
        ⟨fun _ => ⟨_, this, rfl, hwf, rfl, rfl, rfl, rfl⟩, fun h' => ⟨rfl, (h.arq.seqWritten h').2⟩,
            fun h' => by simp [loadSend, hh] at h', hmw h.arq.memWf, hmb h.arq.memBelow⟩
      have g : ∀ e, e.bytes = serialise s.cfg (requestFrame s.cfg d (q + 1#8) l p)
          → TxEntry.Valid s.cfg e := fun e he => ⟨_, hwf, he, rfl, .inl ⟨rfl, rfl, rfl⟩⟩
      rw [acceptSend, hq, written_some, Res.ofRead_ok, payloadBytes_ok hw, Res.ofRead_ok, hm, Res.ofRead_ok]
      simp only [transmitTx]
      rw [this, Res.ofRead_ok, transmit_eq]
      have hd := drawStatus_congr (s := s.setArq (loadSend s.arq (q + 1#8) (requestFrame s.cfg d (q + 1#8) l p) m))
          (s' := s) rfl
      rw [hd.1, hd.2]
      cases (drawStatus s).1
      · exact LinkEffect.of_sent h hf (drawStatus_script s) (TimersInv.set (k := .sendTmo) (n := s.cfg.tSend)
            h.timers (State.Inv.tSend_ne_zero h)) ha rfl rfl (by simp [hs]) (g (.sent _) rfl) rfl ⟨[], by simp⟩
      · exact LinkEffect.of_failed h (drawStatus_script s) h.timers ha rfl rfl (by simp [hs]) (g (.failed _) rfl) rfl

/-- The parser reset keeps the parser's invariant (R231). -/
theorem Parser.Inv.toReset {c p} (h : Parser.Inv c p) : Parser.Inv c { p with pstate := .awaitingSof, pidx := 0#8 } := by
  constructor <;> simp [Parser.idxInRange, Parser.destTaken, Parser.srcTaken, Parser.payloadTaken, PState.code,
      h.memWf, h.memBelow]

/-- R197. -/
theorem handleReceiveTimeout_effect {s} (h : s.Inv) (hf : s.fatal = false) : Res.All (LinkEffect s)
    (handleReceiveTimeout s) := by
  refine ⟨⟨h.config, h.ring, Parser.Inv.toReset h.parser, h.timers, h.queue, h.arq, h.fatal⟩, rfl, rfl, rfl, rfl, rfl,
      rfl, rfl, ⟨[], by simp [parserReset] ⟩, ⟨[], by simp [parserReset]⟩, fun h1 h2 => by simp_all [parserReset],
      fun h => by simp_all [parserReset]⟩

/-- R189 to R195. -/
theorem handleFrameReceived_effect {f s} (h : s.Inv) (hf : s.fatal = false) (hh : s.arq.lstate = .handle)
    (hw : f.wf s.cfg = true) : Res.All (LinkEffect s) (handleFrameReceived f s) := by
  rw [handleFrameReceived]
  split
  · exact handleReq_effect h hf hw
  · exact handleAck_effect h hf hh
  · exact handleNack_effect h hf hh
  · exact LinkEffect.same h hf

/-- The handler of any event the queue may hold (R182). -/
theorem handleEvent_effect {ev s} (h : s.Inv) (hf : s.fatal = false) (hh : s.arq.lstate = .handle)
    (hw : ev.wf s.cfg = true) : Res.All (LinkEffect s) (handleEvent ev s) := by
  cases ev <;> rw [handleEvent]
  · exact handleSendRequest_effect h hf hh (by simpa [Event.wf, payloadFits] using hw)
  · exact handleSendTimeout_effect h hf
  · exact handleFrameReceived_effect h hf hh hw
  · exact handleChecksumError_effect h hf
  · exact handleReceiveTimeout_effect h hf

/-- RbPut with room keeps the ring's invariant (R121). -/
theorem Ring.Inv.put {c r b} (h : Ring.Inv c r) (hc : r.count ≠ c.rbCap) : Ring.Inv c ⟨r.mem.write r.tail b, r.head,
    (r.tail + 1) % c.rbCap, r.count + 1⟩ := by
  have h0 := h.headInRange
  have h1 := h.countInRange
  have ht : r.tail < c.rbCap := by rw [h.tailAgrees]; exact Nat.mod_lt _ (by omega)
  refine ⟨h0, by show r.count + 1 ≤ _; omega, ?_, Memory.write_wf h.memWf _ _, Memory.write_below h.memBelow ht _, ?_⟩
  · show (r.tail + 1) % c.rbCap = (r.head + (r.count + 1)) % c.rbCap
    rw [h.tailAgrees]; simp [Nat.add_assoc]
  · intro k hk
    simp only [Memory.read_write]
    split
    · rfl
    · next hne =>
      apply h.heldWritten
      simp only at hk
      by_contra hcon
      have : k = r.count := by omega
      subst this
      exact hne h.tailAgrees.symm

/-- RbGet keeps the ring's invariant (R122). -/
theorem Ring.Inv.pop {c r} (h : Ring.Inv c r) (hc : r.count ≠ 0) : Ring.Inv c (popped c r) := by
  have h0 := h.headInRange
  have h1 := h.countInRange
  refine ⟨Nat.mod_lt _ (by omega), by show r.count - 1 ≤ _; omega, ?_, h.memWf, h.memBelow, ?_⟩
  · show r.tail = ((r.head + 1) % c.rbCap + (r.count - 1)) % c.rbCap
    rw [h.tailAgrees]; simp only [Nat.mod_add_mod]; congr 1; omega
  · intro k hk
    have := h.heldWritten (k+1) (by simp [popped] at hk; omega)
    simpa [popped, Nat.add_assoc, Nat.add_comm 1 k] using this

/-- Everything one parser transition can do to a state of the invariant (R230 to R240). -/
structure ParseEffect (s t : State) : Prop where
  inv : t.Inv
  cfg : t.cfg = s.cfg
  arq : t.arq = s.arq
  out : t.out = s.out
  env : t.env = s.env
  rmem : t.ring = s.ring
  evq : ∃ es, t.evq = s.evq ++ es
  pay : ∀ k, k ≠ s.parser.pidx.toNat ∨ s.parser.pstate ≠ .data → t.parser.rxPayload.read k = s.parser.rxPayload.read k
  fat : t.fatal = true → t.fatalCode = 4#8 ∧ t.evq.length = s.cfg.evqCap

/-- What a parser transition may write keeps the invariant if each part keeps its own. -/
theorem State.Inv.of_parse {s : State} (h : s.Inv) {p tm e f c} (hp : Parser.Inv s.cfg p) (ht : TimersInv tm)
    (he : EvqInv s.cfg e) (hf : FatalInv f c) :
    State.Inv { s with parser := p, tmList := tm, evq := e, fatal := f, fatalCode := c } :=
  ⟨h.config, h.ring, hp, ht, he, h.arq, hf⟩

/-- A transition that posts nothing. -/
theorem ParseEffect.of_parser {s : State} (h : s.Inv) (hf : s.fatal = false) {p tm} (hp : Parser.Inv s.cfg p)
    (ht : TimersInv tm)
   (hpay : ∀ k, k ≠ s.parser.pidx.toNat ∨ s.parser.pstate ≠ .data → p.rxPayload.read k = s.parser.rxPayload.read k)
       : ParseEffect s { s with parser := p, tmList := tm } :=
  ⟨State.Inv.of_parse h hp ht h.queue h.fatal, rfl, rfl, rfl, rfl, rfl, ⟨[], by simp⟩, hpay, fun h => by simp [hf] at h⟩

/-- Posting an event with room keeps the queue's invariant (R161). -/
theorem EvqInv.post {c e ev} (h : EvqInv c e) (hl : e.length ≠ c.evqCap) (hw : ev.wf c = true) : EvqInv c (e ++ [ev]) :=
  ⟨by have := h.bounded; simp; omega, by intro x hx; rcases List.mem_append.mp hx with hx | hx
                                         · exact h.eventsWf _ hx
                                         · simp at hx; subst hx; exact hw⟩

/-- Each of the four bytes of an address register can be put, and the others stay (R72). -/
theorem AddrReg.put_ok {r : AddrReg} {k : Nat} {b : Byte} (hk : k ≤ 3) : ∃ a, r.put k b = .ok a ∧ ∀ j ≤ 3,
    a.byte j = if j = k then some b else r.byte j := by
  have : k = 0 ∨ k = 1 ∨ k = 2 ∨ k = 3 := by omega
  rcases this with h | h | h | h <;> rw [h] <;> refine ⟨_, rfl, ?_⟩ <;>
    (intro j hj; match j, hj with | 0, _ => rfl | 1, _ => rfl | 2, _ => rfl | 3, _ => rfl)

/-- An address register all of whose bytes are written has a value. -/
theorem AddrReg.value_ok {r : AddrReg} (h : ∀ k < 4, (r.byte k).isSome = true) : ∃ w, r.value = .ok w := by
  obtain ⟨b0, h0⟩ := Option.isSome_iff_exists.mp (h 0 (by omega))
  obtain ⟨b1, h1⟩ := Option.isSome_iff_exists.mp (h 1 (by omega))
  obtain ⟨b2, h2⟩ := Option.isSome_iff_exists.mp (h 2 (by omega))
  obtain ⟨b3, h3⟩ := Option.isSome_iff_exists.mp (h 3 (by omega))
  simp only [AddrReg.byte] at h0 h1 h2 h3
  exact ⟨wordOfBytes b0 b1 b2 b3, by rw [AddrReg.value, h0, h1, h2, h3]; rfl⟩

/-- The index of an address byte that is not the last. -/
theorem pidx_succ {x : Byte} (h : x.toNat ≤ 3) (h2 : x ≠ 3#8) : x.toNat < 3 ∧ (x + 1#8).toNat = x.toNat + 1 := by
  bv_omega

/-- In FCS the scratch frame can be read, and is a well-formed frame with the byte received as its checksum (R240). -/
theorem rxSnapshot_ok {c p} (h : Parser.Inv c p) (hs : p.pstate = .fcs) (b : Byte) : ∃ f,
    rxSnapshot c { p with rxFcs := some b } = .ok f ∧ f.fcs = b ∧ f.wf c = true := by
  obtain ⟨d, hd⟩ := AddrReg.value_ok (r := p.rxDest) (by have := h.destWritten; simpa [Parser.destTaken, hs] using this)
  obtain ⟨e, he⟩ := AddrReg.value_ok (r := p.rxSrc) (by have := h.srcWritten; simpa [Parser.srcTaken, hs] using this)
  obtain ⟨ty, hty⟩ := Option.isSome_iff_exists.mp (h.typeWritten (by rw [hs]; decide))
  obtain ⟨su, hsu⟩ := Option.isSome_iff_exists.mp (h.subWritten (by rw [hs]; decide))
  obtain ⟨sq, hsq⟩ := Option.isSome_iff_exists.mp (h.seqWritten (by rw [hs]; decide))
  obtain ⟨l, hl, hle⟩ := h.lenAccepted (by rw [hs]; decide)
  have hpw := h.payloadWritten
  simp only [Parser.payloadTaken, hs, hl, Option.map_some, Option.getD_some] at hpw
  obtain ⟨pl, hpl⟩ := arrayRange_ok (cap := c.maxPayload.toNat) (m := p.rxPayload) (n := l.toNat) (i := 0) (by omega)
      (by simpa using hpw)
  obtain ⟨hlen, -, -⟩ := arrayRange_eq_ok hpl
  refine ⟨⟨d, e, ty, su, sq, l, pl, b⟩, ?_, rfl, ?_⟩
  · simp [rxSnapshot, hd, he, hty, hsu, hsq, hl, hpl, bind, Except.bind, pure, Except.pure]
  · simp [Frame.wf, payloadFits, hlen, hle]

/-- R230 to R240: every transition. -/
theorem parseByte_effect {b s} (h : s.Inv) (hf : s.fatal = false) : Res.All (ParseEffect s) (parseByte b s) := by
  have hp := h.parser
  have hi := hp.idx
  have hdw := hp.destWritten
  have hsw := hp.srcWritten
  have htw := hp.typeWritten
  have huw := hp.subWritten
  have hqw := hp.seqWritten
  have hlw := hp.lenAccepted
  have hpw := hp.payloadWritten
  have hmw := hp.memWf
  have hmb := hp.memBelow
  rw [parseByte]
  cases hst : s.parser.pstate
  all_goals simp only [Parser.idxInRange, Parser.destTaken, Parser.srcTaken, Parser.payloadTaken, hst, PState.code]
    at hi hdw hsw htw huw hqw hlw hpw
  all_goals simp only []
  case awaitingSof =>
    rw [takeSof]
    split
    · refine ParseEffect.of_parser h hf (p := { s.parser with pidx := 0#8, pstate := .destAddr })
          (tm := dropKey .recvTmo s.tmList ++ [⟨.recvTmo, s.cfg.tRecv⟩])
          ?_ (TimersInv.set h.timers (State.Inv.tRecv_ne_zero h)) (fun _ _ => rfl)
      constructor <;> simp [Parser.idxInRange, Parser.destTaken, Parser.srcTaken, Parser.payloadTaken, PState.code,
          hp.memWf, hp.memBelow]
    · exact ParseEffect.of_parser h hf hp h.timers (fun _ _ => rfl)
  case destAddr =>
    obtain ⟨a, ha, hb⟩ := AddrReg.put_ok (r := s.parser.rxDest) (b := b) hi
    simp only [takeDest, ha, Res.ofRead_ok]
    split
    · next h3 =>
      refine ParseEffect.of_parser h hf ?_ h.timers (fun _ _ => rfl)
      constructor <;> simp [Parser.idxInRange, Parser.destTaken, Parser.srcTaken, Parser.payloadTaken, PState.code,
          hp.memWf, hp.memBelow]
      intro k hk; rw [hb k (by omega)]; split
      · rfl
      · apply hdw; simp_all; omega
    · next h3 =>
      obtain ⟨e1, e2⟩ := pidx_succ hi h3
      refine ParseEffect.of_parser h hf ?_ h.timers (fun _ _ => rfl)
      constructor <;> simp [Parser.idxInRange, Parser.destTaken, Parser.srcTaken, Parser.payloadTaken, PState.code,
          hp.memWf, hp.memBelow, hst, -BitVec.toNat_add, e2]
      · omega
      · intro k hk; rw [hb k (by omega)]; split
        · rfl
        · apply hdw; omega
  case srcAddr =>
    obtain ⟨a, ha, hb⟩ := AddrReg.put_ok (r := s.parser.rxSrc) (b := b) hi
    simp only [takeSrc, ha, Res.ofRead_ok]
    split
    · next h3 =>
      refine ParseEffect.of_parser h hf ?_ h.timers (fun _ _ => rfl)
      constructor <;> simp [Parser.idxInRange, Parser.destTaken, Parser.srcTaken, Parser.payloadTaken, PState.code,
          hp.memWf, hp.memBelow]
      · exact hdw
      · intro k hk; rw [hb k (by omega)]; split
        · rfl
        · apply hsw; simp_all; omega
    · next h3 =>
      obtain ⟨e1, e2⟩ := pidx_succ hi h3
      refine ParseEffect.of_parser h hf ?_ h.timers (fun _ _ => rfl)
      constructor <;> simp [Parser.idxInRange, Parser.destTaken, Parser.srcTaken, Parser.payloadTaken, PState.code,
          hp.memWf, hp.memBelow, hst, -BitVec.toNat_add, e2]
      · omega
      · exact hdw
      · intro k hk; rw [hb k (by omega)]; split
        · rfl
        · apply hsw; omega
  case type =>
    refine ParseEffect.of_parser h hf ?_ h.timers (fun _ _ => rfl)
    constructor <;> simp [Parser.idxInRange, Parser.destTaken, Parser.srcTaken, Parser.payloadTaken, PState.code,
        hp.memWf, hp.memBelow] <;> simp_all
  case subType =>
    refine ParseEffect.of_parser h hf ?_ h.timers (fun _ _ => rfl)
    constructor <;> simp [Parser.idxInRange, Parser.destTaken, Parser.srcTaken, Parser.payloadTaken, PState.code,
        hp.memWf, hp.memBelow] <;> simp_all
  case seqNum =>
    refine ParseEffect.of_parser h hf ?_ h.timers (fun _ _ => rfl)
    constructor <;> simp [Parser.idxInRange, Parser.destTaken, Parser.srcTaken, Parser.payloadTaken, PState.code,
        hp.memWf, hp.memBelow] <;> simp_all
  case len =>
    rw [takeLen]
    simp only []
    split
    · refine ParseEffect.of_parser h hf (p := { s.parser with rxLen := some b, pstate := .awaitingSof, pidx := 0#8 })
          ?_ (TimersInv.drop h.timers) (fun _ _ => rfl)
      constructor <;> simp [Parser.idxInRange, Parser.destTaken, Parser.srcTaken, Parser.payloadTaken, PState.code,
          hp.memWf, hp.memBelow]
    · split
      · refine ParseEffect.of_parser h hf (p := { s.parser with rxLen := some b, pstate := .fcs })
            ?_ h.timers (fun _ _ => rfl)
        constructor <;> simp [Parser.idxInRange, Parser.destTaken, Parser.srcTaken, Parser.payloadTaken, PState.code,
            hp.memWf, hp.memBelow] <;> simp_all
      · next hm hz =>
        refine ParseEffect.of_parser h hf (p := { s.parser with rxLen := some b, pidx := 0#8, pstate := .data })
            ?_ h.timers (fun _ _ => rfl)
        constructor <;> simp [Parser.idxInRange, Parser.destTaken, Parser.srcTaken, Parser.payloadTaken, PState.code,
            hp.memWf, hp.memBelow] <;> simp_all
        bv_omega
  case data =>
    obtain ⟨len, hl, hlt⟩ := hi
    obtain ⟨len', hl', hle⟩ := hlw (by decide)
    rw [hl] at hl'; cases hl'
    have hin : s.parser.pidx.toNat < s.cfg.maxPayload.toNat := by omega
    simp only [takeData, arrayWrite_ok hin, Res.ofRead_ok, hl, written_some]
    have hpay : ∀ k, k ≠ s.parser.pidx.toNat ∨ s.parser.pstate ≠ .data →
        (s.parser.rxPayload.write s.parser.pidx.toNat b).read k = s.parser.rxPayload.read k := by
      intro k hk; simp [hst] at hk; exact Memory.read_write_other _ _ hk
    split
    · next he =>
      refine ParseEffect.of_parser h hf ?_ h.timers hpay
      constructor <;> simp [Parser.idxInRange, Parser.destTaken, Parser.srcTaken, Parser.payloadTaken, PState.code,
          Memory.write_wf hmw, Memory.write_below hmb hin] <;> simp_all
      intro k hk; rw [Memory.read_write]; split
      · rfl
      · apply hpw; omega
    · next he =>
      refine ParseEffect.of_parser h hf ?_ h.timers hpay
      have e2 : (s.parser.pidx + 1#8).toNat = s.parser.pidx.toNat + 1 := by have := len.isLt; bv_omega
      constructor <;> simp only [Parser.idxInRange, Parser.destTaken, Parser.srcTaken, Parser.payloadTaken, PState.code,
          Memory.write_wf hmw, Memory.write_below hmb hin, hst, e2] <;> simp_all
      · omega
      intro k hk; rw [Memory.read_write]; split
      · rfl
      · apply hpw; omega
  case fcs =>
    obtain ⟨f, h1, h2, h3⟩ := rxSnapshot_ok hp hst b
    have hk : ∀ s' : State, s' = timerCancel .recvTmo (s.setParser { s.parser with rxFcs := some b })
        → takeFcs b s = (evqPost (frameEvent s.cfg f) s').andThen fun s2 => .ok (parserReset s2) := by
      intro s' h
      unfold takeFcs
      simp only []
      rw [← h, show s'.parser = { s.parser with rxFcs := some b } by rw [h]; rfl, show s'.cfg = s.cfg by rw [h]; rfl, h1]
      rfl
    rw [hk _ rfl]
    have hpi : Parser.Inv s.cfg { s.parser with rxFcs := some b } := ⟨hp.idx, hp.destWritten, hp.srcWritten,
        hp.typeWritten, hp.subWritten, hp.seqWritten, hp.lenAccepted, hp.payloadWritten, hmw, hmb⟩
    have hew : (frameEvent s.cfg f).wf s.cfg = true := by rw [frameEvent]; split <;> exact h3
    have hI := h
    by_cases h : s.evq.length = s.cfg.evqCap
    · rw [evqPost_full (by exact h)]
      exact ⟨State.Inv.of_parse hI hpi (TimersInv.drop hI.timers) hI.queue ⟨.evqOverflow, rfl⟩, rfl, rfl, rfl, rfl, rfl,
          ⟨[], by simp [timerCancel]⟩, fun _ _ => rfl, fun _ => ⟨rfl, h⟩⟩
    · rw [evqPost_room (by exact h)]
      refine ⟨State.Inv.of_parse hI (Parser.Inv.toReset hpi) (TimersInv.drop hI.timers) (EvqInv.post hI.queue h hew)
          hI.fatal, rfl, rfl, rfl, rfl, rfl, ⟨_, rfl⟩, fun _ _ => rfl, fun h => ?_⟩
      simp [parserReset, hf, timerCancel] at h

/-- An answer keeps the invariant. -/
theorem respond_inv {s st v} (h : s.Inv) : (respond st v s).Inv := ⟨h.config, h.ring, h.parser, h.timers, h.queue,
    h.arq, h.fatal⟩

/-- Everything RX_PUT, TICK, SEND_REQ and CFG_WR can do to a state of the invariant (R120, R142, R280, R282). -/
structure PortEffect (s t : State) : Prop where
  inv : t.Inv
  cfg : t.cfg = s.cfg
  arq : ({ t.arq with maxRetry := s.arq.maxRetry } : Arq) = s.arq
  out : t.out.txlog = s.out.txlog ∧ t.out.notelog = s.out.notelog ∧ s.out.resplog <+: t.out.resplog
  env : t.env = s.env
  evq : ∃ es, t.evq = s.evq ++ es
  fat : t.fatal = true → t.fatalCode = 4#8 ∧ t.evq.length = s.cfg.evqCap ∧ t.out = s.out

/-- R120, R121, R123. -/
theorem putReceived_effect {b s} (h : s.Inv) (hf : s.fatal = false) : Res.All (PortEffect s) (putReceived b s) := by
  have ht : s.ring.tail < s.cfg.rbCap := by rw [h.ring.tailAgrees]; exact Nat.mod_lt _ (by have := h.ring.headInRange; omega)
  rw [putReceived]
  by_cases hc : s.ring.count = s.cfg.rbCap
  · rw [rbPut_full b hc]
    exact ⟨respond_inv h, rfl, rfl, ⟨rfl, rfl, ⟨_, rfl⟩⟩, rfl, ⟨[], by simp [respond]⟩,
        fun h => by simp [hf, respond] at h⟩
  · rw [rbPut_room b hc ht]
    exact ⟨⟨h.config, Ring.Inv.put h.ring hc, h.parser, h.timers, h.queue, h.arq, h.fatal⟩, rfl, rfl, ⟨rfl, rfl, ⟨_,
        rfl⟩⟩, rfl, ⟨[], by simp [respond]⟩, fun h => by simp [hf, respond] at h⟩

/-- R280. -/
theorem postSendRequest_effect {d l p s} (h : s.Inv) (hf : s.fatal = false) (hw : p.length = l.toNat) :
    Res.All (PortEffect s) (postSendRequest d l p s) := by
  rw [postSendRequest, payloadBytes_ok hw, Res.ofRead_ok]
  by_cases hc : s.evq.length = s.cfg.evqCap
  · rw [evqPost_full hc]
    exact ⟨⟨h.config, h.ring, h.parser, h.timers, h.queue, h.arq, ⟨.evqOverflow, rfl⟩⟩, rfl, rfl, ⟨rfl, rfl, ⟨[],
        by simp⟩⟩, rfl, ⟨[], by simp⟩, fun _ => ⟨rfl, hc, rfl⟩⟩
  · rw [evqPost_room hc]
    exact ⟨⟨h.config, h.ring, h.parser, h.timers, EvqInv.post h.queue hc (by simp [Event.wf, payloadFits, hw]), h.arq,
        h.fatal⟩, rfl, rfl, ⟨rfl, rfl, ⟨_, rfl⟩⟩, rfl, ⟨_, rfl⟩, fun h => by simp [hf, respond] at h⟩

/-- A tick leaves only entries with ticks remaining (R142). -/
theorem TimersInv.tick {l d} (h : TimersInv l) : TimersInv (keptEntries d l) := by
  constructor
  · rw [keptEntries, List.map_map]
    exact h.onePerKey.sublist (List.filter_sublist.map _)
  · intro e he
    simp [keptEntries] at he
    obtain ⟨a, ⟨-, h1⟩, rfl⟩ := he
    show a.remaining - d ≠ 0#32
    intro h2
    bv_omega

/-- R142. -/
theorem tickTimers_effect {d s} (h : s.Inv) (hf : s.fatal = false) : Res.All (PortEffect s) (tickTimers d s) := by
  rw [tickTimers, postAll_eq _ (by exact h.queue.bounded)]
  have hw : ∀ es : List TimerKey, ∀ x ∈ es.map signalOf, x.wf s.cfg = true := by
    intro es x hx; simp at hx; obtain ⟨k, -, rfl⟩ := hx; cases k <;> rfl
  split
  · next hl =>
    refine ⟨⟨h.config, h.ring, h.parser, TimersInv.tick h.timers, ⟨by simpa using hl, ?_⟩, h.arq, h.fatal⟩, rfl, rfl,
        ⟨rfl, rfl, ⟨[], by simp⟩⟩, rfl, ⟨_, rfl⟩, fun h => by simp [hf] at h⟩
    intro x hx; rcases List.mem_append.mp hx with hx | hx
    · exact h.queue.eventsWf _ hx
    · exact hw _ _ hx
  · next hl =>
    have hb := h.queue.bounded
    simp only [State.setTimers_evq, State.setTimers_cfg] at hl
    refine ⟨⟨h.config, h.ring, h.parser, TimersInv.tick h.timers, ⟨by simp; omega, ?_⟩, h.arq, ⟨.evqOverflow, rfl⟩⟩,
        rfl, rfl, ⟨rfl, rfl, ⟨[], by simp⟩⟩, rfl, ⟨_, rfl⟩, fun _ => ⟨rfl, ?_, rfl⟩⟩
    · intro x hx; rcases List.mem_append.mp hx with hx | hx
      · exact h.queue.eventsWf _ hx
      · exact hw _ _ (List.mem_of_mem_take hx)
    · simp [State.setFatal]; simp at hl; omega

/-- R282. -/
theorem writeReg_effect {r v s} (h : s.Inv) (hf : s.fatal = false) : Res.All (PortEffect s) (writeReg r v s) := by
  rw [writeReg]
  split
  · exact ⟨⟨h.config, h.ring, h.parser, h.timers, h.queue, ⟨h.arq.sendFrame, h.arq.seqWritten, h.arq.initIdle,
        h.arq.memWf, h.arq.memBelow⟩, h.fatal⟩, rfl, rfl, ⟨rfl, rfl, ⟨_, rfl⟩⟩, rfl, ⟨[], by simp [respond]⟩,
        fun h => by simp [hf, respond] at h⟩
  · exact ⟨respond_inv h, rfl, rfl, ⟨rfl, rfl, ⟨_, rfl⟩⟩, rfl, ⟨[], by simp [respond]⟩,
      fun h => by simp [hf, respond] at h⟩

/-- R281. -/
theorem answerRead_effect {r s} (h : s.Inv) : Res.All (fun t => t.Inv ∧ ∃ x,
    t = { s with out := { s.out with resplog := s.out.resplog ++ [x] } }) (answerRead r s) := by
  have : ∃ v, readNumber r s = .ok v := by
    rw [readNumber]; split
    · next x _ =>
      cases x <;> try exact ⟨_, rfl⟩
      simp only [readReg, readSeq]
      split
      · exact ⟨_, rfl⟩
      · next hh =>
        obtain ⟨h1, h2⟩ := h.arq.seqWritten hh
        obtain ⟨a, ha⟩ := Option.isSome_iff_exists.mp h1
        obtain ⟨b, hb⟩ := Option.isSome_iff_exists.mp h2
        rw [ha, hb]; exact ⟨_, rfl⟩
    · exact ⟨_, rfl⟩
  obtain ⟨v, hv⟩ := this
  rw [answerRead, hv, Res.ofRead_ok]
  cases v <;> exact ⟨respond_inv h, _, rfl⟩

/-- R181. -/
theorem initLink_effect {s} (h : s.Inv) (hf : s.fatal = false) :
    Res.All (fun t => t.Inv ∧ t.cfg = s.cfg ∧ t.evq = s.evq ∧ t.out = s.out ∧ t.fatal = false) (initLink s) := by
  rw [initLink]; simp only []
  rw [drawSeq_snd (drawSeq s).2, drawSeq_snd s]
  refine ⟨⟨h.config, h.ring, h.parser, h.timers, h.queue, ⟨(fun h => by cases h), fun _ => ⟨rfl, rfl⟩,
      (fun h => by cases h), h.arq.memWf, h.arq.memBelow⟩, h.fatal⟩, rfl, rfl, rfl, hf⟩

/-- Statements that end without a model fault answer a next state. -/
theorem Res.All.outcome {P r} (h : Res.All P r) : ∃ t, r.outcome = .next t ∧ P t := by
  cases r with
  | ok t => exact ⟨t, rfl, h⟩
  | fatal t => exact ⟨t, rfl, h⟩
  | fault _ => exact h.elim

end Sys2Proof.Machine
end

