-- ==== Sys2Proof/Laws/PerInstr.lean ====
section
/-! SUPPORT. A statement made of every instruction, one lemma per constructor: how many bytes its encoding has (30_encoding.md R93, R97,
R103). -/

namespace Sys2Proof.Laws.WordLength

/-- The encoding of a well-formed instruction has the length R97, R103 or R93 gives its row. -/
def Statement (i : Instr) : Prop :=
  ∀ c : Config, i.wf c = true → (encode c i).length = i.size

theorem rxPut (b : Byte) : Statement (.rxPut b) := fun _ _ => rfl
theorem parseStep : Statement .parseStep := fun _ _ => rfl
theorem tick (delta : Word) : Statement (.tick delta) := fun _ _ => rfl
theorem sendReq (dest : Word) (len : Byte) (payload : List Byte) : Statement (.sendReq dest len payload) := by
  intro c h
  have h : payload.length = len.toNat := by simpa [Instr.wf, payloadFits] using h
  simp only [encode, Instr.size, List.length_cons, List.length_append, wordBytes_length]
  omega
theorem cfgWr (reg : Byte) (value : Word) : Statement (.cfgWr reg value) := fun _ _ => rfl
theorem cfgRd (reg : Byte) : Statement (.cfgRd reg) := fun _ _ => rfl
theorem linkInit : Statement .linkInit := fun _ _ => rfl
theorem linkDispatch : Statement .linkDispatch := fun _ _ => rfl
theorem reset : Statement .reset := fun _ _ => rfl
theorem reserved (opcode : Byte) : Statement (.reserved opcode) := fun _ _ => rfl
theorem evSendRequest (dest : Word) (len : Byte) (payload : List Byte) : Statement (.evSendRequest dest len payload) :=
  fun _ _ => rfl
theorem evSendTimeout : Statement .evSendTimeout := fun _ _ => rfl
theorem evFrameReceived (f : Frame) : Statement (.evFrameReceived f) := fun _ _ => rfl
theorem evFrameChecksumError (f : Frame) : Statement (.evFrameChecksumError f) := fun _ _ => rfl
theorem evFrameReceiveTimeout : Statement .evFrameReceiveTimeout := fun _ _ => rfl
theorem frameReq (f : Frame) : Statement (.frameReq f) :=
  fun _ h => serialise_length ((Bool.and_eq_true _ _).mp h).1
theorem frameAck (f : Frame) : Statement (.frameAck f) :=
  fun _ h => serialise_length ((Bool.and_eq_true _ _).mp h).1
theorem frameNack (f : Frame) : Statement (.frameNack f) :=
  fun _ h => serialise_length ((Bool.and_eq_true _ _).mp h).1
theorem frameOther (f : Frame) : Statement (.frameOther f) :=
  fun _ h => serialise_length ((Bool.and_eq_true _ _).mp h).1

end Sys2Proof.Laws.WordLength
end

