-- ==== Sys2Proof/Laws/Send.lean ====
section
/-! SUPPORT. What each handler of the LINK agent can do to an outstanding send, to the send timer and to the fatal state: one
lemma per handler for each of the three. -/

namespace Sys2Proof.Machine

/-! ### The wire bytes tell frames of different types apart -/

/-- The type byte is the tenth on the wire (R90). -/
theorem serialise_type (c : Config) (f : Frame) : (serialise c f)[9]? = some f.type := by
  simp [serialise, Frame.header, wordBytes]

/-- An ACK or NACK the block builds is never the frame it has outstanding (R204). -/
theorem serialise_response_ne {c : Config} (hv : c.valid = true) {f g : Frame} (hf : f.type = c.typeReq)
    (hg : g.type = c.typeAck ∨ g.type = c.typeNack) : serialise c f ≠ serialise c g := by
  intro h
  have h9 := congrArg (fun l => l[9]?) h
  simp only [serialise_type, hf, Option.some.injEq] at h9
  simp only [Config.valid, List.all_cons, Bool.and_eq_true, id, bne_iff_ne, ne_eq] at hv
  rcases hg with hg | hg <;> rw [hg] at h9
  · exact hv.1 h9
  · exact hv.2.1 h9

/-! ### The three effects -/

/-- The only fatal is a failed transport write (R291). -/
def FailsOnlyByWrite (s t : State) : Prop :=
  t.fatal = true → t.fatalCode = 0x03#8 ∧ (drawStatus s).1 = .fail ∧
    ∃ w, t.out = { s.out with txlog := s.out.txlog ++ [.failed w] }

/-- What can happen to an outstanding send's frame and its count: nothing, or one counted retransmission (R186, R191, R201). -/
def CountsRetries (s t : State) : Prop :=
  s.arq.sendState = .sending → ∀ f, txFrame s.cfg s.arq.tx = .ok f →
    t.arq.tx = s.arq.tx ∧ t.arq.sendSeq = s.arq.sendSeq ∧
    ∃ es, t.out.txlog = s.out.txlog ++ es ∧
      ((TxEntry.sent (serialise s.cfg f) ∉ es ∧ t.arq.retry = s.arq.retry) ∨
        (es = [.sent (serialise s.cfg f)] ∧ s.arq.retry.toNat < s.arq.maxRetry.toNat ∧
          t.arq.retry.toNat = s.arq.retry.toNat + 1 ∧ t.arq.maxRetry = s.arq.maxRetry ∧ t.arq.sendState = .sending ∧
          ⟨.sendTmo, s.cfg.tSend⟩ ∈ t.tmList))

/-- R63 (c) is kept. -/
def KeepsIdleTimer (s t : State) : Prop := IdleHasNoSendTimer s → IdleHasNoSendTimer t

theorem FailsOnlyByWrite.of_alive {s t : State} (h : t.fatal = false) : FailsOnlyByWrite s t := by
  intro h'; rw [h] at h'; cases h'

/-- A step that leaves the log, the send frame, its number and the count as they are counts no retry. -/
theorem CountsRetries.of_same {s t : State} (htx : t.arq.tx = s.arq.tx) (hq : t.arq.sendSeq = s.arq.sendSeq)
    (hr : t.arq.retry = s.arq.retry) (ho : t.out.txlog = s.out.txlog) : CountsRetries s t :=
  fun _ _ _ => ⟨htx, hq, [], by simp [ho], .inl ⟨by simp, hr⟩⟩

/-- A step that leaves the send state and the timers as they are keeps R63 (c). -/
theorem KeepsIdleTimer.of_same {s t : State} (hs : t.arq.sendState = s.arq.sendState) (ht : t.tmList = s.tmList) :
    KeepsIdleTimer s t := by
  intro h hi; rw [ht]; exact h (hs ▸ hi)

/-- A step that ends Sending keeps it. -/
theorem KeepsIdleTimer.of_sending {s t : State} (h : t.arq.sendState = .sending) : KeepsIdleTimer s t := by
  intro _ hi; rw [h] at hi; cases hi

/-- Cancelling a timer leaves it not armed (R141). -/
theorem armed_dropKey (k : TimerKey) (l : List TimerEntry) : armed k (dropKey k l) = false := by
  simp [armed, dropKey]

/-- A step that cancels the send timer keeps it. -/
theorem KeepsIdleTimer.of_cancel {s t : State} {l : List TimerEntry} (h : t.tmList = dropKey .sendTmo l) :
    KeepsIdleTimer s t := by
  intro _ _; rw [h]; exact armed_dropKey _ _

/-! ### The frames the block answers -/

/-- Sending an ACK or NACK (R198, R291): nothing but the log, the draw and a fatal of its own. -/
theorem transmit_response {s s0 : State} {g : Frame} (hI : s.Inv) (hf : s.fatal = false)
    (hg : g.type = s.cfg.typeAck ∨ g.type = s.cfg.typeNack) (h0 : ∃ a, s0 = s.setArq { s.arq with recvSeq := a }) :
    Res.All (fun t => FailsOnlyByWrite s t ∧ CountsRetries s t ∧ KeepsIdleTimer s t)
      (transmit g s0) := by
  obtain ⟨a, rfl⟩ := h0
  have hd := drawStatus_congr (s := s.setArq { s.arq with recvSeq := a }) (s' := s) rfl
  rw [transmit_eq, hd.1, hd.2]
  have hne : ∀ f, s.arq.sendState = .sending → txFrame s.cfg s.arq.tx = .ok f → serialise s.cfg f ≠ serialise s.cfg g := by
    intro f hs ht
    obtain ⟨f', h1, -, -, -, h5, -⟩ := hI.arq.sendFrame hs
    rw [ht] at h1; cases h1
    exact serialise_response_ne hI.config h5 hg
  cases hst : (drawStatus s).1
  · refine ⟨.of_alive hf, fun hs f ht => ⟨rfl, rfl, _, rfl, .inl ⟨?_, rfl⟩⟩, .of_same rfl rfl⟩
    simp only [List.mem_singleton, TxEntry.sent.injEq]; exact hne f hs ht
  · exact ⟨fun _ => ⟨rfl, hst, _, rfl⟩, fun hs f ht => ⟨rfl, rfl, _, rfl, .inl ⟨by simp, rfl⟩⟩, .of_same rfl rfl⟩

/-- R189. -/
theorem handleReq_send {s t : State} {f : Frame} (hI : s.Inv) (hf : s.fatal = false)
    (h : (handleReq f s).outcome = .next t) : FailsOnlyByWrite s t ∧ CountsRetries s t ∧ KeepsIdleTimer s t := by
  have ht := transmit_response (g := buildResponse s.cfg s.cfg.typeAck 0#8 f) hI hf (.inl rfl) ⟨some f.seq, rfl⟩
  rw [handleReq] at h
  simp only [] at h
  revert h
  cases htr : transmit (buildResponse s.cfg s.cfg.typeAck 0#8 f) (s.setArq { s.arq with recvSeq := some f.seq }) <;>
    rw [htr] at ht
  · next u =>
    rw [Res.andThen_ok]
    cases payloadBytes f.len f.payload with
    | error e => intro h; cases h
    | ok p =>
      intro h
      obtain ⟨h1, h2, h3⟩ := ht
      rw [Res.ofRead_ok, Res.outcome_ok] at h
      cases h
      have hu : u.fatal = false := by
        rw [transmit_eq] at htr
        revert htr
        cases (drawStatus (s.setArq { s.arq with recvSeq := some f.seq })).1 <;> intro htr <;> cases htr
        exact hf
      exact ⟨.of_alive hu, fun hs g hg => h2 hs g hg, fun hi => h3 hi⟩
  · intro h; cases h; exact ht
  · exact ht.elim

/-- R196. -/
theorem handleChecksumError_send {s t : State} {f : Frame} (hI : s.Inv) (hf : s.fatal = false)
    (h : (handleChecksumError f s).outcome = .next t) : FailsOnlyByWrite s t ∧ CountsRetries s t ∧ KeepsIdleTimer s t := by
  have ht := transmit_response (s0 := s) (g := buildResponse s.cfg s.cfg.typeNack s.cfg.subNackCsum f) hI hf (.inr rfl)
    ⟨s.arq.recvSeq, rfl⟩
  obtain ⟨u, hu, hp⟩ := Res.All.outcome ht
  rw [handleChecksumError, hu] at h
  cases h
  exact hp

/-! ### The outstanding send -/

/-- R186, R191: below the ceiling. -/
theorem retransmit_send {s s0 t : State} (hI : s.Inv) (hf : s.fatal = false) (hs : s.arq.sendState = .sending)
    (hr : s.arq.retry.toNat < s.arq.maxRetry.toNat) (h0 : ∃ tm, s0 = s.setTimers tm) (h : (retransmit s0).outcome = .next t) :
    FailsOnlyByWrite s t ∧ CountsRetries s t ∧ KeepsIdleTimer s t := by
  obtain ⟨tm, rfl⟩ := h0
  obtain ⟨f, h1, -⟩ := hI.arq.sendFrame hs
  have hd := drawStatus_congr (s := s.setTimers tm) (s' := s) rfl
  rw [retransmit_eq (s := s.setTimers tm) (f := f) h1, transmit_eq, hd.1, hd.2] at h
  cases hst : (drawStatus s).1 <;> rw [hst] at h <;> cases h
  · refine ⟨.of_alive hf, fun _ g hg => ?_, .of_sending hs⟩
    rw [h1] at hg; cases hg
    refine ⟨rfl, rfl, _, rfl, .inr ⟨rfl, hr, ?_, rfl, hs, ?_⟩⟩
    · show (s.arq.retry + 1#8).toNat = _; have := s.arq.maxRetry.isLt; bv_omega
    · exact List.mem_append.mpr (.inr (List.mem_singleton.mpr rfl))
  · exact ⟨fun _ => ⟨rfl, hst, _, rfl⟩, fun _ g hg => ⟨rfl, rfl, _, rfl, .inl ⟨by simp, rfl⟩⟩, .of_sending hs⟩

/-- R186 to R188: all but R63 (c), which the abandon of a stale timeout may leave (assumption log 13). -/
theorem handleSendTimeout_send {s t : State} (hI : s.Inv) (hf : s.fatal = false)
    (h : (handleSendTimeout s).outcome = .next t) : FailsOnlyByWrite s t ∧ CountsRetries s t ∧
      (KeepsIdleTimer s t ∨ (s.arq.sendState = .sending ∧ s.arq.maxRetry.toNat ≤ s.arq.retry.toNat ∧
        armed .sendTmo s.tmList = true)) := by
  rw [handleSendTimeout] at h
  split at h
  · cases h; exact ⟨.of_alive hf, .of_same rfl rfl rfl rfl, .inl (.of_same rfl rfl)⟩
  · next hs =>
    split at h
    · next hr =>
      obtain ⟨h1, h2, h3⟩ := retransmit_send (s0 := s) hI hf hs hr ⟨s.tmList, rfl⟩ h
      exact ⟨h1, h2, .inl h3⟩
    · next hr =>
      cases h
      refine ⟨.of_alive hf, .of_same rfl rfl rfl rfl, ?_⟩
      cases ha : armed .sendTmo s.tmList
      · exact .inl fun _ _ => ha
      · exact .inr ⟨hs, by rw [BitVec.lt_def] at hr; omega, rfl⟩

/-- R190, R193. -/
theorem handleAck_send {s t : State} {f : Frame} (hf : s.fatal = false) (h : (handleAck f s).outcome = .next t) :
    FailsOnlyByWrite s t ∧ CountsRetries s t ∧ KeepsIdleTimer s t := by
  rw [handleAck] at h
  cases hm : matchesSend f s with
  | error e => rw [hm] at h; cases h
  | ok hit =>
    rw [hm] at h
    cases hit <;> cases h
    · exact ⟨.of_alive hf, .of_same rfl rfl rfl rfl, .of_same rfl rfl⟩
    · exact ⟨.of_alive hf, .of_same rfl rfl rfl rfl, .of_cancel rfl⟩

/-- R191, R192, R194. -/
theorem handleNack_send {s t : State} {f : Frame} (hI : s.Inv) (hf : s.fatal = false) (hh : s.arq.lstate = .handle)
    (h : (handleNack f s).outcome = .next t) : FailsOnlyByWrite s t ∧ CountsRetries s t ∧ KeepsIdleTimer s t := by
  obtain ⟨q, hq⟩ := Option.isSome_iff_exists.mp (hI.arq.seqWritten hh).1
  rw [handleNack, matchesSend_ok hq, Res.ofRead_ok] at h
  by_cases hc : s.arq.sendState = .sending ∧ f.seq = q
  · rw [decide_eq_true hc] at h
    simp only [if_true] at h
    split at h
    · next hr => exact retransmit_send hI hf hc.1 hr ⟨_, rfl⟩ h
    · cases h; exact ⟨.of_alive hf, .of_same rfl rfl rfl rfl, .of_cancel rfl⟩
  · rw [decide_eq_false hc] at h
    cases h; exact ⟨.of_alive hf, .of_same rfl rfl rfl rfl, .of_same rfl rfl⟩

/-- R195. -/
theorem handleOther_send {s t : State} {f : Frame} (hf : s.fatal = false) (h : (handleOther f s).outcome = .next t) :
    FailsOnlyByWrite s t ∧ CountsRetries s t ∧ KeepsIdleTimer s t := by
  cases h; exact ⟨.of_alive hf, .of_same rfl rfl rfl rfl, .of_same rfl rfl⟩

/-- R189 to R195. -/
theorem handleFrameReceived_send {s t : State} {f : Frame} (hI : s.Inv) (hf : s.fatal = false) (hh : s.arq.lstate = .handle)
    (h : (handleFrameReceived f s).outcome = .next t) : FailsOnlyByWrite s t ∧ CountsRetries s t ∧ KeepsIdleTimer s t := by
  rw [handleFrameReceived] at h
  split at h
  · exact handleReq_send hI hf h
  · exact handleAck_send hf h
  · exact handleNack_send hI hf hh h
  · exact handleOther_send hf h

/-- R197. -/
theorem handleReceiveTimeout_send {s t : State} (hf : s.fatal = false) (h : (handleReceiveTimeout s).outcome = .next t) :
    FailsOnlyByWrite s t ∧ CountsRetries s t ∧ KeepsIdleTimer s t := by
  cases h; exact ⟨.of_alive hf, .of_same rfl rfl rfl rfl, .of_same rfl rfl⟩

/-- R183 to R185: besides a failed write, the two fatals of a SendRequest. -/
theorem handleSendRequest_send {s t : State} {d : Word} {l : Byte} {p : List Byte} (hf : s.fatal = false)
    (h : (handleSendRequest d l p s).outcome = .next t) :
    (FailsOnlyByWrite s t ∨
      (t.fatalCode = 0x01#8 ∧ s.arq.sendState = .sending ∧ t.arq = s.arq ∧ t.out = s.out) ∨
      (t.fatalCode = 0x02#8 ∧ s.arq.sendState = .idle ∧ s.cfg.maxPayload.toNat < l.toNat ∧
        (∃ q, s.arq.sendSeq = some q ∧ t.arq = { s.arq with sendSeq := some (q + 1#8) }) ∧ t.out = s.out)) ∧
      CountsRetries s t ∧ KeepsIdleTimer s t := by
  rw [handleSendRequest] at h
  split at h
  · next hs =>
    cases h
    exact ⟨.inr (.inl ⟨rfl, hs, rfl, rfl⟩), .of_same rfl rfl rfl rfl, .of_sending hs⟩
  · next hs =>
    have hc : ∀ u : State, CountsRetries s u := fun u h => by rw [hs] at h; cases h
    split at h
    · next hl =>
      rw [oversizeSend] at h
      cases hq : s.arq.sendSeq with
      | none => rw [hq] at h; cases h
      | some q =>
        rw [hq] at h; cases h
        exact ⟨.inr (.inr ⟨rfl, hs, hl, ⟨q, rfl, rfl⟩, rfl⟩), hc _, .of_same rfl rfl⟩
    · rw [acceptSend] at h
      cases hq : written s.arq.sendSeq with
      | error e => rw [hq] at h; cases h
      | ok q =>
        cases hp : payloadBytes l p with
        | error e => rw [hq, hp] at h; cases h
        | ok b =>
          cases hm : arrayFill s.cfg.maxPayload.toNat s.arq.tx.payload 0 b with
          | error e => rw [hq, hp, Res.ofRead_ok, Res.ofRead_ok, hm] at h; cases h
          | ok m =>
            rw [hq, hp, Res.ofRead_ok, Res.ofRead_ok, hm, Res.ofRead_ok] at h
            simp only [transmitTx] at h
            cases ht : txFrame (s.setArq (loadSend s.arq (q + 1#8) (requestFrame s.cfg d (q + 1#8) l b) m)).cfg
                (s.setArq (loadSend s.arq (q + 1#8) (requestFrame s.cfg d (q + 1#8) l b) m)).arq.tx with
            | error e => rw [ht] at h; cases h
            | ok g =>
              have hd := drawStatus_congr
                (s := s.setArq (loadSend s.arq (q + 1#8) (requestFrame s.cfg d (q + 1#8) l b) m)) (s' := s) rfl
              rw [ht, Res.ofRead_ok, transmit_eq, hd.1, hd.2] at h
              cases hst : (drawStatus s).1 <;> rw [hst] at h <;> cases h
              · exact ⟨.inl (.of_alive hf), hc _, .of_sending rfl⟩
              · exact ⟨.inl fun _ => ⟨rfl, hst, _, rfl⟩, hc _, .of_sending rfl⟩

end Sys2Proof.Machine
end

