-- ==== Sys2Proof/Tests/Slice0.lean ====
section
/-! SUPPORT. Tests of one step each, with expected results taken from 95_test_vectors.md (named in each comment) or worked out by hand
from the rules; words written out from the encodings of 30_encoding.md; ill-formed terms that the checks refuse; and for every statement
with hypotheses a witness that meets them. -/

namespace Sys2Proof.Tests

open Sys2Proof Sys2Proof.Machine

/-! ### Small states and the frames of 95_test_vectors.md section 0 -/

/-- `A`. -/
def frameA : Frame := ⟨1#32, 2#32, 0x01#8, 0x00#8, 0x05#8, 0#8, [], 0x79#8⟩
/-- `B`. -/
def frameB : Frame := ⟨1#32, 2#32, 0x01#8, 0x00#8, 0x06#8, 1#8, [0x42#8], 0x39#8⟩
/-- `REQ11`. -/
def req11 : Frame := ⟨2#32, 1#32, 0x01#8, 0x00#8, 0x11#8, 3#8, [0x01#8, 0x02#8, 0x03#8], 0x6E#8⟩
/-- `ACK11`. -/
def ack11 : Frame := ⟨1#32, 2#32, 0x02#8, 0x00#8, 0x11#8, 0#8, [], 0x6E#8⟩
/-- `NACK11`. -/
def nack11 : Frame := ⟨1#32, 2#32, 0x03#8, 0x01#8, 0x11#8, 0#8, [], 0x6E#8⟩
/-- The frame of type 0x09 of vector AQ17. -/
def other33 : Frame := ⟨1#32, 2#32, 0x09#8, 0x00#8, 0x33#8, 0#8, [], 0x47#8⟩
/-- The wire bytes of `REQ11`. -/
def req11Bytes : List Byte :=
  [0x7E#8, 0#8, 0#8, 0#8, 2#8, 0#8, 0#8, 0#8, 1#8, 1#8, 0#8, 0x11#8, 3#8, 1#8, 2#8, 3#8, 0x6E#8]
/-- The wire bytes of `ACK_A`. -/
def ackABytes : List Byte := [0x7E#8, 0#8, 0#8, 0#8, 2#8, 0#8, 0#8, 0#8, 1#8, 2#8, 0#8, 5#8, 0#8, 0x7A#8]

/-- The state `H0`, with two transport writes fixed to go through. -/
def h0 : State :=
  (State.reset.setArq ⟨.handle, .idle, some 0x10#8, some 0x40#8, 0#8, 2#8, .unwritten⟩).setEnv ⟨[], [], [.ok, .ok], 0⟩
/-- The state `S1` with an empty `txlog`. -/
def s1 : State :=
  (h0.setArq ⟨.handle, .sending, some 0x11#8, some 0x40#8, 0#8, 2#8, .ofFrame req11 [(0, 1#8), (1, 2#8), (2, 3#8)]⟩).setTimers
    [⟨.sendTmo, 10#32⟩]
/-- `S1` with its retries used up. -/
def s1Last : State := s1.setArq { s1.arq with retry := 2#8 }
/-- A fatal state: `S1` after a second SendRequest (vector AQ7). -/
def dead : State := s1.setFatal true 0x01#8
/-- A state with its event queue full (vector EQ1). -/
def fullQueue (s : State) : State := s.setEvq (List.replicate 8 (.sendRequest 2#32 1#8 [0#8]))
/-- A state with these bytes in the ring, oldest first. -/
def withRing (bs : List Byte) (s : State) : State :=
  s.setRing ⟨(List.range bs.length).zip bs, 0, bs.length % 4, bs.length⟩
/-- `H0` with the parser in a state, its index and its length register set. -/
def inState (p : PState) (idx len : Byte) : State :=
  h0.setParser { h0.parser with pstate := p, pidx := idx, rxLen := some len }
/-- `H0` in FCS with `A` but for its checksum byte taken. -/
def inFcs : State :=
  h0.setParser { h0.parser with
    pstate := .fcs, rxDest := ⟨some 0#8, some 0#8, some 0#8, some 1#8⟩, rxSrc := ⟨some 0#8, some 0#8, some 0#8, some 2#8⟩
    rxType := some 0x01#8, rxSub := some 0x00#8, rxSeq := some 0x05#8, rxLen := some 0#8 }
/-- The next write fixed to fail (WRITE-FAIL). -/
def writeFails (s : State) : State := s.setEnv { s.env with writeDraws := [.fail] }
/-- Command words issued. -/
def issued (bs : List Byte) (s : State) : State := s.setEnv { s.env with script := bs }

/-- What is seen of the next state, if there is one. -/
def observe {α : Type} (o : Host.Outcome State Fault Refusal) (look : State → α) : Option α :=
  match o with
  | .next s => some (look s)
  | .fault _ => none
  | .refused _ => none
/-- Why a step was refused. -/
def refusal (o : Host.Outcome State Fault Refusal) : Option Refusal :=
  match o with
  | .next _ => none
  | .fault _ => none
  | .refused r => some r
/-- Why a step faulted. -/
def faulted (o : Host.Outcome State Fault Refusal) : Option Fault :=
  match o with
  | .next _ => none
  | .fault r => some r
  | .refused _ => none
/-- The instruction a byte string decodes to and how many bytes are left. -/
def read (bs : List Byte) : Option (Instr × Nat) :=
  match decode bs with
  | .ok (i, rest) => some (i, rest.length)
  | .error _ => none
/-- The frame a byte string begins with, as the instruction it is. -/
def readFrame (bs : List Byte) : Option Instr :=
  match decodeFrame Config.tc bs with
  | .ok (f, _) => some (frameInstr Config.tc f)
  | .error _ => none

/-! ### Ill-formed terms -/

theorem test_wf_sendReq_refused : (Instr.sendReq 2#32 3#8 [1#8, 2#8]).wf Config.tc = false := by decide
theorem test_wf_reserved_refused : (Instr.reserved 0x01#8).wf Config.tc = false ∧ (Instr.reserved 0x0F#8).wf Config.tc = false := by decide
theorem test_wf_evSendRequest_refused : (Instr.evSendRequest 2#32 0#8 [1#8]).wf Config.tc = false := by decide
theorem test_wf_evFrameReceived_refused : (Instr.evFrameReceived { frameA with len := 1#8 }).wf Config.tc = false := by decide
theorem test_wf_evFrameChecksumError_refused :
    (Instr.evFrameChecksumError { frameA with len := 17#8, payload := List.replicate 17 0#8 }).wf Config.tc = false := by decide
theorem test_wf_frameReq_refused : (Instr.frameReq ack11).wf Config.tc = false := by decide
theorem test_wf_frameAck_refused : (Instr.frameAck frameA).wf Config.tc = false := by decide
theorem test_wf_frameNack_refused : (Instr.frameNack other33).wf Config.tc = false := by decide
theorem test_wf_frameOther_refused : (Instr.frameOther nack11).wf Config.tc = false := by decide
theorem test_wf_event_refused : (Event.sendRequest 2#32 2#8 [1#8]).wf Config.tc = false ∧
    (Event.frameReceived { frameB with payload := [] }).wf Config.tc = false := by decide
theorem test_wf_accepts : (Instr.sendReq 2#32 3#8 [1#8, 2#8, 3#8]).wf Config.tc = true ∧ (Instr.reserved 0x0E#8).wf Config.tc = true ∧
    (Instr.frameReq frameB).wf Config.tc = true ∧ (Instr.frameOther other33).wf Config.tc = true := by decide
theorem test_config_refused : { Config.tc with typeAck := 0x01#8 }.valid = false ∧ { Config.tc with tRecv := 0#32 }.valid = false ∧
    { Config.tc with rbCap := 0 }.valid = false ∧ { Config.tc with subNackCsum := 0x00#8 }.valid = false := by decide
/-- R8 and D10 give `EVQ_CAP` no upper bound; R58 gives `RB_CAP` one. -/
theorem test_config_capacities : { Config.tc with evqCap := 2 ^ 32 }.valid = true ∧ { Config.tc with evqCap := 0 }.valid = false ∧
    { Config.tc with rbCap := 2 ^ 32 - 1 }.valid = true ∧ { Config.tc with rbCap := 2 ^ 32 }.valid = false := by decide

/-! ### Words written out from R97 and R98, one for each constructor -/

theorem test_word_rxPut : read [0x01#8, 0x7E#8] = some (.rxPut 0x7E#8, 0) := by decide
theorem test_word_parseStep : read [0x02#8, 0x02#8] = some (.parseStep, 1) := by decide
theorem test_word_tick : read [0x03#8, 0x12#8, 0x34#8, 0x56#8, 0x78#8] = some (.tick 0x12345678#32, 0) := by decide
theorem test_word_sendReq : read [0x04#8, 0#8, 0#8, 0#8, 2#8, 3#8, 1#8, 2#8, 3#8] =
    some (.sendReq 2#32 3#8 [1#8, 2#8, 3#8], 0) := by decide
theorem test_word_cfgWr : read [0x05#8, 0x00#8, 0#8, 0#8, 1#8, 3#8] = some (.cfgWr 0x00#8 0x103#32, 0) := by decide
theorem test_word_cfgRd : read [0x06#8, 0x07#8] = some (.cfgRd 0x07#8, 0) := by decide
theorem test_word_linkInit : read [0x07#8] = some (.linkInit, 0) := by decide
theorem test_word_linkDispatch : read [0x08#8] = some (.linkDispatch, 0) := by decide
theorem test_word_reset : read [0x0F#8] = some (.reset, 0) := by decide
theorem test_word_reserved : read [0x09#8, 0x01#8] = some (.reserved 0x09#8, 1) := by decide
theorem test_word_cut_short : read [0x04#8, 0#8, 0#8, 0#8, 2#8, 1#8] = none := by decide

/-- R103's codes, of the five events. -/
theorem test_code_evSendRequest : encode Config.tc (.evSendRequest 2#32 0#8 []) = [0x01#8] := by decide
theorem test_code_evSendTimeout : encode Config.tc .evSendTimeout = [0x02#8] := by decide
theorem test_code_evFrameReceived : encode Config.tc (.evFrameReceived frameA) = [0x03#8] := by decide
theorem test_code_evFrameChecksumError : encode Config.tc (.evFrameChecksumError frameA) = [0x04#8] := by decide
theorem test_code_evFrameReceiveTimeout : encode Config.tc .evFrameReceiveTimeout = [0x05#8] := by decide

/-- The wire bytes of section 0 of 95_test_vectors.md, read as frames. -/
theorem test_wire_frameReq : readFrame [0x7E#8, 0#8, 0#8, 0#8, 1#8, 0#8, 0#8, 0#8, 2#8, 1#8, 0#8, 5#8, 0#8, 0x79#8] =
    some (.frameReq frameA) := by decide
theorem test_wire_frameAck : readFrame [0x7E#8, 0#8, 0#8, 0#8, 1#8, 0#8, 0#8, 0#8, 2#8, 2#8, 0#8, 0x11#8, 0#8, 0x6E#8] =
    some (.frameAck ack11) := by decide
theorem test_wire_frameNack : readFrame [0x7E#8, 0#8, 0#8, 0#8, 1#8, 0#8, 0#8, 0#8, 2#8, 3#8, 1#8, 0x11#8, 0#8, 0x6E#8] =
    some (.frameNack nack11) := by decide
theorem test_wire_frameOther : readFrame [0x7E#8, 0#8, 0#8, 0#8, 1#8, 0#8, 0#8, 0#8, 2#8, 9#8, 0#8, 0x33#8, 0#8, 0x47#8] =
    some (.frameOther other33) := by decide
theorem test_wire_req11 : serialise Config.tc req11 = req11Bytes := by decide

/-! ### One step of each instruction -/

/-- RB1: the fifth byte into a ring of four is answered FULL and lost. -/
theorem test_rxPut_full : observe (exec (.rxPut 0x14#8) (withRing [0x10#8, 0x11#8, 0x12#8, 0x13#8] State.reset))
    (fun t => (t.ring.count, t.ring.mem, t.out.resplog)) =
    some (4, [(0, 0x10#8), (1, 0x11#8), (2, 0x12#8), (3, 0x13#8)], [⟨.full, none⟩]) := by decide
/-- RB3: the tail wraps to index 0. -/
theorem test_rxPut_wraps :
    observe (exec (.rxPut 0x20#8) (State.reset.setRing ⟨[(0, 0x10#8), (1, 0x11#8), (2, 0x12#8), (3, 0x13#8)], 2, 0, 2⟩))
      (fun t => (t.ring, t.out.resplog)) =
    some (⟨[(0, 0x20#8), (1, 0x11#8), (2, 0x12#8), (3, 0x13#8)], 2, 1, 3⟩, [⟨.ok, none⟩]) := by decide
/-- TM1: the sentinel starts a frame and arms the receive timeout. -/
theorem test_parseStep_sof : observe (exec .parseStep (withRing [0x7E#8] h0))
    (fun t => (t.parser.pstate, t.tmList, statusWord t, timersWord t)) =
    some (.destAddr, [⟨.recvTmo, 5#32⟩], 0x00000011#32, 0x2#32) := by decide
/-- PR8: a wrong checksum byte posts FrameChecksumError with the frame as received. -/
theorem test_parseStep_fcs : observe (exec .parseStep (withRing [0x78#8] inFcs)) (fun t => (t.evq, t.parser.pstate)) =
    some ([.frameChecksumError { frameA with fcs := 0x78#8 }], .awaitingSof) := by decide
/-- TM5: both timers fire in one TICK, in list order. -/
theorem test_tick_fires_both : observe (exec (.tick 10#32) (s1.setTimers [⟨.sendTmo, 10#32⟩, ⟨.recvTmo, 5#32⟩]))
    (fun t => (t.tmList, t.evq)) = some ([], [.sendTimeout, .frameReceiveTimeout]) := by decide
/-- TM2: four of five ticks. -/
theorem test_tick_counts : observe (exec (.tick 4#32) (h0.setTimers [⟨.recvTmo, 5#32⟩])) (fun t => (t.tmList, t.evq)) =
    some ([⟨.recvTmo, 1#32⟩], []) := by decide
/-- EQ1 and HC9: a request is queued and answered OK. -/
theorem test_sendReq_posts : observe (exec (.sendReq 2#32 3#8 [1#8, 2#8, 3#8]) h0) (fun t => (t.evq, t.out.resplog)) =
    some ([.sendRequest 2#32 3#8 [1#8, 2#8, 3#8]], [⟨.ok, none⟩]) := by decide
/-- EQ2: the ninth request overflows the queue, with no answer; STATUS reads 0x00000404. -/
theorem test_sendReq_overflows : observe (exec (.sendReq 2#32 1#8 [8#8]) (fullQueue State.reset))
    (fun t => (statusWord t, t.out.resplog, t.evq.length)) = some (0x00000404#32, [], 8) := by decide
/-- HC4: bits [31:8] of the value are dropped. -/
theorem test_cfgWr_maxRetry : observe (exec (.cfgWr 0x00#8 0x103#32) State.reset) (fun t => (t.arq.maxRetry, t.out.resplog)) =
    some (3#8, [⟨.ok, none⟩]) := by decide
/-- HC2: STATUS is read-only. -/
theorem test_cfgWr_status : observe (exec (.cfgWr 0x01#8 1#32) State.reset) (fun t => (t.arq.maxRetry, t.out.resplog)) =
    some (2#8, [⟨.err, none⟩]) := by decide
/-- HC5: SEQ of S1. -/
theorem test_cfgRd_seq : observe (exec (.cfgRd 0x02#8) s1) (fun t => t.out.resplog) = some [⟨.ok, some 0x00004011#32⟩] := by decide
/-- HC1: SEQ in Init is rejected. -/
theorem test_cfgRd_seq_in_init : observe (exec (.cfgRd 0x02#8) State.reset) (fun t => t.out.resplog) = some [⟨.err, none⟩] := by decide
/-- AQ1: the default ceiling overwrites a written one, and the draws are taken send first. -/
theorem test_linkInit : observe (exec .linkInit
      ((State.reset.setArq { State.reset.arq with maxRetry := 5#8 }).setEnv ⟨[], [0x10#8, 0x40#8], [], 0⟩))
    (fun t => (t.arq.lstate, t.arq.sendSeq, t.arq.recvSeq, t.arq.maxRetry)) =
    some (.handle, some 0x10#8, some 0x40#8, 2#8) := by decide
/-- AQ7 and P6: a second request while Sending is fatal; STATUS reads 0x00000107. -/
theorem test_linkDispatch_concurrent : observe (exec .linkDispatch (s1.setEvq [.sendRequest 2#32 1#8 [4#8]]))
    (fun t => (statusWord t, t.tmList, t.out.txlog)) = some (0x00000107#32, [⟨.sendTmo, 10#32⟩], []) := by decide
/-- EQ4: an empty queue gives LINK_DISPATCH no step. -/
theorem test_linkDispatch_empty : refusal (exec .linkDispatch h0) = some .queueEmpty := by decide
/-- FX5: RESET out of a fatal state; STATUS reads 0. -/
theorem test_reset_from_fatal : observe (exec .reset dead) (fun t => (statusWord t, t.tmList, t.arq.sendSeq)) =
    some (0#32, [], none) := by decide
/-- HC6: the word 00 is answered ERR. -/
theorem test_reserved : observe (exec (.reserved 0x00#8) h0) (fun t => (t.out.resplog, t.arq)) = some ([⟨.err, none⟩], h0.arq) := by decide
/-- AQ2: the request is sent as `REQ11`, and the send timeout armed. -/
theorem test_evSendRequest : observe (exec (.evSendRequest 2#32 3#8 [1#8, 2#8, 3#8]) h0)
    (fun t => (t.out.txlog, t.tmList, t.arq.sendState, t.arq.sendSeq)) =
    some ([.sent req11Bytes], [⟨.sendTmo, 10#32⟩], .sending, some 0x11#8) := by decide
/-- AQ6: 17 bytes are fatal; STATUS reads 0x00000205. -/
theorem test_evSendRequest_oversize : observe (exec (.evSendRequest 2#32 17#8 (List.replicate 17 0#8)) h0)
    (fun t => (statusWord t, t.arq.sendSeq, t.out.txlog)) = some (0x00000205#32, some 0x11#8, []) := by decide
/-- AQ8: a timeout sends `REQ11` again. -/
theorem test_evSendTimeout : observe (exec .evSendTimeout (s1.setTimers [])) (fun t => (t.out.txlog, t.arq.retry, t.tmList)) =
    some ([.sent req11Bytes], 1#8, [⟨.sendTmo, 10#32⟩]) := by decide
/-- E6: at the ceiling the send fails. -/
theorem test_evSendTimeout_last : observe (exec .evSendTimeout s1Last) (fun t => (t.out.notelog, t.arq.sendState)) =
    some ([.sendFail], .idle) := by decide
/-- E7: `A` is acknowledged and delivered. -/
theorem test_evFrameReceived : observe (exec (.evFrameReceived frameA) h0) (fun t => (t.out.txlog, t.out.notelog, t.arq.recvSeq)) =
    some ([.sent ackABytes], [.deliver 0#8 []], some 5#8) := by decide
/-- AQ18: a checksum error is answered with a NACK. -/
theorem test_evFrameChecksumError : observe (exec (.evFrameChecksumError { frameA with fcs := 0x78#8 }) h0)
    (fun t => (t.out.txlog, t.out.notelog, t.arq.recvSeq)) =
    some ([.sent [0x7E#8, 0#8, 0#8, 0#8, 2#8, 0#8, 0#8, 0#8, 1#8, 3#8, 1#8, 5#8, 0#8, 0x7A#8]], [], some 0x40#8) := by decide
/-- AQ20: the parser is reset. -/
theorem test_evFrameReceiveTimeout : observe (exec .evFrameReceiveTimeout (inState .srcAddr 2#8 0#8))
    (fun t => (t.parser.pstate, t.parser.pidx)) = some (.awaitingSof, 0#8) := by decide
/-- AQ10: a REQ while Sending is acknowledged and delivered, and the send stays. -/
theorem test_frameReq : observe (exec (.frameReq ⟨1#32, 2#32, 1#8, 0#8, 0x33#8, 2#8, [0xCA#8, 0xFE#8], 0x79#8⟩) s1)
    (fun t => (t.out.txlog, t.out.notelog, t.arq.sendState, t.tmList)) =
    some ([.sent [0x7E#8, 0#8, 0#8, 0#8, 2#8, 0#8, 0#8, 0#8, 1#8, 2#8, 0#8, 0x33#8, 0#8, 0x4C#8]],
      [.deliver 2#8 [0xCA#8, 0xFE#8]], .sending, [⟨.sendTmo, 10#32⟩]) := by decide
/-- AQ11: an ACK matches on its sequence number alone. -/
theorem test_frameAck : observe (exec (.frameAck ⟨0x99#32, 0x77#32, 2#8, 5#8, 0x11#8, 1#8, [0xEE#8], 0x69#8⟩) s1)
    (fun t => (t.out.notelog, t.tmList, t.arq.sendState)) = some ([.sendOk], [], .idle) := by decide
/-- E5: a stale ACK is ignored. -/
theorem test_frameAck_stale : exec (.frameAck { ack11 with seq := 0x10#8 }) s1 = .next s1 := by rfl
/-- AQ12: a NACK sends `REQ11` again and re-arms the timeout. -/
theorem test_frameNack : observe (exec (.frameNack nack11) s1) (fun t => (t.out.txlog, t.arq.retry, t.tmList)) =
    some ([.sent req11Bytes], 1#8, [⟨.sendTmo, 10#32⟩]) := by decide
/-- AQ13: a NACK at the ceiling abandons and leaves no timer. -/
theorem test_frameNack_last : observe (exec (.frameNack nack11) s1Last) (fun t => (t.out.notelog, t.arq.sendState, t.tmList)) =
    some ([.sendFail], .idle, []) := by decide
/-- AQ17: a frame of an unknown type changes nothing. -/
theorem test_frameOther : exec (.frameOther other33) h0 = .next h0 := by rfl

/-! ### The step, the stops and the model's own faults -/

/-- A step takes one word and leaves the rest of the script. -/
theorem test_step_takes_one_word : observe (step (issued [0x06#8, 0x04#8, 0x0F#8] h0)) (fun t => (t.out.resplog, t.env.script)) =
    some ([⟨.ok, some 1#32⟩], [0x0F#8]) := by decide
/-- The word TICK 10 placed as a table word runs as the first step after reset. -/
theorem test_withFetchWord : observe (step (State.reset.withFetchWord 40 0x0A00000003)) (fun t => t.tmList) = some [] := by decide
/-- RB4, RB5, HC7. -/
theorem test_no_step : refusal (exec .parseStep State.reset) = some .ringEmpty ∧ refusal (exec (.rxPut 0x7E#8) dead) = some .fatalState ∧
    refusal (exec (.cfgWr 0x00#8 1#32) dead) = some .fatalState ∧ refusal (step State.reset) = some .scriptEmpty := by decide
/-- R64: reading a send sequence number that nothing has written is a fault of the model. -/
theorem test_unwritten_read : faulted (exec .evSendTimeout (s1.setArq { s1.arq with tx := .unwritten })) = some .unwrittenRead := by decide
/-- The memory of the state after reset is in canonical form. -/
theorem test_reset_memory_wf : State.reset.ring.mem.wf = true ∧ State.reset.parser.rxPayload.wf = true ∧
    State.reset.arq.tx.payload.wf = true := by decide

/-! ### Witnesses: states and operands that meet the hypotheses of the statements -/

/-- The state after reset meets the invariant. -/
theorem test_reset_inv : State.reset.Inv where
  config := by decide
  ring := ⟨by decide, by decide, by decide, by decide, by decide, by decide⟩
  parser := ⟨rfl, by decide, by decide, by decide, by decide, by decide, by simp [State.reset, State.resetWith, PState.code],
    by decide, by decide, by decide⟩
  timers := ⟨by decide, by decide⟩
  queue := ⟨by decide, by decide⟩
  arq := ⟨(fun h => by cases h), by decide, by decide, by decide, by decide⟩
  fatal := rfl
/-- `H0` meets it. -/
theorem test_h0_inv : h0.Inv :=
  { test_reset_inv with arq := ⟨(fun h => by cases h), by decide, by decide, by decide, by decide⟩ }
/-- An engine with `REQ11` outstanding meets its part, whatever its retry count. -/
theorem test_sending_inv (r : Byte) : Arq.Inv Config.tc { s1.arq with retry := r } :=
  ⟨fun _ => ⟨req11, rfl, rfl, by decide, rfl, rfl, rfl, by decide⟩, fun _ => ⟨rfl, rfl⟩, (fun h => by cases h), rfl, rfl⟩
/-- `S1` meets it. -/
theorem test_s1_inv : s1.Inv :=
  { test_reset_inv with timers := ⟨by decide, by decide⟩, arq := test_sending_inv 0#8 }
/-- So does `S1` with a timeout or a request queued. -/
theorem test_s1_queued_inv (ev : Event) (h : ev.wf Config.tc = true) : (s1.setEvq [ev]).Inv :=
  { test_s1_inv with queue := ⟨by show 1 ≤ 8; decide, fun x hx => by rcases List.mem_singleton.mp hx with rfl; exact h⟩ }

theorem test_witness_CommandWordRoundTrip :
    (Instr.sendReq 2#32 3#8 [1#8, 2#8, 3#8]).isCommand = true ∧ (Instr.sendReq 2#32 3#8 [1#8, 2#8, 3#8]).wf Config.tc = true := by decide
theorem test_witness_DecodedBytesAreTheCommandWord :
    decode [0x04#8, 0#8, 0#8, 0#8, 2#8, 1#8, 0x42#8, 0x08#8] = .ok (.sendReq 2#32 1#8 [0x42#8], [0x08#8]) := by rfl
theorem test_witness_CutShortWordIsNoCommand : (Instr.tick 10#32).isCommand = true ∧ (Instr.tick 10#32).wf Config.tc = true ∧
    0 < (encode Config.tc (.tick 10#32)).length ∧ 4 < (encode Config.tc (.tick 10#32)).length := by decide
theorem test_witness_ReservedOpcodesAnswerErr : (0x00#8).toNat = 0 ∧ 9 ≤ (0x09#8).toNat ∧ (0x0E#8).toNat ≤ 0x0E ∧ 0x10 ≤ (0x10#8).toNat ∧
    0x10 ≤ (0xFF#8).toNat := by decide
theorem test_witness_FrameWireRoundTrip : frameA.wf Config.tc = true ∧
    ({ frameA with len := 16#8, payload := List.replicate 16 0#8 } : Frame).wf Config.tc = true := by decide
theorem test_witness_FrameTypeSelectsItsRow : h0.cfg.valid = true ∧ frameA.type = h0.cfg.typeReq ∧ ack11.type = h0.cfg.typeAck ∧
    nack11.type = h0.cfg.typeNack ∧ other33.type ≠ h0.cfg.typeReq ∧ other33.type ≠ h0.cfg.typeAck ∧ other33.type ≠ h0.cfg.typeNack ∧
    h0.Inv ∧ h0.fatal = false ∧ h0.arq.lstate = .handle ∧ frameA.wf h0.cfg = true :=
  ⟨by decide, by decide, by decide, by decide, by decide, by decide, by decide, test_h0_inv, by decide, by decide, by decide⟩
theorem test_witness_StepRunsDecodedInstruction : (issued [0x02#8] h0).cfg.valid = true ∧
    decode (issued [0x02#8] h0).env.script = .ok (.parseStep, []) := ⟨by decide, rfl⟩
theorem test_witness_StepStopsWithoutAnInstruction :
    (State.resetWith { Config.tc with rbCap := 0 }).cfg.valid = false ∧
    h0.cfg.valid = true ∧ decode h0.env.script = .error .noWord ∧
    (issued [0x01#8] h0).cfg.valid = true ∧ decode (issued [0x01#8] h0).env.script = .error .cutShort :=
  ⟨by decide, by decide, rfl, by decide, rfl⟩
theorem test_witness_RegistersAfterReset : 0x08 ≤ (0x08#8).toNat := by decide
theorem test_witness_ResetMeetsInvariant : Config.tc.valid = true := by decide
theorem test_witness_RxPutAppendsOrAnswersFull : dead.fatal = true ∧
    (withRing [1#8, 2#8, 3#8, 4#8] h0).fatal = false ∧ (withRing [1#8, 2#8, 3#8, 4#8] h0).ring.count = h0.cfg.rbCap ∧
    (withRing [1#8, 2#8, 3#8] h0).ring.count ≠ h0.cfg.rbCap ∧ (withRing [1#8, 2#8, 3#8] h0).ring.tail < h0.cfg.rbCap := by decide
theorem test_witness_ByteStoresTouchOneElement :
    (∃ t, exec (.rxPut 9#8) (withRing [1#8] h0) = .next t ∧ 0 ≠ (withRing [1#8] h0).ring.tail) ∧
    (∃ t, exec .parseStep (withRing [1#8] (inState .data 1#8 2#8)) = .next t ∧ 0 ≠ (inState .data 1#8 2#8).parser.pidx.toNat) :=
  ⟨⟨_, rfl, by decide⟩, ⟨_, rfl, by decide⟩⟩
theorem test_witness_RingIsFifo : h0.ring.Inv h0.cfg ∧ (∃ s', rbPut 9#8 h0 = .ok (some s')) ∧
    (∃ s', rbGet (withRing [1#8, 2#8] h0) = .ok (some (1#8, s'))) ∧ rbGet h0 = .ok none :=
  ⟨test_h0_inv.ring, ⟨_, rfl⟩, ⟨_, rfl⟩, rfl⟩
theorem test_witness_RingIsFifo_get : (withRing [1#8, 2#8, 3#8, 4#8] h0).ring.Inv h0.cfg :=
  ⟨by decide, by decide, by decide, by decide, by decide, by decide⟩
/-- An oldest byte, for the parser's transitions. -/
theorem test_oldest (b : Byte) (s : State) (hc : s.cfg.rbCap = 4) : OldestByte (withRing [b] s) b :=
  ⟨by show 1 ≠ 0; decide, by show 0 < s.cfg.rbCap; omega, rfl⟩
theorem test_witness_AwaitingSofTransition : (withRing [0x7E#8] h0).fatal = false ∧ OldestByte (withRing [0x7E#8] h0) 0x7E#8 ∧
    (withRing [0x7E#8] h0).parser.pstate = .awaitingSof := ⟨by decide, test_oldest _ _ rfl, rfl⟩
theorem test_witness_AddressByteTransitions :
    ((withRing [1#8] (inState .destAddr 0#8 0#8)).fatal = false ∧ OldestByte (withRing [1#8] (inState .destAddr 0#8 0#8)) 1#8 ∧
      (inState .destAddr 0#8 0#8).parser.pidx.toNat ≤ 3 ∧ (inState .destAddr 0#8 0#8).parser.pstate = .destAddr) ∧
    ((withRing [1#8] (inState .srcAddr 3#8 0#8)).fatal = false ∧ OldestByte (withRing [1#8] (inState .srcAddr 3#8 0#8)) 1#8 ∧
      (inState .srcAddr 3#8 0#8).parser.pidx.toNat ≤ 3 ∧ (inState .srcAddr 3#8 0#8).parser.pstate = .srcAddr) :=
  ⟨⟨by decide, test_oldest _ _ rfl, by decide, rfl⟩, ⟨by decide, test_oldest _ _ rfl, by decide, rfl⟩⟩
theorem test_witness_HeaderByteTransitions : ∀ p ∈ [PState.type, PState.subType, PState.seqNum],
    (withRing [1#8] (inState p 0#8 0#8)).fatal = false ∧ OldestByte (withRing [1#8] (inState p 0#8 0#8)) 1#8 ∧
      (inState p 0#8 0#8).parser.pstate = p :=
  fun _ _ => ⟨rfl, test_oldest _ _ rfl, rfl⟩
theorem test_witness_LenTransition : (withRing [17#8] (inState .len 0#8 0#8)).fatal = false ∧
    OldestByte (withRing [17#8] (inState .len 0#8 0#8)) 17#8 ∧ (inState .len 0#8 0#8).parser.pstate = .len :=
  ⟨by decide, test_oldest _ _ rfl, rfl⟩
theorem test_witness_DataTransition : (withRing [1#8] (inState .data 15#8 16#8)).fatal = false ∧
    OldestByte (withRing [1#8] (inState .data 15#8 16#8)) 1#8 ∧ (inState .data 15#8 16#8).parser.pstate = .data ∧
    (inState .data 15#8 16#8).parser.rxLen = some 16#8 ∧ (inState .data 15#8 16#8).parser.pidx.toNat < (16#8).toNat ∧
    (16#8).toNat ≤ h0.cfg.maxPayload.toNat := ⟨by decide, test_oldest _ _ rfl, rfl, rfl, by decide, by decide⟩
theorem test_witness_FcsTransition : (withRing [0x79#8] inFcs).fatal = false ∧ OldestByte (withRing [0x79#8] inFcs) 0x79#8 ∧
    inFcs.parser.pstate = .fcs ∧ rxSnapshot inFcs.cfg { inFcs.parser with rxFcs := some 0x79#8 } = .ok frameA :=
  ⟨by decide, test_oldest _ _ rfl, rfl, rfl⟩
theorem test_witness_ParserTakesAWholeFrame : h0.Inv ∧ h0.fatal = false ∧ h0.parser.pstate = .awaitingSof ∧ h0.ring.count = 0 ∧
    h0.evq.length < h0.cfg.evqCap ∧ frameB.wf h0.cfg = true :=
  ⟨test_h0_inv, by decide, by decide, by decide, by decide, by decide⟩
theorem test_witness_ParserRecoversAfterOversizedLength : h0.Inv ∧ h0.fatal = false ∧ h0.parser.pstate = .awaitingSof ∧
    h0.ring.count = 0 ∧ h0.evq.length < h0.cfg.evqCap ∧ h0.cfg.maxPayload.toNat < ({ frameA with len := 17#8 } : Frame).len.toNat ∧
    h0.cfg.sofValue ∉ [0x79#8, 0x00#8] ∧ frameB.wf h0.cfg = true ∧ checksum h0.cfg frameB = frameB.fcs :=
  ⟨test_h0_inv, by decide, by decide, by decide, by decide, by decide, by decide, by decide, by decide⟩
theorem test_witness_SingleBitFlipsAreDetected : checksum Config.tc req11 = req11.fcs ∧ req11.payload.length = req11.len.toNat ∧
    2 < req11.payload.length := by decide
theorem test_witness_TransmittedFramesAreValid : s1.Inv ∧ (∃ t, exec .evSendTimeout s1 = .next t ∧ t.out.txlog ≠ []) ∧
    (∃ t, exec .evSendTimeout (writeFails s1) = .next t ∧ t.out.txlog ≠ []) :=
  ⟨test_s1_inv, ⟨_, rfl, by decide⟩, ⟨_, rfl, by decide⟩⟩
theorem test_witness_TickFiresExpiredTimersInOrder : s1.fatal = false ∧
    s1.evq.length + (s1.tmList.filter (fun e => decide (e.remaining.toNat ≤ (10#32).toNat))).length ≤ s1.cfg.evqCap := by decide
theorem test_witness_TickOverflowIsFatal : (fullQueue s1).fatal = false ∧ (fullQueue s1).evq.length ≤ s1.cfg.evqCap ∧
    s1.cfg.evqCap < (fullQueue s1).evq.length +
      ((fullQueue s1).tmList.filter (fun e => decide (e.remaining.toNat ≤ (10#32).toNat))).length := by decide
theorem test_witness_TimerSetAndCancel : armed .recvTmo s1.tmList = false ∧ TimersInv s1.tmList ∧ 5#32 ≠ 0#32 :=
  ⟨by decide, test_s1_inv.timers, by decide⟩
theorem test_witness_SendReqPostsItsRequest : [1#8, 2#8, 3#8].length = (3#8).toNat ∧ dead.fatal = true ∧ h0.fatal = false ∧
    h0.evq.length ≠ h0.cfg.evqCap ∧ (fullQueue h0).fatal = false ∧ (fullQueue h0).evq.length = h0.cfg.evqCap := by decide
theorem test_witness_CfgWrWritesOnlyMaxRetry : dead.fatal = true ∧ h0.fatal = false := by decide
theorem test_witness_CfgRdAnswersWithoutSideEffect :
    (s1.arq.lstate = .handle → s1.arq.sendSeq.isSome = true ∧ s1.arq.recvSeq.isSome = true) ∧ s1.arq.lstate = .handle ∧
    s1.arq.sendSeq = some 0x11#8 ∧ s1.arq.recvSeq = some 0x40#8 ∧
    (State.reset.arq.lstate = .handle → State.reset.arq.sendSeq.isSome = true ∧ State.reset.arq.recvSeq.isSome = true) ∧
    State.reset.arq.lstate = .init ∧ 0x08 ≤ (0x08#8).toNat ∧ s1.evq.length < 2 ^ 32 := by decide
theorem test_witness_LinkInitSetsUpTheEngine : dead.fatal = true ∧ h0.fatal = false ∧ h0.arq.lstate = .handle ∧
    State.reset.fatal = false ∧ State.reset.arq.lstate = .init ∧
    (State.reset.setEnv ⟨[], [0x10#8, 0x40#8], [], 0⟩).env.seqDraws = 0x10#8 :: 0x40#8 :: [] := by decide
theorem test_witness_LinkDispatchRunsTheOldestEvent : dead.fatal = true ∧ State.reset.fatal = false ∧ State.reset.arq.lstate = .init ∧
    h0.fatal = false ∧ h0.arq.lstate = .handle ∧ h0.evq = [] ∧
    (s1.setEvq [.sendTimeout]).Inv ∧ s1.fatal = false ∧ s1.arq.lstate = .handle ∧ (s1.setEvq [.sendTimeout]).evq = .sendTimeout :: [] :=
  ⟨by decide, by decide, by decide, by decide, by decide, by decide, test_s1_queued_inv _ rfl, by decide, by decide, rfl⟩
theorem test_witness_RefusedSendRequestsAreFatal : s1.fatal = false ∧ s1.arq.lstate = .handle ∧ s1.arq.sendState = .sending ∧
    h0.fatal = false ∧ h0.arq.lstate = .handle ∧ h0.arq.sendState = .idle ∧ h0.arq.sendSeq = some 0x10#8 ∧
    h0.cfg.maxPayload.toNat < (17#8).toNat := by decide
theorem test_witness_SendRequestWhileIdleIsSent : h0.fatal = false ∧ h0.arq.lstate = .handle ∧ h0.arq.sendState = .idle ∧
    h0.arq.sendSeq = some 0x10#8 ∧ (List.replicate 16 (0#8 : Byte)).length = (16#8).toNat ∧
    (16#8).toNat ≤ h0.cfg.maxPayload.toNat := by decide
theorem test_witness_SendTimeoutRetriesOrAbandons : h0.fatal = false ∧ h0.arq.lstate = .handle ∧ h0.arq.sendState = .idle ∧
    s1Last.fatal = false ∧ s1Last.arq.lstate = .handle ∧ s1Last.arq.sendState = .sending ∧
    s1Last.arq.maxRetry.toNat ≤ s1Last.arq.retry.toNat ∧ s1.arq.retry.toNat < s1.arq.maxRetry.toNat ∧
    txFrame s1.cfg s1.arq.tx = .ok req11 :=
  ⟨by decide, by decide, by decide, by decide, by decide, by decide, by decide, by decide, rfl⟩
theorem test_witness_ReceivedReqIsAcknowledgedAndDelivered : s1.fatal = false ∧ s1.arq.lstate = .handle ∧
    frameB.payload.length = frameB.len.toNat := by decide
theorem test_witness_ReceivedAckCompletesOrIsIgnored : s1.fatal = false ∧ s1.arq.lstate = .handle ∧ s1.arq.sendSeq = some 0x11#8 := by decide
theorem test_witness_ReceivedNackRetriesAbandonsOrIsIgnored : s1.fatal = false ∧ s1.arq.lstate = .handle ∧
    s1.arq.sendSeq = some 0x11#8 ∧ s1.arq.sendState = .sending ∧ nack11.seq = 0x11#8 ∧
    s1.arq.retry.toNat < s1.arq.maxRetry.toNat ∧ txFrame s1.cfg s1.arq.tx = .ok req11 ∧
    s1Last.arq.sendSeq = some 0x11#8 ∧ s1Last.arq.maxRetry.toNat ≤ s1Last.arq.retry.toNat ∧
    h0.arq.sendState = .idle ∧ frameA.seq ≠ 0x11#8 :=
  ⟨by decide, by decide, by decide, by decide, by decide, by decide, rfl, by decide, by decide, by decide, by decide⟩
theorem test_witness_ReceivedOtherFrameIsIgnored : h0.fatal = false ∧ h0.arq.lstate = .handle ∧ h0.cfg.valid = true ∧
    other33.type ≠ h0.cfg.typeReq ∧ other33.type ≠ h0.cfg.typeAck ∧ other33.type ≠ h0.cfg.typeNack := by decide
theorem test_witness_ChecksumErrorIsNacked : s1.fatal = false ∧ s1.arq.lstate = .handle := by decide
theorem test_witness_ReceiveTimeoutResetsTheParser : (inState .srcAddr 2#8 0#8).fatal = false ∧
    (inState .srcAddr 2#8 0#8).arq.lstate = .handle := by decide
theorem test_witness_UnansweredSendEndsAfterItsRetries : s1.Inv ∧ s1.fatal = false ∧ s1.arq.lstate = .handle ∧
    s1.arq.sendState = .sending ∧ txFrame s1.cfg s1.arq.tx = .ok req11 ∧ s1.evq = [] ∧ s1.tmList = [⟨.sendTmo, s1.cfg.tSend⟩] ∧
    s1.arq.retry.toNat + 2 = s1.arq.maxRetry.toNat ∧ s1.env.writeDraws = List.replicate 2 .ok ++ [] :=
  ⟨test_s1_inv, by decide, by decide, by decide, rfl, by decide, by decide, by decide, by decide⟩
theorem test_witness_FatalIsQuiescentUntilReset : dead.fatal = true ∧ (∀ reg, Instr.parseStep ≠ .cfgRd reg) ∧
    (∀ op, Instr.parseStep ≠ .reserved op) ∧ Instr.parseStep ≠ .reset ∧ (∃ t, exec (.cfgRd 0x01#8) dead = .next t) :=
  ⟨by decide, fun _ => by simp, fun _ => by simp, by simp, ⟨_, rfl⟩⟩
/-- One state and instruction for each of the four causes. -/
theorem test_witness_FatalHasOnlyItsFourCauses : s1.Inv ∧ s1.fatal = false ∧ h0.Inv ∧ h0.fatal = false ∧
    (∃ t, exec (.evSendRequest 2#32 1#8 [4#8]) s1 = .next t ∧ t.fatal = true ∧ t.fatalCode = 0x01#8) ∧
    (∃ t, exec (.evSendRequest 2#32 17#8 (List.replicate 17 0#8)) h0 = .next t ∧ t.fatal = true ∧ t.fatalCode = 0x02#8) ∧
    (∃ t, exec .evSendTimeout (writeFails s1) = .next t ∧ t.fatal = true ∧ t.fatalCode = 0x03#8) ∧
    (∃ t, exec (.sendReq 2#32 1#8 [8#8]) (fullQueue h0) = .next t ∧ t.fatal = true ∧ t.fatalCode = 0x04#8) :=
  ⟨test_s1_inv, by decide, test_h0_inv, by decide, ⟨_, rfl, by decide⟩, ⟨_, rfl, by decide⟩, ⟨_, rfl, by decide⟩, ⟨_, rfl, by decide⟩⟩
/-- The first two causes met by LINK_DISPATCH, and the others with their further clauses. -/
theorem test_witness_FatalHasOnlyItsFourCauses_dispatch :
    (∃ t, exec .linkDispatch (s1.setEvq [.sendRequest 2#32 1#8 [4#8]]) = .next t ∧ t.fatalCode = 0x01#8 ∧
      RunsHandler (.sendRequest 2#32 1#8 [4#8]) .linkDispatch (s1.setEvq [.sendRequest 2#32 1#8 [4#8]])) ∧
    (∃ t, exec .linkDispatch (h0.setEvq [.sendRequest 2#32 17#8 (List.replicate 17 0#8)]) = .next t ∧ t.fatalCode = 0x02#8 ∧
      t.arq.sendSeq = some 0x11#8) ∧
    (∃ t, exec .linkDispatch (writeFails (s1.setEvq [.sendTimeout])) = .next t ∧ t.fatalCode = 0x03#8) ∧
    (∃ t, exec .parseStep (withRing [0x79#8] (fullQueue inFcs)) = .next t ∧ t.fatalCode = 0x04#8) :=
  ⟨⟨_, rfl, by decide, .inr ⟨rfl, rfl⟩⟩, ⟨_, rfl, by decide, by decide⟩, ⟨_, rfl, by decide⟩, ⟨_, rfl, by decide⟩⟩
theorem test_witness_fatal_states_inv : (writeFails s1).Inv ∧ (fullQueue h0).Inv :=
  ⟨{ test_s1_inv with }, { test_h0_inv with queue := ⟨by decide, by decide⟩ }⟩
theorem test_witness_OnlyLinkTransmits : ∃ t, exec (.evFrameReceived frameA) h0 = .next t ∧ t.out.txlog ≠ [] := ⟨_, rfl, by decide⟩
theorem test_witness_EventQueueIsFifo :
    (∃ t, exec .linkDispatch (s1.setEvq [.sendTimeout, .frameReceiveTimeout]) = .next t ∧ t.evq = [.frameReceiveTimeout]) ∧
    (∃ t, exec (.tick 10#32) s1 = .next t ∧ t.evq = [.sendTimeout]) := ⟨⟨_, rfl, rfl⟩, ⟨_, rfl, by decide⟩⟩
theorem test_witness_SharedElementsHaveTheirWriters :
    (∃ t, exec .parseStep (withRing [0x7E#8] h0) = .next t ∧ t.parser ≠ h0.parser ∧ t.tmList ≠ h0.tmList) ∧
    (∃ t, exec (.sendReq 2#32 0#8 []) h0 = .next t ∧ t.evq ≠ h0.evq) ∧ (∃ t, exec (.rxPut 1#8) h0 = .next t ∧ t.ring ≠ h0.ring) ∧
    (∃ t, exec (.cfgWr 0x00#8 5#32) h0 = .next t ∧ t.arq.maxRetry ≠ h0.arq.maxRetry) ∧
    (∃ t, exec (.evFrameReceived frameA) h0 = .next t ∧ { t.arq with maxRetry := h0.arq.maxRetry } ≠ h0.arq) :=
  ⟨⟨_, rfl, by decide, by decide⟩, ⟨_, rfl, by decide⟩, ⟨_, rfl, by decide⟩, ⟨_, rfl, by decide⟩, ⟨_, rfl, by decide⟩⟩
theorem test_witness_ParametersStayAndRecordsOnlyGrow : ∃ t, step (issued [0x06#8, 0x00#8] h0) = .next t := ⟨_, rfl⟩
theorem test_witness_HandleIsLeftOnlyByReset : (∃ t, exec .parseStep (withRing [0#8] h0) = .next t) ∧ h0.arq.lstate = .handle ∧
    State.reset.arq.lstate = .init ∧ (∃ t, exec .linkInit State.reset = .next t ∧ t.arq.lstate = .handle) :=
  ⟨⟨_, rfl⟩, rfl, rfl, ⟨_, rfl, rfl⟩⟩
theorem test_witness_SendEndsOnlyWithANotification : s1.Inv ∧ s1.arq.sendState = .sending ∧
    (∃ t, exec (.frameAck ack11) s1 = .next t ∧ t.arq.sendState = .idle) := ⟨test_s1_inv, rfl, ⟨_, rfl, by decide⟩⟩
theorem test_witness_EveryStepKeepsTheInvariant : (issued [0x06#8, 0x02#8] s1).Inv ∧
    (∃ t, step (issued [0x06#8, 0x02#8] s1) = .next t) ∧
    (issued [0x01#8, 0x7E#8] h0).Inv ∧ (∃ t, step (issued [0x01#8, 0x7E#8] h0) = .next t) ∧
    (issued [0x01#8, 0x7E#8] h0).arq.sendState = .idle ∧ IdleHasNoSendTimer (issued [0x01#8, 0x7E#8] h0) :=
  ⟨{ test_s1_inv with }, ⟨_, rfl⟩, { test_h0_inv with }, ⟨_, rfl⟩, rfl, fun _ => rfl⟩
theorem test_witness_InvariantStatesNeverFault : s1.Inv := test_s1_inv
theorem test_witness_EnabledInstructionsComplete : s1.Inv ∧ (Instr.frameAck ack11).wf s1.cfg = true ∧ Enabled (.frameAck ack11) s1 ∧
    Instr.parseStep.wf s1.cfg = true ∧ ¬ Enabled .parseStep s1 :=
  ⟨test_s1_inv, by decide, ⟨by decide, by decide⟩, by decide, fun h => h.2 rfl⟩
/-- A stale timeout at the ceiling leaves the newer send's timer armed. -/
theorem test_stale_timeout_leaves_timer : observe (step (issued [0x08#8] (s1Last.setEvq [.sendTimeout])))
    (fun t => (t.arq.sendState, t.tmList, t.out.notelog)) = some (.idle, [⟨.sendTmo, 10#32⟩], [.sendFail]) := by decide
/-- A state of the first clause, and for the second clause a step that keeps R63 (c) and one that does not. -/
theorem test_witness_StaleTimeoutBreaksIdleTimerClause :
    (s1Last.setEvq [.sendTimeout]).Inv ∧ s1Last.fatal = false ∧ s1Last.arq.lstate = .handle ∧ s1Last.arq.sendState = .sending ∧
    s1Last.arq.maxRetry.toNat ≤ s1Last.arq.retry.toNat ∧ armed .sendTmo s1Last.tmList = true ∧
    IdleHasNoSendTimer s1 ∧ (∃ t, exec (.frameAck ack11) s1 = .next t ∧ t.arq.sendState = .idle ∧ IdleHasNoSendTimer t) ∧
    IdleHasNoSendTimer s1Last ∧ (∃ t, exec .evSendTimeout s1Last = .next t ∧ t.arq.sendState = .idle) :=
  ⟨{ test_reset_inv with timers := ⟨by decide, by decide⟩, arq := test_sending_inv 2#8, queue := ⟨by decide, by decide⟩ },
    rfl, rfl, rfl, by decide, by decide, (fun h => by cases h), ⟨_, rfl, rfl, fun _ => by decide⟩, (fun h => by cases h), ⟨_, rfl, rfl⟩⟩
/-- A step that sends the outstanding frame again, and one that sends another. -/
theorem test_witness_RetransmissionsAreCounted : s1.Inv ∧ s1.arq.sendState = .sending ∧ txFrame s1.cfg s1.arq.tx = .ok req11 ∧
    (∃ t, exec .evSendTimeout s1 = .next t ∧ t.out.txlog = [.sent req11Bytes] ∧ t.arq.retry = 1#8) ∧
    (∃ t, exec (.evFrameReceived frameA) s1 = .next t ∧ t.out.txlog = [.sent ackABytes] ∧ t.arq.retry = 0#8) :=
  ⟨test_s1_inv, rfl, rfl, ⟨_, rfl, by decide, by decide⟩, ⟨_, rfl, by decide, by decide⟩⟩

end Sys2Proof.Tests
end

section
/-! The machine's stops and completions: when `step` is refused before any instruction runs (O10), and that from a state of
the invariant an instruction has a next state exactly where it is enabled (O58). -/

namespace Sys2Proof.Machine

/-! ### A step without an instruction (R10, R101) -/

/-- R10. -/
theorem step_eq_badConfig {s : State} (hv : s.cfg.valid = false) : step s = .refused .badConfig := by
  simp [step, hv]

/-- Under a legal configuration a step stops as its fetch does. -/
theorem step_eq_refused_of_fetch {s : State} {r : Refusal} (hv : s.cfg.valid = true) (hf : fetch s = .error r) :
    step s = .refused r := by
  simp [step, hv, hf]

/-- R102, assumption log 4. -/
theorem fetch_eq_scriptEmpty {s : State} (hd : decode s.env.script = .error .noWord) : fetch s = .error .scriptEmpty := by
  simp [fetch, hd]

/-- R101. -/
theorem fetch_eq_truncatedWord {s : State} (hd : decode s.env.script = .error .cutShort) :
    fetch s = .error .truncatedWord := by
  simp [fetch, hd]

/-- Settles O10: the configuration is checked first, and then the fetch's refusal is the step's. -/
theorem stepStopsWithoutAnInstruction : Obligations.StepStopsWithoutAnInstruction := fun _ =>
  ⟨step_eq_badConfig,
    fun hv hd => step_eq_refused_of_fetch hv (fetch_eq_scriptEmpty hd),
    fun hv hd => step_eq_refused_of_fetch hv (fetch_eq_truncatedWord hd)⟩

/-! ### Taking from the ring and from the event queue -/

/-- The oldest byte of a ring that is not empty is written (R122). -/
theorem Ring.Inv.exists_oldest {c : Config} {r : Ring} (h : r.Inv c) (hc : r.count ≠ 0) :
    ∃ b, r.mem.read r.head = some b := by
  have h0 := h.heldWritten 0 (Nat.pos_of_ne_zero hc)
  rw [Nat.add_zero, Nat.mod_eq_of_lt h.headInRange] at h0
  exact Option.isSome_iff_exists.mp h0

/-- Taking the oldest byte keeps the invariant (R122). -/
theorem State.Inv.pop {s : State} (h : s.Inv) (hc : s.ring.count ≠ 0) : (s.setRing (popped s.cfg s.ring)).Inv :=
  { h with ring := h.ring.pop hc }

/-- From a state of the invariant RbGet on a ring that is not empty answers a byte (R122). -/
theorem State.Inv.rbGet_eq {s : State} (h : s.Inv) (hc : s.ring.count ≠ 0) :
    ∃ b, rbGet s = .ok (some (b, s.setRing (popped s.cfg s.ring))) := by
  obtain ⟨b, hb⟩ := h.ring.exists_oldest hc
  exact ⟨b, rbGet_byte hc h.ring.headInRange hb⟩

/-- Taking the oldest event keeps the invariant, and the event is one R160 admits (R162). -/
theorem State.Inv.take {s : State} {ev : Event} {rest : List Event} (h : s.Inv) (hq : s.evq = ev :: rest) :
    (s.setEvq rest).Inv ∧ ev.wf s.cfg = true := by
  have hb := h.queue.bounded
  have hw := h.queue.eventsWf
  rw [hq] at hb hw
  have hrest : EvqInv s.cfg rest := ⟨Nat.le_of_succ_le hb, fun e he => hw e (List.mem_cons_of_mem _ he)⟩
  exact ⟨{ h with queue := hrest }, hw ev List.mem_cons_self⟩

/-! ### Completion where enabled, refusal where not (R7) -/

/-- The outcome is a next state where `enabled` holds and a refusal where it does not, as `fatalState` while fatal (R312). -/
def NextIff (enabled : Prop) (s : State) (out : Host.Outcome State Fault Refusal) : Prop :=
  (enabled → ∃ t, out = .next t) ∧ (¬ enabled → ∃ r, out = .refused r ∧ (s.fatal = true → r = .fatalState))

/-- What is enabled always and answers a next state (R281, R340, R100). -/
theorem NextIff.always {s : State} {out : Host.Outcome State Fault Refusal} (h : ∃ t, out = .next t) :
    NextIff True s out :=
  ⟨fun _ => h, fun hn => absurd trivial hn⟩

/-- An operation of R312 whose rule, while alive, has a step exactly where `extra` holds. -/
theorem NextIff.whenAlive_and {s : State} {extra : Prop} {run : Host.Outcome State Fault Refusal}
    (hnext : s.fatal = false → extra → ∃ t, run = .next t)
    (hstop : s.fatal = false → ¬ extra → ∃ r, run = .refused r) :
    NextIff (s.fatal = false ∧ extra) s (whenAlive s run) := by
  cases hf : s.fatal with
  | true => exact ⟨fun h => by simp at h, fun _ => ⟨_, whenAlive_fatal hf run, fun _ => rfl⟩⟩
  | false =>
    rw [whenAlive_alive hf]
    refine ⟨fun h => hnext hf h.2, fun h => ?_⟩
    obtain ⟨r, hr⟩ := hstop hf fun he => h ⟨rfl, he⟩
    exact ⟨r, hr, fun ht => by rw [hf] at ht; cases ht⟩

/-- Statements that end without a model fault answer a next state. -/
theorem Res.All.exists_next {P : State → Prop} {rule : Res} (h : rule.All P) : ∃ t, rule.outcome = .next t :=
  h.outcome.imp fun _ ht => ht.1

/-- An operation of R312 whose rule always has a step while alive. -/
theorem NextIff.whenAlive {s : State} {P : State → Prop} {rule : Res} (hrule : s.fatal = false → rule.All P) :
    NextIff (s.fatal = false) s (whenAlive s rule.outcome) := by
  have h := NextIff.whenAlive_and (extra := True) (run := rule.outcome) (fun hf _ => (hrule hf).exists_next)
    fun _ hn => absurd trivial hn
  rwa [and_true] at h

/-- A step of the LINK agent in Handle whose rule, there, has a step exactly where `extra` holds (R180). -/
theorem NextIff.whenHandle_and {s : State} {extra : Prop} {run : Host.Outcome State Fault Refusal}
    (hnext : s.fatal = false → s.arq.lstate = .handle → extra → ∃ t, run = .next t)
    (hstop : ¬ extra → ∃ r, run = .refused r) :
    NextIff (s.fatal = false ∧ s.arq.lstate = .handle ∧ extra) s (whenHandle s run) := by
  refine NextIff.whenAlive_and (fun hf he => ?_) (fun _ hn => ?_)
  · rw [he.1]
    exact hnext hf he.1 he.2
  · cases hl : s.arq.lstate with
    | init => exact ⟨_, rfl⟩
    | handle => exact hstop fun he => hn ⟨hl, he⟩

/-- A handler of the LINK agent, which has a step whenever alive and in Handle (R180, assumption log 7). -/
theorem NextIff.whenHandle {s : State} {P : State → Prop} {rule : Res}
    (hrule : s.fatal = false → s.arq.lstate = .handle → rule.All P) :
    NextIff (s.fatal = false ∧ s.arq.lstate = .handle) s (whenHandle s rule.outcome) := by
  have h := NextIff.whenHandle_and (extra := True) (run := rule.outcome)
    (fun hf hl _ => (hrule hf hl).exists_next) fun hn => absurd trivial hn
  rwa [and_true] at h

/-- A step of the LINK agent in Init (R180). -/
theorem NextIff.whenInit {s : State} {P : State → Prop} {rule : Res} (hrule : s.fatal = false → rule.All P) :
    NextIff (s.fatal = false ∧ s.arq.lstate = .init) s (whenInit s rule.outcome) := by
  refine NextIff.whenAlive_and (fun hf hl => ?_) (fun _ hl => ?_)
  · rw [hl]
    exact (hrule hf).exists_next
  · cases h : s.arq.lstate with
    | init => exact absurd h hl
    | handle => exact ⟨_, rfl⟩

/-- PARSE_STEP (R230): what RbGet takes, one parser transition runs on. -/
theorem parseOldest_next {s : State} (h : s.Inv) (hf : s.fatal = false) (hc : s.ring.count ≠ 0) :
    ∃ t, parseOldest s = .next t := by
  obtain ⟨b, hb⟩ := h.rbGet_eq hc
  obtain ⟨t, ht, -⟩ := (parseByte_effect (b := b) (h.pop hc) hf).outcome
  exact ⟨t, by rw [parseOldest, hb]; exact ht⟩

/-- R230. -/
theorem parseOldest_empty {s : State} (hc : s.ring.count = 0) : parseOldest s = .refused .ringEmpty := by
  rw [parseOldest, rbGet_empty hc]

/-- LINK_DISPATCH (R182): the handler of the oldest event runs on the queue without it. -/
theorem dispatchOldest_next {s : State} (h : s.Inv) (hf : s.fatal = false) (hl : s.arq.lstate = .handle)
    (hq : s.evq ≠ []) : ∃ t, dispatchOldest s = .next t := by
  obtain ⟨ev, rest, hr⟩ := List.exists_cons_of_ne_nil hq
  obtain ⟨hi, hw⟩ := h.take hr
  obtain ⟨t, ht, -⟩ := (handleEvent_effect hi hf hl hw).outcome
  exact ⟨t, by rw [dispatchOldest, evqTake, hr]; exact ht⟩

/-- R165. -/
theorem dispatchOldest_empty {s : State} (hq : s.evq = []) : dispatchOldest s = .refused .queueEmpty := by
  rw [dispatchOldest, evqTake, hq]

/-- A payload that fits its length byte has that many bytes (R98, R160). -/
theorem length_of_payloadFits {len : Byte} {payload : List Byte} (h : payloadFits len payload = true) :
    payload.length = len.toNat :=
  beq_iff_eq.mp h

/-- Every well-formed instruction, from a state of the invariant. -/
theorem exec_nextIff {i : Instr} {s : State} (h : s.Inv) (hw : i.wf s.cfg = true) :
    NextIff (Enabled i s) s (exec i s) := by
  cases i with
  | rxPut b => exact .whenAlive fun hf => putReceived_effect h hf
  | parseStep =>
    exact .whenAlive_and (fun hf hc => parseOldest_next h hf hc)
      fun _ hc => ⟨_, parseOldest_empty (not_not.mp hc)⟩
  | tick delta => exact .whenAlive fun hf => tickTimers_effect h hf
  | sendReq dest len payload =>
    exact .whenAlive fun hf => postSendRequest_effect h hf (length_of_payloadFits hw)
  | cfgWr reg value => exact .whenAlive fun hf => writeReg_effect h hf
  | cfgRd reg => exact .always (answerRead_effect h).exists_next
  | linkInit => exact .whenInit fun hf => initLink_effect h hf
  | linkDispatch =>
    exact .whenHandle_and (fun hf hl hq => dispatchOldest_next h hf hl hq)
      fun hq => ⟨_, dispatchOldest_empty (not_not.mp hq)⟩
  | reset => exact .always ⟨_, rfl⟩
  | reserved opcode => exact .always ⟨_, rfl⟩
  | evSendRequest dest len payload =>
    exact .whenHandle fun hf hl => handleSendRequest_effect h hf hl (length_of_payloadFits hw)
  | evSendTimeout => exact .whenHandle fun hf _ => handleSendTimeout_effect h hf
  | evFrameReceived f => exact .whenHandle fun hf hl => handleFrameReceived_effect h hf hl hw
  | evFrameChecksumError f => exact .whenHandle fun hf _ => handleChecksumError_effect h hf
  | evFrameReceiveTimeout => exact .whenHandle fun hf _ => handleReceiveTimeout_effect h hf
  | frameReq f => exact .whenHandle fun hf _ => handleReq_effect h hf ((Bool.and_eq_true _ _).mp hw).1
  | frameAck f => exact .whenHandle fun hf hl => handleAck_effect h hf hl
  | frameNack f => exact .whenHandle fun hf hl => handleNack_effect h hf hl
  | frameOther f => exact .whenHandle (rule := handleOther f s) fun hf _ => LinkEffect.same h hf

/-- PARSE_STEP on an empty ring, while alive (R230). -/
theorem exec_parseStep_empty {s : State} (hf : s.fatal = false) (hc : s.ring.count = 0) :
    exec .parseStep s = .refused .ringEmpty :=
  (whenAlive_alive hf _).trans (parseOldest_empty hc)

/-- Settles O58, by cases on the instruction in `exec_nextIff`; PARSE_STEP's refusal while alive is that of the empty ring. -/
theorem enabledInstructionsComplete : Obligations.EnabledInstructionsComplete := by
  intro i s h hw
  obtain ⟨hnext, hstop⟩ := exec_nextIff h hw
  refine ⟨hnext, fun hn => ?_⟩
  obtain ⟨r, hr, hfat⟩ := hstop hn
  refine ⟨r, hr, hfat, fun hf hi => ?_⟩
  subst hi
  have hc : s.ring.count = 0 := by_contra fun hc => hn ⟨hf, hc⟩
  exact Host.Outcome.refused.inj (hr.symm.trans (exec_parseStep_empty hf hc))

end Sys2Proof.Machine
end

section
/-! The state's own statements (10_state.md), first those of single states: the fields of STATUS and TIMERS (O35), the invariant of
R63 right after reset (O13), and that no step faults from it (O57). -/

namespace Sys2Proof.Machine

/-! ### The fields of STATUS and TIMERS (R54, R60) -/

theorem flagBit_getLsbD_zero (b : Bool) : (flagBit b).getLsbD 0 = true ↔ b = true := by
  cases b <;> decide

theorem LState.code_getLsbD_zero (l : LState) : l.code.getLsbD 0 = true ↔ l = .handle := by
  cases l <;> decide

theorem SendState.code_getLsbD_zero (x : SendState) : x.code.getLsbD 0 = true ↔ x = .sending := by
  cases x <;> decide

/-- PSTATE is bits [7:4] of STATUS (R54). -/
theorem statusWord_pstate (s : State) : (statusWord s).extractLsb' 4 4 = s.parser.pstate.code := by
  apply BitVec.eq_of_getLsbD_eq
  intro i hi
  rw [BitVec.getLsbD_extractLsb', statusWord_getLsbD]
  simp [hi, show ¬ 4 + i < 1 by omega, show ¬ 4 + i < 2 by omega, show ¬ 4 + i < 3 by omega,
    show 4 + i < 8 by omega]

/-- FATAL_CODE is bits [15:8] of STATUS (R54). -/
theorem statusWord_fatalCode (s : State) : (statusWord s).extractLsb' 8 8 = s.fatalCode := by
  apply BitVec.eq_of_getLsbD_eq
  intro i hi
  rw [BitVec.getLsbD_extractLsb', statusWord_getLsbD]
  simp [hi, show ¬ 8 + i < 1 by omega, show ¬ 8 + i < 2 by omega, show ¬ 8 + i < 3 by omega,
    show ¬ 8 + i < 4 by omega, show 8 + i < 16 by omega]

/-- Bits [31:16] of STATUS read 0 (R54). -/
theorem statusWord_high (s : State) : (statusWord s).extractLsb' 16 16 = 0#16 := by
  apply BitVec.eq_of_getLsbD_eq
  intro i hi
  rw [BitVec.getLsbD_extractLsb', statusWord_getLsbD]
  simp [show ¬ 16 + i < 1 by omega, show ¬ 16 + i < 2 by omega, show ¬ 16 + i < 3 by omega,
    show ¬ 16 + i < 4 by omega, show ¬ 16 + i < 8 by omega]

/-- Bits [31:2] of TIMERS read 0 (R60). -/
theorem timersWord_high (s : State) : (timersWord s).extractLsb' 2 30 = 0#30 := by
  apply BitVec.eq_of_getLsbD_eq
  intro i hi
  rw [BitVec.getLsbD_extractLsb', timersWord_getLsbD]
  simp [show ¬ 2 + i < 1 by omega]

/-- Settles O35, field by field. -/
theorem statusAndTimersShowTheirFields : Obligations.StatusAndTimersShowTheirFields := by
  intro s
  refine ⟨?_, ?_, ?_, ?_, ?_, statusWord_fatalCode s, statusWord_high s, ?_, ?_, timersWord_high s⟩
  · rw [statusWord_getLsbD]
    exact LState.code_getLsbD_zero s.arq.lstate
  · rw [statusWord_getLsbD]
    exact SendState.code_getLsbD_zero s.arq.sendState
  · rw [statusWord_getLsbD]
    exact flagBit_getLsbD_zero s.fatal
  · rw [statusWord_getLsbD]
    rfl
  · rw [statusWord_pstate]
    cases s.parser.pstate <;> rfl
  · rw [timersWord_getLsbD]
    exact (flagBit_getLsbD_zero _).trans armed_iff
  · rw [timersWord_getLsbD]
    exact (flagBit_getLsbD_zero _).trans armed_iff

/-! ### The state right after reset (R341) -/

/-- The state after power-on meets the invariant, whatever the environment's records and inputs (R63, R341). -/
theorem resetWith_inv {c : Config} (hv : c.valid = true) (o : Out) (e : Env) :
    State.Inv { State.resetWith c with out := o, env := e } where
  config := hv
  ring := by
    have hcap : 1 ≤ c.rbCap := by simp [Config.valid] at hv; omega
    exact ⟨hcap, Nat.zero_le _, (Nat.zero_mod _).symm, rfl, rfl, fun k hk => absurd hk (Nat.not_lt_zero k)⟩
  parser := by
    constructor <;> simp [State.resetWith, Parser.idxInRange, Parser.destTaken, Parser.srcTaken, Parser.payloadTaken,
      PState.code, Memory.wf, Memory.below]
  timers := ⟨List.nodup_nil, by simp⟩
  queue := ⟨Nat.zero_le _, by simp⟩
  arq := ⟨(fun hs => by cases hs), (fun hl => by cases hl), fun _ => rfl, rfl, rfl⟩
  fatal := rfl

/-- Settles O13: no timer is armed after reset. -/
theorem resetMeetsInvariant : Obligations.ResetMeetsInvariant :=
  fun _ _ hv => ⟨resetWith_inv hv _ _, fun _ => rfl⟩

/-! ### What the decoder reads (R97, R98, R100) -/

/-- The opcodes R97 does not list are those R100 reserves. -/
theorem reservedOpcode_of_unlisted {op : Byte} (h1 : op ≠ 0x01#8) (h2 : op ≠ 0x02#8) (h3 : op ≠ 0x03#8)
    (h4 : op ≠ 0x04#8) (h5 : op ≠ 0x05#8) (h6 : op ≠ 0x06#8) (h7 : op ≠ 0x07#8) (h8 : op ≠ 0x08#8)
    (h15 : op ≠ 0x0F#8) : reservedOpcode op = true := by
  simp only [reservedOpcode, Bool.or_eq_true, Bool.and_eq_true, beq_iff_eq, decide_eq_true_eq]
  bv_omega

/-- A SEND_REQ that is not cut short has the payload bytes its length byte says (R98, R101). -/
theorem decodeSendReq_command {c : Config} {bs : List Byte} {i : Instr} {rest : List Byte}
    (h : decodeSendReq bs = .ok (i, rest)) : i.isCommand = true ∧ i.wf c = true := by
  unfold decodeSendReq at h
  split at h
  · split at h
    · cases h
    · next hlen =>
      cases h
      refine ⟨rfl, beq_iff_eq.mpr ?_⟩
      rw [List.length_take] at hlen ⊢
      omega
  · cases h

/-- Whatever the decoder reads is a well-formed command, under every configuration. -/
theorem decode_command {c : Config} {bs : List Byte} {i : Instr} {rest : List Byte} (h : decode bs = .ok (i, rest)) :
    i.isCommand = true ∧ i.wf c = true := by
  cases bs with
  | nil => cases h
  | cons op bs =>
    simp only [decode, decodeOpcode] at h
    split at h
    · unfold decodeRxPut at h; split at h <;> cases h; exact ⟨rfl, rfl⟩
    split at h
    · cases h; exact ⟨rfl, rfl⟩
    split at h
    · unfold decodeTick at h; split at h <;> cases h; exact ⟨rfl, rfl⟩
    split at h
    · exact decodeSendReq_command h
    split at h
    · unfold decodeCfgWr at h; split at h <;> cases h; exact ⟨rfl, rfl⟩
    split at h
    · unfold decodeCfgRd at h; split at h <;> cases h; exact ⟨rfl, rfl⟩
    split at h
    · cases h; exact ⟨rfl, rfl⟩
    split at h
    · cases h; exact ⟨rfl, rfl⟩
    split at h
    · cases h; exact ⟨rfl, rfl⟩
    · cases h; exact ⟨rfl, reservedOpcode_of_unlisted ‹_› ‹_› ‹_› ‹_› ‹_› ‹_› ‹_› ‹_› ‹_›⟩

/-- A step refuses, or runs a well-formed command on the state with its word issued (R102). -/
theorem step_cases (s : State) : (∃ r, step s = .refused r) ∨
    ∃ i rest, i.isCommand = true ∧ i.wf s.cfg = true ∧ step s = exec i (setScript rest s) := by
  unfold step
  split
  · unfold fetch
    cases hd : decode s.env.script with
    | error e => cases e <;> exact .inl ⟨_, rfl⟩
    | ok p =>
      obtain ⟨i, rest⟩ := p
      obtain ⟨hc, hw⟩ := decode_command (c := s.cfg) hd
      exact .inr ⟨i, rest, hc, hw, rfl⟩
  · exact .inl ⟨_, rfl⟩

/-- Issuing a word keeps the invariant, which says nothing about the environment's inputs. -/
theorem State.Inv.setScript {s : State} (h : s.Inv) (script : List Byte) : (setScript script s).Inv :=
  ⟨h.config, h.ring, h.parser, h.timers, h.queue, h.arq, h.fatal⟩

/-! ### No model fault (R64, R71) -/

/-- From a state of the invariant a well-formed instruction answers a next state or is refused, as it is enabled or not. -/
theorem exec_ne_fault {i : Instr} {s : State} (h : s.Inv) (hw : i.wf s.cfg = true) (r : Fault) :
    exec i s ≠ .fault r := by
  obtain ⟨hnext, hstop⟩ := exec_nextIff h hw
  intro hr
  by_cases he : Enabled i s
  · obtain ⟨t, ht⟩ := hnext he
    rw [hr] at ht
    cases ht
  · obtain ⟨q, hq, -⟩ := hstop he
    rw [hr] at hq
    cases hq

/-- Settles O57: a step that is not refused runs a well-formed command. -/
theorem invariantStatesNeverFault : Obligations.InvariantStatesNeverFault := by
  intro s r h hs
  obtain ⟨q, hq⟩ | ⟨i, rest, -, hw, he⟩ := step_cases s
  · rw [hs] at hq
    cases hq
  · exact exec_ne_fault (h.setScript rest) hw r (he.symm.trans hs)

end Sys2Proof.Machine
end

section
/-! What the instructions keep: the link state (O54), the invariant of R63 (O56), and its clause (c) but for a stale timeout (O59). -/

namespace Sys2Proof.Machine

/-! ### The state that statements end in -/

/-- A property of the state a sequence of statements ends in, whether it went on or raised a fatal, unless the model faults. -/
def Res.Ends (P : State → Prop) : Res → Prop
  | .ok s => P s
  | .fatal s => P s
  | .fault _ => True

theorem Res.Ends.of_next {P : State → Prop} {rule : Res} {t : State} (h : rule.Ends P) (ht : rule.outcome = .next t) :
    P t := by
  obtain rfl | rfl := Res.outcome_eq_next ht <;> exact h

theorem Res.Ends.andThen {P : State → Prop} {rule : Res} {next : State → Res} (h : rule.Ends P)
    (hnext : ∀ t, P t → (next t).Ends P) : (rule.andThen next).Ends P := by
  cases rule with
  | ok t => exact hnext t h
  | fatal t => exact h
  | fault e => trivial

theorem Res.Ends.ofRead {α : Type} {P : State → Prop} {read : Except Fault α} {next : α → Res}
    (h : ∀ a, (next a).Ends P) : (Res.ofRead read next).Ends P := by
  cases read with
  | ok a => exact h a
  | error e => trivial

theorem Res.All.ends {P : State → Prop} {rule : Res} (h : rule.All P) : rule.Ends P := by
  cases rule with
  | ok t => exact h
  | fatal t => exact h
  | fault e => exact h.elim

/-- R312. -/
theorem Res.Ends.of_whenAlive {P : State → Prop} {s t : State} {rule : Res} (h : s.fatal = false → rule.Ends P)
    (he : whenAlive s rule.outcome = .next t) : P t := by
  obtain ⟨hf, hr⟩ := whenAlive_eq_next he
  exact (h hf).of_next hr

/-- R180. -/
theorem Res.Ends.of_whenHandle {P : State → Prop} {s t : State} {rule : Res}
    (h : s.fatal = false → s.arq.lstate = .handle → rule.Ends P) (he : whenHandle s rule.outcome = .next t) : P t := by
  obtain ⟨hf, hl, hr⟩ := whenHandle_eq_next he
  exact (h hf hl).of_next hr

/-- R180. -/
theorem Res.Ends.of_whenInit {P : State → Prop} {s t : State} {rule : Res}
    (h : s.fatal = false → s.arq.lstate = .init → rule.Ends P) (he : whenInit s rule.outcome = .next t) : P t := by
  obtain ⟨hf, hl, hr⟩ := whenInit_eq_next he
  exact (h hf hl).of_next hr

/-- What PARSE_STEP runs: one transition on the byte RbGet took (R230). -/
theorem parseOldest_eq_next {s t : State} (h : parseOldest s = .next t) :
    ∃ b u, rbGet s = .ok (some (b, u)) ∧ (parseByte b u).outcome = .next t := by
  unfold parseOldest at h
  split at h
  · cases h
  · cases h
  · next b u hg => exact ⟨b, u, hg, h⟩

/-- RbGet writes the ring alone (R122). -/
theorem rbGet_eq_some {s u : State} {b : Byte} (h : rbGet s = .ok (some (b, u))) :
    s.ring.count ≠ 0 ∧ u = s.setRing (popped s.cfg s.ring) := by
  unfold rbGet at h
  split at h
  · cases h
  · next hc =>
    split at h
    · cases h
    · cases h
      exact ⟨hc, rfl⟩

/-- What LINK_DISPATCH runs: the handler of the oldest event, on the queue without it (R182). -/
theorem dispatchOldest_eq_next {s t : State} (h : dispatchOldest s = .next t) :
    ∃ ev rest, s.evq = ev :: rest ∧ (handleEvent ev (s.setEvq rest)).outcome = .next t := by
  unfold dispatchOldest evqTake at h
  cases hq : s.evq with
  | nil => rw [hq] at h; cases h
  | cons ev rest => rw [hq] at h; exact ⟨ev, rest, rfl, h⟩

/-! ### Every well-formed instruction keeps the invariant (R63) -/

theorem exec_inv {i : Instr} {s t : State} (h : s.Inv) (hw : i.wf s.cfg = true) (he : exec i s = .next t) : t.Inv := by
  cases i with
  | rxPut b => exact (Res.Ends.of_whenAlive (fun hf => (putReceived_effect h hf).ends) he).inv
  | parseStep =>
    obtain ⟨hf, hp⟩ := whenAlive_eq_next he
    obtain ⟨b, u, hg, ht⟩ := parseOldest_eq_next hp
    obtain ⟨hc, rfl⟩ := rbGet_eq_some hg
    exact ((parseByte_effect (h.pop hc) hf).ends.of_next ht).inv
  | tick delta => exact (Res.Ends.of_whenAlive (fun hf => (tickTimers_effect h hf).ends) he).inv
  | sendReq dest len payload =>
    exact (Res.Ends.of_whenAlive
      (fun hf => (postSendRequest_effect h hf (length_of_payloadFits hw)).ends) he).inv
  | cfgWr reg value => exact (Res.Ends.of_whenAlive (fun hf => (writeReg_effect h hf).ends) he).inv
  | cfgRd reg => exact ((answerRead_effect h).ends.of_next he).1
  | linkInit => exact (Res.Ends.of_whenInit (fun hf _ => (initLink_effect h hf).ends) he).1
  | linkDispatch =>
    obtain ⟨hf, hl, hd⟩ := whenHandle_eq_next he
    obtain ⟨ev, rest, hq, ht⟩ := dispatchOldest_eq_next hd
    obtain ⟨hi, hev⟩ := h.take hq
    exact ((handleEvent_effect hi hf hl hev).ends.of_next ht).inv
  | reset => cases he; exact resetWith_inv h.config _ _
  | reserved opcode => cases he; exact respond_inv h
  | evSendRequest dest len payload =>
    exact (Res.Ends.of_whenHandle
      (fun hf hl => (handleSendRequest_effect h hf hl (length_of_payloadFits hw)).ends) he).inv
  | evSendTimeout => exact (Res.Ends.of_whenHandle (fun hf _ => (handleSendTimeout_effect h hf).ends) he).inv
  | evFrameReceived f =>
    exact (Res.Ends.of_whenHandle (fun hf hl => (handleFrameReceived_effect h hf hl hw).ends) he).inv
  | evFrameChecksumError f =>
    exact (Res.Ends.of_whenHandle (fun hf _ => (handleChecksumError_effect h hf).ends) he).inv
  | evFrameReceiveTimeout =>
    exact (Res.Ends.of_whenHandle (fun hf _ => (handleReceiveTimeout_effect h hf).ends) he).inv
  | frameReq f =>
    exact (Res.Ends.of_whenHandle
      (fun hf _ => (handleReq_effect h hf ((Bool.and_eq_true _ _).mp hw).1).ends) he).inv
  | frameAck f => exact (Res.Ends.of_whenHandle (fun hf hl => (handleAck_effect h hf hl).ends) he).inv
  | frameNack f => exact (Res.Ends.of_whenHandle (fun hf hl => (handleNack_effect h hf hl).ends) he).inv
  | frameOther f =>
    exact (Res.Ends.of_whenHandle (P := LinkEffect s) (rule := handleOther f s)
      (fun hf _ => LinkEffect.same h hf) he).inv

/-! ### Outside the LINK agent: the engine and the send timer (R87) -/

/-- The ARQ engine is as it was but for the retry ceiling, and the send timer is armed only if it was before. -/
structure KeepsEngine (s t : State) : Prop where
  arq : ({ t.arq with maxRetry := s.arq.maxRetry } : Arq) = s.arq
  sendTimer : armed .sendTmo t.tmList = true → armed .sendTmo s.tmList = true

theorem KeepsEngine.of_same {s t : State} (ha : t.arq = s.arq) (ht : t.tmList = s.tmList) : KeepsEngine s t :=
  ⟨by rw [ha], by rw [ht]; exact id⟩

theorem KeepsEngine.lstate {s t : State} (h : KeepsEngine s t) : t.arq.lstate = s.arq.lstate :=
  (congrArg Arq.lstate h.arq :)

theorem KeepsEngine.sendState {s t : State} (h : KeepsEngine s t) : t.arq.sendState = s.arq.sendState :=
  (congrArg Arq.sendState h.arq :)

/-- It keeps R63 (c). -/
theorem KeepsEngine.keepsIdleTimer {s t : State} (h : KeepsEngine s t) : KeepsIdleTimer s t := by
  intro hs hi
  have hoff := hs (h.sendState ▸ hi)
  cases ht : armed .sendTmo t.tmList with
  | false => rfl
  | true => rw [h.sendTimer ht] at hoff; cases hoff

/-- Setting the receive timer leaves the send timer (R140). -/
theorem KeepsEngine.setRecvTimer (n : Word) (s : State) : KeepsEngine s (timerSet .recvTmo n s) := by
  refine ⟨rfl, fun h => ?_⟩
  rw [timerSet_tmList, armed_iff] at h
  obtain ⟨e, he, hk⟩ := h
  rw [List.mem_append, mem_dropKey, List.mem_singleton] at he
  obtain ⟨hm, -⟩ | rfl := he
  · exact armed_iff.mpr ⟨e, hm, hk⟩
  · cases hk

/-- Cancelling a timer arms none (R141). -/
theorem KeepsEngine.cancel {s u : State} (k : TimerKey) (h : KeepsEngine s u) : KeepsEngine s (timerCancel k u) := by
  refine ⟨h.arq, fun ht => ?_⟩
  rw [timerCancel_tmList, armed_iff] at ht
  obtain ⟨e, he, hk⟩ := ht
  exact h.sendTimer (armed_iff.mpr ⟨e, (mem_dropKey.mp he).1, hk⟩)

/-- Posting an event writes neither (R161). -/
theorem evqPost_keepsEngine {s u : State} (ev : Event) (h : KeepsEngine s u) : (evqPost ev u).Ends (KeepsEngine s) := by
  unfold evqPost
  split <;> exact ⟨h.arq, h.sendTimer⟩

/-- Nor does posting several (R142). -/
theorem postAll_keepsEngine {s u : State} (evs : List Event) (h : KeepsEngine s u) :
    (postAll evs u).Ends (KeepsEngine s) := by
  induction evs generalizing u with
  | nil => exact h
  | cons ev evs ih => exact (evqPost_keepsEngine ev h).andThen fun _ => ih

/-- R142. -/
theorem tickTimers_keepsEngine (delta : Word) (s : State) : (tickTimers delta s).Ends (KeepsEngine s) := by
  refine postAll_keepsEngine _ ⟨rfl, fun h => ?_⟩
  obtain ⟨e, he, hk⟩ := armed_iff.mp h
  obtain ⟨e', he', rfl⟩ := List.mem_map.mp he
  exact armed_iff.mpr ⟨e', List.mem_of_mem_filter he', hk⟩

/-- Every parser transition (R230 to R240). -/
theorem parseByte_keepsEngine (b : Byte) (s : State) : (parseByte b s).Ends (KeepsEngine s) := by
  unfold parseByte
  cases s.parser.pstate with
  | awaitingSof =>
    simp only [takeSof]
    split
    · have h := KeepsEngine.setRecvTimer s.cfg.tRecv s
      exact ⟨h.arq, h.sendTimer⟩
    · exact .of_same rfl rfl
  | destAddr =>
    refine .ofRead fun a => ?_
    split <;> exact .of_same rfl rfl
  | srcAddr =>
    refine .ofRead fun a => ?_
    split <;> exact .of_same rfl rfl
  | type => exact .of_same rfl rfl
  | subType => exact .of_same rfl rfl
  | seqNum => exact .of_same rfl rfl
  | len =>
    simp only [takeLen]
    split
    · have h := KeepsEngine.cancel .recvTmo
        (.of_same (s := s) (t := s.setParser { s.parser with rxLen := some b }) rfl rfl)
      exact ⟨h.arq, h.sendTimer⟩
    · split <;> exact .of_same rfl rfl
  | data =>
    refine .ofRead fun m => .ofRead fun len => ?_
    split <;> exact .of_same rfl rfl
  | fcs =>
    refine .ofRead fun f => (evqPost_keepsEngine _ ?_).andThen fun u h => ⟨h.arq, h.sendTimer⟩
    exact .cancel .recvTmo (.of_same rfl rfl)

/-- R120. -/
theorem putReceived_keepsEngine (b : Byte) (s : State) : (putReceived b s).Ends (KeepsEngine s) := by
  unfold putReceived rbPut
  split
  · exact .of_same rfl rfl
  · split
    · trivial
    · exact .of_same rfl rfl

/-- R280. -/
theorem postSendRequest_keepsEngine (dest : Word) (len : Byte) (payload : List Byte) (s : State) :
    (postSendRequest dest len payload s).Ends (KeepsEngine s) :=
  .ofRead fun _ => (evqPost_keepsEngine _ (.of_same rfl rfl)).andThen fun _ h => ⟨h.arq, h.sendTimer⟩

/-- R282: the retry ceiling is the one element of the engine that CFG_WR writes. -/
theorem writeReg_keepsEngine (reg : Byte) (value : Word) (s : State) : (writeReg reg value s).Ends (KeepsEngine s) := by
  unfold writeReg
  split
  · exact ⟨rfl, id⟩
  · exact .of_same rfl rfl

/-- R281. -/
theorem answerRead_keepsEngine (reg : Byte) (s : State) : (answerRead reg s).Ends (KeepsEngine s) :=
  .ofRead fun v => by cases v <;> exact .of_same rfl rfl

/-- Every instruction outside the LINK agent but RESET, from every state. -/
theorem exec_keepsEngine {i : Instr} {s t : State} (hi : i.ofLink = false) (hr : i ≠ .reset)
    (he : exec i s = .next t) : KeepsEngine s t := by
  cases i with
  | rxPut b => exact Res.Ends.of_whenAlive (fun _ => putReceived_keepsEngine b s) he
  | parseStep =>
    obtain ⟨-, hp⟩ := whenAlive_eq_next he
    obtain ⟨b, u, hg, ht⟩ := parseOldest_eq_next hp
    obtain ⟨-, rfl⟩ := rbGet_eq_some hg
    have h := (parseByte_keepsEngine b _).of_next ht
    exact ⟨h.arq, h.sendTimer⟩
  | tick delta => exact Res.Ends.of_whenAlive (fun _ => tickTimers_keepsEngine delta s) he
  | sendReq dest len payload =>
    exact Res.Ends.of_whenAlive (fun _ => postSendRequest_keepsEngine dest len payload s) he
  | cfgWr reg value => exact Res.Ends.of_whenAlive (fun _ => writeReg_keepsEngine reg value s) he
  | cfgRd reg => exact (answerRead_keepsEngine reg s).of_next he
  | reserved opcode => cases he; exact .of_same rfl rfl
  | reset => exact absurd rfl hr
  | _ => cases hi

/-! ### The link state (R41, R180) -/

/-- The LINK handlers' own property: the link state is as it was. -/
def SameLState (s t : State) : Prop := t.arq.lstate = s.arq.lstate

/-- R291. -/
theorem transmit_sameLState {s u : State} (f : Frame) (h : SameLState s u) : (transmit f u).Ends (SameLState s) := by
  rw [transmit_eq]
  cases (drawStatus u).1 <;> exact h

/-- R186, R191. -/
theorem transmitTx_sameLState {s u : State} (h : SameLState s u) : (transmitTx u).Ends (SameLState s) :=
  .ofRead fun f => transmit_sameLState f h

/-- R186, R191. -/
theorem retransmit_sameLState {s u : State} (h : SameLState s u) : (retransmit u).Ends (SameLState s) :=
  (transmitTx_sameLState h).andThen fun _ => id

/-- R183 to R185. -/
theorem handleSendRequest_sameLState (dest : Word) (len : Byte) (payload : List Byte) (s : State) :
    (handleSendRequest dest len payload s).Ends (SameLState s) := by
  unfold handleSendRequest
  split
  · exact rfl
  · split
    · exact .ofRead fun q => rfl
    · exact .ofRead fun q => .ofRead fun p => .ofRead fun m =>
        (transmitTx_sameLState rfl).andThen fun _ => id

/-- R186 to R188. -/
theorem handleSendTimeout_sameLState (s : State) : (handleSendTimeout s).Ends (SameLState s) := by
  unfold handleSendTimeout
  split
  · exact rfl
  · split
    · exact retransmit_sameLState rfl
    · exact rfl

/-- R189. -/
theorem handleReq_sameLState (f : Frame) (s : State) : (handleReq f s).Ends (SameLState s) :=
  (transmit_sameLState _ rfl).andThen fun _ h => .ofRead fun _ => h

/-- R190, R193. -/
theorem handleAck_sameLState (f : Frame) (s : State) : (handleAck f s).Ends (SameLState s) :=
  .ofRead fun hit => by cases hit <;> exact rfl

/-- R191, R192, R194. -/
theorem handleNack_sameLState (f : Frame) (s : State) : (handleNack f s).Ends (SameLState s) := by
  refine .ofRead fun hit => ?_
  split
  · split
    · exact retransmit_sameLState rfl
    · exact rfl
  · exact rfl

/-- R189 to R195. -/
theorem handleFrameReceived_sameLState (f : Frame) (s : State) : (handleFrameReceived f s).Ends (SameLState s) := by
  unfold handleFrameReceived
  split
  · exact handleReq_sameLState f s
  · exact handleAck_sameLState f s
  · exact handleNack_sameLState f s
  · exact rfl

/-- The handler of any event (R182). -/
theorem handleEvent_sameLState (ev : Event) (s : State) : (handleEvent ev s).Ends (SameLState s) := by
  cases ev with
  | sendRequest dest len payload => exact handleSendRequest_sameLState dest len payload s
  | sendTimeout => exact handleSendTimeout_sameLState s
  | frameReceived f => exact handleFrameReceived_sameLState f s
  | frameChecksumError f => exact transmit_sameLState _ rfl
  | frameReceiveTimeout => exact rfl

/-- Every instruction but LINK_INIT and RESET leaves the link state, from every state. -/
theorem exec_sameLState {i : Instr} {s t : State} (hr : i ≠ .reset) (hl : i ≠ .linkInit) (he : exec i s = .next t) :
    SameLState s t := by
  cases i with
  | linkDispatch =>
    obtain ⟨-, -, hd⟩ := whenHandle_eq_next he
    obtain ⟨ev, rest, -, ht⟩ := dispatchOldest_eq_next hd
    exact (handleEvent_sameLState ev (s.setEvq rest)).of_next ht
  | evSendRequest dest len payload =>
    exact Res.Ends.of_whenHandle (fun _ _ => handleSendRequest_sameLState dest len payload s) he
  | evSendTimeout => exact Res.Ends.of_whenHandle (fun _ _ => handleSendTimeout_sameLState s) he
  | evFrameReceived f => exact Res.Ends.of_whenHandle (fun _ _ => handleFrameReceived_sameLState f s) he
  | evFrameChecksumError f =>
    exact Res.Ends.of_whenHandle (fun _ _ => handleEvent_sameLState (.frameChecksumError f) s) he
  | evFrameReceiveTimeout =>
    exact Res.Ends.of_whenHandle (fun _ _ => handleEvent_sameLState .frameReceiveTimeout s) he
  | frameReq f => exact Res.Ends.of_whenHandle (fun _ _ => handleReq_sameLState f s) he
  | frameAck f => exact Res.Ends.of_whenHandle (fun _ _ => handleAck_sameLState f s) he
  | frameNack f => exact Res.Ends.of_whenHandle (fun _ _ => handleNack_sameLState f s) he
  | frameOther f =>
    exact Res.Ends.of_whenHandle (P := SameLState s) (rule := handleOther f s) (fun _ _ => rfl) he
  | linkInit => exact absurd rfl hl
  | _ => exact (exec_keepsEngine rfl hr he).lstate

/-- Settles O54: LINK_INIT has a step in Init alone, and every other instruction but RESET leaves the link state. -/
theorem handleIsLeftOnlyByReset : Obligations.HandleIsLeftOnlyByReset := by
  intro i s t he hr
  by_cases hl : i = .linkInit
  · subst hl
    obtain ⟨-, hs, -⟩ := whenInit_eq_next he
    exact ⟨(fun hh => by rw [hs] at hh; cases hh), fun _ _ => rfl⟩
  · have hsame : t.arq.lstate = s.arq.lstate := exec_sameLState hr hl he
    exact ⟨hsame.trans, (fun hi hh => by rw [hsame, hi] at hh; cases hh)⟩

/-! ### R63 (c), and the stale timeout that breaks it (R187, R202, R352) -/

/-- Where the abandon of R187 leaves the send timer armed: Sending at the ceiling with SEND_TMO armed (assumption log 13). -/
structure AtCeilingArmed (s : State) : Prop where
  sending : s.arq.sendState = .sending
  ceiling : s.arq.maxRetry.toNat ≤ s.arq.retry.toNat
  timer : armed .sendTmo s.tmList = true

/-- R186 to R188. -/
theorem handleSendTimeout_keepsIdleTimer {s t : State} (h : s.Inv) (hf : s.fatal = false)
    (ht : (handleSendTimeout s).outcome = .next t) : KeepsIdleTimer s t ∨ AtCeilingArmed s := by
  obtain ⟨-, -, hk⟩ := handleSendTimeout_send h hf ht
  exact hk.imp_right fun ⟨hs, hc, ha⟩ => ⟨hs, hc, ha⟩

/-- The handler of every other event keeps R63 (c). -/
theorem handleEvent_keepsIdleTimer {ev : Event} {s t : State} (h : s.Inv) (hf : s.fatal = false)
    (hl : s.arq.lstate = .handle) (ht : (handleEvent ev s).outcome = .next t) :
    KeepsIdleTimer s t ∨ ev = .sendTimeout ∧ AtCeilingArmed s := by
  cases ev with
  | sendRequest dest len payload => exact .inl (handleSendRequest_send hf ht).2.2
  | sendTimeout => exact (handleSendTimeout_keepsIdleTimer h hf ht).imp_right fun hc => ⟨rfl, hc⟩
  | frameReceived f => exact .inl (handleFrameReceived_send h hf hl ht).2.2
  | frameChecksumError f => exact .inl (handleChecksumError_send h hf ht).2.2
  | frameReceiveTimeout => exact .inl (handleReceiveTimeout_send hf ht).2.2

/-- LINK_INIT sets Idle in Init, where no REQ was outstanding (R181, R63). -/
theorem initLink_keepsIdleTimer {s : State} (h : s.Inv) (hl : s.arq.lstate = .init) :
    (initLink s).Ends (KeepsIdleTimer s) := by
  have htm : (drawSeq (drawSeq s).2).2.tmList = s.tmList := by
    rw [drawSeq_snd (drawSeq s).2, drawSeq_snd s]
    rfl
  intro hs _
  exact (congrArg (armed .sendTmo) htm).trans (hs (h.arq.initIdle hl))

/-- Every instruction keeps R63 (c) but for the handler of a SendTimeout at the ceiling with SEND_TMO armed. -/
theorem exec_keepsIdleTimer {i : Instr} {s t : State} (h : s.Inv) (he : exec i s = .next t) :
    KeepsIdleTimer s t ∨ RunsHandler .sendTimeout i s ∧ AtCeilingArmed s := by
  cases i with
  | linkInit =>
    exact .inl (Res.Ends.of_whenInit (fun _ hl => initLink_keepsIdleTimer h hl) he)
  | linkDispatch =>
    obtain ⟨hf, hl, hd⟩ := whenHandle_eq_next he
    obtain ⟨ev, rest, hq, ht⟩ := dispatchOldest_eq_next hd
    obtain hk | ⟨rfl, hc⟩ := handleEvent_keepsIdleTimer (h.take hq).1 hf hl ht
    · exact .inl hk
    · exact .inr ⟨.inr ⟨rfl, by rw [hq]; rfl⟩, ⟨hc.sending, hc.ceiling, hc.timer⟩⟩
  | evSendTimeout =>
    obtain ⟨hf, -, ht⟩ := whenHandle_eq_next he
    exact (handleSendTimeout_keepsIdleTimer h hf ht).imp_right fun hc => ⟨.inl rfl, hc⟩
  | evSendRequest dest len payload =>
    obtain ⟨hf, -, ht⟩ := whenHandle_eq_next he
    exact .inl (handleSendRequest_send hf ht).2.2
  | evFrameReceived f =>
    obtain ⟨hf, hl, ht⟩ := whenHandle_eq_next he
    exact .inl (handleFrameReceived_send h hf hl ht).2.2
  | evFrameChecksumError f =>
    obtain ⟨hf, -, ht⟩ := whenHandle_eq_next he
    exact .inl (handleChecksumError_send h hf ht).2.2
  | evFrameReceiveTimeout =>
    obtain ⟨hf, -, ht⟩ := whenHandle_eq_next he
    exact .inl (handleReceiveTimeout_send hf ht).2.2
  | frameReq f =>
    obtain ⟨hf, -, ht⟩ := whenHandle_eq_next he
    exact .inl (handleReq_send h hf ht).2.2
  | frameAck f =>
    obtain ⟨hf, -, ht⟩ := whenHandle_eq_next he
    exact .inl (handleAck_send hf ht).2.2
  | frameNack f =>
    obtain ⟨hf, hl, ht⟩ := whenHandle_eq_next he
    exact .inl (handleNack_send h hf hl ht).2.2
  | frameOther f =>
    obtain ⟨hf, -, ht⟩ := whenHandle_eq_next he
    exact .inl (handleOther_send hf ht).2.2
  | reset => cases he; exact .inl fun _ _ => rfl
  | _ => exact .inl (exec_keepsEngine rfl (by simp) he).keepsIdleTimer

/-- The dispatch of a SendTimeout at the ceiling abandons the send (R187, R202). -/
theorem exec_linkDispatch_abandon {s : State} {rest : List Event} (hf : s.fatal = false) (hl : s.arq.lstate = .handle)
    (hs : s.arq.sendState = .sending) (hc : s.arq.maxRetry.toNat ≤ s.arq.retry.toNat)
    (hq : s.evq = .sendTimeout :: rest) : exec .linkDispatch s = .next (abandon (s.setEvq rest)) := by
  have hlt : ¬ s.arq.retry < s.arq.maxRetry := by rw [BitVec.lt_def]; omega
  have hrun : handleSendTimeout (s.setEvq rest) = .ok (abandon (s.setEvq rest)) := by
    simp [handleSendTimeout, hs, hlt]
  calc exec .linkDispatch s = dispatchOldest s := whenHandle_handle hf hl _
    _ = (handleSendTimeout (s.setEvq rest)).outcome := by rw [dispatchOldest, evqTake, hq]; rfl
    _ = .next (abandon (s.setEvq rest)) := by rw [hrun]; rfl

/-- Settles O59: the abandon leaves SEND_TMO armed, and `exec_keepsIdleTimer` says that nothing else breaks R63 (c). -/
theorem staleTimeoutBreaksIdleTimerClause : Obligations.StaleTimeoutBreaksIdleTimerClause := by
  refine ⟨fun s rest h hf hl hs hc ha hq => ?_, fun i s t h hidle he => ?_⟩
  · have he := exec_linkDispatch_abandon hf hl hs hc hq
    refine ⟨_, he, exec_inv h rfl he, fun hidle => ?_, rfl⟩
    exact Bool.noConfusion (ha.symm.trans (hidle rfl))
  · exact (exec_keepsIdleTimer h he).imp (fun hk => hk hidle)
      fun ⟨hrun, hat⟩ => ⟨hrun, hat.sending, hat.ceiling, hat.timer⟩

/-- Among the commands LINK_DISPATCH alone runs the handler of an event (R182). -/
theorem RunsHandler.head_of_command {ev : Event} {i : Instr} {s : State} (h : RunsHandler ev i s)
    (hi : i.isCommand = true) : s.evq.head? = some ev := by
  obtain rfl | ⟨-, hq⟩ := h
  · cases ev <;> cases hi
  · exact hq

/-- Settles O56: a step that answers a next state runs a well-formed command, which keeps the invariant. -/
theorem everyStepKeepsTheInvariant : Obligations.EveryStepKeepsTheInvariant := by
  intro s t h hs
  obtain ⟨q, hq⟩ | ⟨i, rest, hcmd, hw, he⟩ := step_cases s
  · rw [hs] at hq
    cases hq
  · have hi := h.setScript rest
    have he := he.symm.trans hs
    refine ⟨exec_inv hi hw he, fun hidle => ?_⟩
    exact (exec_keepsIdleTimer hi he).imp (fun hk => hk hidle)
      fun ⟨hrun, hat⟩ => ⟨hrun.head_of_command hcmd, hat.sending, hat.ceiling, hat.timer⟩

end Sys2Proof.Machine
end

section
/-! What each instruction writes, from every state (20_memory.md): the bytes of an address register (O19), that the LINK agent alone
transmits (O50), and the writers of the shared elements (O52). -/

namespace Sys2Proof.Machine

/-! ### Address registers (R72) -/

/-- Settles O19, with the word the four bytes are assembled into. -/
theorem addressesAreMostSignificantFirst : Obligations.AddressesAreMostSignificantFirst := fun b0 b1 b2 b3 =>
  ⟨wordOfBytes b0 b1 b2 b3, AddrReg.value_written b0 b1 b2 b3, wordBytes_wordOfBytes b0 b1 b2 b3,
    wordOfBytes_toNat b0 b1 b2 b3⟩

/-! ### What the agents outside LINK write -/

theorem Res.Ends.mono {P Q : State → Prop} {rule : Res} (hPQ : ∀ t, P t → Q t) (h : rule.Ends P) : rule.Ends Q := by
  cases rule with
  | ok t => exact hPQ t h
  | fatal t => exact hPQ t h
  | fault e => trivial

/-- Posting: events appended to the queue, and the fatal of a queue that is full (R161). -/
def Posts (s t : State) : Prop :=
  ∃ q f code, s.evq <+: q ∧ t = (s.setEvq q).setFatal f code

theorem Posts.refl (s : State) : Posts s s := ⟨s.evq, s.fatal, s.fatalCode, List.prefix_rfl, rfl⟩

theorem Posts.trans {s u t : State} (hu : Posts s u) (ht : Posts u t) : Posts s t := by
  obtain ⟨q, f, code, hq, rfl⟩ := hu
  obtain ⟨q', f', code', hq', rfl⟩ := ht
  exact ⟨q', f', code', hq.trans hq', rfl⟩

/-- R161. -/
theorem evqPost_posts {s u : State} (ev : Event) (h : Posts s u) : (evqPost ev u).Ends (Posts s) := by
  unfold evqPost
  split
  · exact h.trans ⟨u.evq, true, _, List.prefix_rfl, rfl⟩
  · exact h.trans ⟨_, u.fatal, u.fatalCode, ⟨[ev], rfl⟩, rfl⟩

/-- R142. -/
theorem postAll_posts {s u : State} (evs : List Event) (h : Posts s u) : (postAll evs u).Ends (Posts s) := by
  induction evs generalizing u with
  | nil => exact h
  | cons ev evs ih => exact (evqPost_posts ev h).andThen fun _ => ih

/-- A parser transition: the parser, the timers and what it posts (R230). -/
def ParserWrites (s t : State) : Prop :=
  ∃ p tm, Posts ((s.setParser p).setTimers tm) t

theorem ParserWrites.of_silent (s : State) (p : Parser) (tm : List TimerEntry) :
    ParserWrites s ((s.setParser p).setTimers tm) :=
  ⟨p, tm, .refl _⟩

theorem ParserWrites.of_setParser (s : State) (p : Parser) : ParserWrites s (s.setParser p) :=
  .of_silent s p s.tmList

/-- R231. -/
theorem ParserWrites.parserReset {s u : State} (h : ParserWrites s u) : ParserWrites s (parserReset u) := by
  obtain ⟨p, tm, q, f, code, hq, rfl⟩ := h
  exact ⟨{ p with pstate := .awaitingSof, pidx := 0#8 }, tm, q, f, code, hq, rfl⟩

/-- Every parser transition (R230 to R240). -/
theorem parseByte_writes (b : Byte) (s : State) : (parseByte b s).Ends (ParserWrites s) := by
  unfold parseByte
  cases s.parser.pstate with
  | awaitingSof =>
    simp only [takeSof]
    split
    · exact .of_silent s _ _
    · exact .of_setParser s s.parser
  | destAddr =>
    refine .ofRead fun a => ?_
    split <;> exact .of_setParser s _
  | srcAddr =>
    refine .ofRead fun a => ?_
    split <;> exact .of_setParser s _
  | type => exact .of_setParser s _
  | subType => exact .of_setParser s _
  | seqNum => exact .of_setParser s _
  | len =>
    simp only [takeLen]
    split
    · exact .of_silent s _ _
    · split <;> exact .of_setParser s _
  | data =>
    refine .ofRead fun m => .ofRead fun len => ?_
    split <;> exact .of_setParser s _
  | fcs =>
    refine .ofRead fun f => Res.Ends.andThen (.mono (fun _ h => ⟨_, _, h⟩) (evqPost_posts _ (.refl _))) fun _ =>
      ParserWrites.parserReset

/-- R120. -/
theorem putReceived_writes (b : Byte) (s : State) :
    (putReceived b s).Ends fun t => ∃ r status, t = respond status none (s.setRing r) := by
  unfold putReceived rbPut
  split
  · exact ⟨s.ring, .full, rfl⟩
  · split
    · trivial
    · exact ⟨_, .ok, rfl⟩

/-- R280: an overflow is not answered. -/
theorem postSendRequest_writes (dest : Word) (len : Byte) (payload : List Byte) (s : State) :
    (postSendRequest dest len payload s).Ends fun t => ∃ u, Posts s u ∧ (t = u ∨ t = respond .ok none u) := by
  refine .ofRead fun p => ?_
  have h := evqPost_posts (.sendRequest dest len p) (.refl s)
  cases hp : evqPost (.sendRequest dest len p) s with
  | ok u => rw [hp] at h; exact ⟨u, h, .inr rfl⟩
  | fatal u => rw [hp] at h; exact ⟨u, h, .inl rfl⟩
  | fault e => trivial

/-- R282. -/
theorem writeReg_writes (reg : Byte) (value : Word) (s : State) :
    (writeReg reg value s).Ends fun t => ∃ m status, t = respond status none (s.setArq { s.arq with maxRetry := m }) := by
  unfold writeReg
  split
  · exact ⟨_, .ok, rfl⟩
  · exact ⟨s.arq.maxRetry, .err, rfl⟩

/-- R281. -/
theorem answerRead_writes (reg : Byte) (s : State) :
    (answerRead reg s).Ends fun t => ∃ status v, t = respond status v s :=
  .ofRead fun v => by cases v <;> exact ⟨_, _, rfl⟩

/-! ### What the LINK agent writes -/

/-- R181. -/
theorem initLink_writes (s : State) : (initLink s).Ends fun t => ∃ a e, t = (s.setArq a).setEnv e := by
  simp only [initLink]
  rw [drawSeq_snd (drawSeq s).2, drawSeq_snd s]
  exact ⟨_, _, rfl⟩

/-- What every handler of the LINK agent leaves, and what it adds to the environment's records: an answer to the host never, a
frame at most once (R87, R88). -/
def HandlerWrites (s t : State) : Prop :=
  t.cfg = s.cfg ∧ t.ring = s.ring ∧ t.parser = s.parser ∧ t.evq = s.evq ∧ t.arq.maxRetry = s.arq.maxRetry ∧
    t.out.resplog = s.out.resplog ∧ s.out.notelog <+: t.out.notelog ∧
    ∃ es, t.out.txlog = s.out.txlog ++ es ∧ es.length ≤ 1

theorem HandlerWrites.refl (s : State) : HandlerWrites s s :=
  ⟨rfl, rfl, rfl, rfl, rfl, rfl, List.prefix_rfl, [], (List.append_nil _).symm, Nat.zero_le 1⟩

/-- R292, R293. -/
theorem HandlerWrites.notify {s u : State} (n : Note) (h : HandlerWrites s u) : HandlerWrites s (notify n u) := by
  obtain ⟨hcfg, hring, hparser, hevq, hmax, hresp, hnote, htx⟩ := h
  exact ⟨hcfg, hring, hparser, hevq, hmax, hresp, hnote.trans ⟨[n], rfl⟩, htx⟩

/-- The one place a frame is logged (R291). -/
theorem transmit_writes (f : Frame) (s : State) : (transmit f s).Ends (HandlerWrites s) := by
  rw [transmit_eq]
  cases (drawStatus s).1 <;>
    exact ⟨rfl, rfl, rfl, rfl, rfl, rfl, List.prefix_rfl, _, rfl, Nat.le_refl 1⟩

/-- R186, R191. -/
theorem transmitTx_writes (s : State) : (transmitTx s).Ends (HandlerWrites s) :=
  .ofRead fun f => transmit_writes f s

/-- R186, R191. -/
theorem retransmit_writes (s : State) : (retransmit s).Ends (HandlerWrites s) :=
  (transmitTx_writes s).andThen fun _ => id

/-- R202. -/
theorem abandon_writes (s : State) : HandlerWrites s (abandon s) :=
  .notify .sendFail (.refl s)

/-- R183 to R185. -/
theorem handleSendRequest_writes (dest : Word) (len : Byte) (payload : List Byte) (s : State) :
    (handleSendRequest dest len payload s).Ends (HandlerWrites s) := by
  unfold handleSendRequest
  split
  · exact .refl s
  · split
    · exact .ofRead fun q => .refl s
    · exact .ofRead fun q => .ofRead fun p => .ofRead fun m => (transmitTx_writes _).andThen fun _ => id

/-- R186 to R188. -/
theorem handleSendTimeout_writes (s : State) : (handleSendTimeout s).Ends (HandlerWrites s) := by
  unfold handleSendTimeout
  split
  · exact .refl s
  · split
    · exact retransmit_writes s
    · exact abandon_writes s

/-- R189. -/
theorem handleReq_writes (f : Frame) (s : State) : (handleReq f s).Ends (HandlerWrites s) :=
  (transmit_writes _ (s.setArq { s.arq with recvSeq := some f.seq })).andThen fun _ h => .ofRead fun _ => h.notify _

/-- R190, R193. -/
theorem handleAck_writes (f : Frame) (s : State) : (handleAck f s).Ends (HandlerWrites s) := by
  refine .ofRead fun hit => ?_
  cases hit with
  | false => exact .refl s
  | true => exact .notify .sendOk (.refl s)

/-- R191, R192, R194. -/
theorem handleNack_writes (f : Frame) (s : State) : (handleNack f s).Ends (HandlerWrites s) := by
  refine .ofRead fun hit => ?_
  split
  · split
    · exact retransmit_writes (timerCancel .sendTmo s)
    · exact abandon_writes (timerCancel .sendTmo s)
  · exact .refl s

/-- R189 to R195. -/
theorem handleFrameReceived_writes (f : Frame) (s : State) : (handleFrameReceived f s).Ends (HandlerWrites s) := by
  unfold handleFrameReceived
  split
  · exact handleReq_writes f s
  · exact handleAck_writes f s
  · exact handleNack_writes f s
  · exact .refl s

/-- The handler of any event: FrameReceiveTimeout's alone also resets the parser (R182, R197). -/
theorem handleEvent_writes (ev : Event) (s : State) :
    (handleEvent ev s).Ends fun t => ∃ p, HandlerWrites (s.setParser p) t := by
  have keeps : ∀ t, HandlerWrites s t → ∃ p, HandlerWrites (s.setParser p) t := fun _ h => ⟨s.parser, h⟩
  cases ev with
  | sendRequest dest len payload => exact (handleSendRequest_writes dest len payload s).mono keeps
  | sendTimeout => exact (handleSendTimeout_writes s).mono keeps
  | frameReceived f => exact (handleFrameReceived_writes f s).mono keeps
  | frameChecksumError f => exact (transmit_writes _ s).mono keeps
  | frameReceiveTimeout => exact ⟨_, .refl _⟩

/-! ### What each instruction writes -/

/-- The elements an instruction may write, and how, where it answers a next state. -/
def Writes (s t : State) : Instr → Prop
  | .rxPut _ => ∃ r status, t = respond status none (s.setRing r)
  | .parseStep => ∃ r, ParserWrites (s.setRing r) t
  | .tick _ => ∃ tm, Posts (s.setTimers tm) t
  | .sendReq _ _ _ => ∃ u, Posts s u ∧ (t = u ∨ t = respond .ok none u)
  | .cfgWr _ _ => ∃ m status, t = respond status none (s.setArq { s.arq with maxRetry := m })
  | .cfgRd _ => ∃ status v, t = respond status v s
  | .linkInit => ∃ a e, t = (s.setArq a).setEnv e
  | .linkDispatch => ∃ ev q p, s.evq = ev :: q ∧ HandlerWrites ((s.setEvq q).setParser p) t
  | .reset => t = resetBlock s
  | .reserved _ => t = respond .err none s
  | .evFrameReceiveTimeout => ∃ p, HandlerWrites (s.setParser p) t
  | _ => HandlerWrites s t

/-- Every instruction, from every state. -/
theorem exec_writes {i : Instr} {s t : State} (he : exec i s = .next t) : Writes s t i := by
  cases i with
  | rxPut b => exact Res.Ends.of_whenAlive (fun _ => putReceived_writes b s) he
  | parseStep =>
    obtain ⟨-, hp⟩ := whenAlive_eq_next he
    obtain ⟨b, u, hg, ht⟩ := parseOldest_eq_next hp
    obtain ⟨-, rfl⟩ := rbGet_eq_some hg
    exact ⟨_, (parseByte_writes b _).of_next ht⟩
  | tick delta => exact ⟨_, Res.Ends.of_whenAlive (fun _ => postAll_posts _ (.refl _)) he⟩
  | sendReq dest len payload =>
    exact Res.Ends.of_whenAlive (fun _ => postSendRequest_writes dest len payload s) he
  | cfgWr reg value => exact Res.Ends.of_whenAlive (fun _ => writeReg_writes reg value s) he
  | cfgRd reg => exact (answerRead_writes reg s).of_next he
  | linkInit => exact Res.Ends.of_whenInit (fun _ _ => initLink_writes s) he
  | linkDispatch =>
    obtain ⟨-, -, hd⟩ := whenHandle_eq_next he
    obtain ⟨ev, q, hq, ht⟩ := dispatchOldest_eq_next hd
    obtain ⟨p, hw⟩ := (handleEvent_writes ev _).of_next ht
    exact ⟨ev, q, p, hq, hw⟩
  | reset => exact (Host.Outcome.next.inj he).symm
  | reserved opcode => exact (Host.Outcome.next.inj he).symm
  | evSendRequest dest len payload =>
    exact Res.Ends.of_whenHandle (fun _ _ => handleSendRequest_writes dest len payload s) he
  | evSendTimeout => exact Res.Ends.of_whenHandle (fun _ _ => handleSendTimeout_writes s) he
  | evFrameReceived f => exact Res.Ends.of_whenHandle (fun _ _ => handleFrameReceived_writes f s) he
  | evFrameChecksumError f => exact Res.Ends.of_whenHandle (fun _ _ => transmit_writes _ s) he
  | evFrameReceiveTimeout =>
    exact Res.Ends.of_whenHandle (fun _ _ => handleEvent_writes .frameReceiveTimeout s) he
  | frameReq f => exact Res.Ends.of_whenHandle (fun _ _ => handleReq_writes f s) he
  | frameAck f => exact Res.Ends.of_whenHandle (fun _ _ => handleAck_writes f s) he
  | frameNack f => exact Res.Ends.of_whenHandle (fun _ _ => handleNack_writes f s) he
  | frameOther f =>
    exact Res.Ends.of_whenHandle (P := HandlerWrites s) (rule := handleOther f s) (fun _ _ => .refl s) he

/-! ### Only LINK transmits (R88) -/

/-- From any state with the records as they are in `s`, a handler logs at most one frame. -/
theorem HandlerWrites.txlog {s u t : State} (h : HandlerWrites u t) (hu : u.out = s.out) :
    ∃ es, t.out.txlog = s.out.txlog ++ es ∧ es.length ≤ 1 := by
  obtain ⟨-, -, -, -, -, -, -, htx⟩ := h
  rwa [hu] at htx

/-- What every instruction outside the LINK agent, and LINK_INIT, does to `txlog`: nothing. -/
theorem Writes.txlog_eq {i : Instr} {s t : State} (h : Writes s t i) (hi : i.ofLink = false ∨ i = .linkInit) :
    t.out.txlog = s.out.txlog := by
  cases i with
  | rxPut b => obtain ⟨r, status, rfl⟩ := h; rfl
  | parseStep => obtain ⟨r, p, tm, q, f, code, -, rfl⟩ := h; rfl
  | tick delta => obtain ⟨tm, q, f, code, -, rfl⟩ := h; rfl
  | sendReq dest len payload => obtain ⟨u, ⟨q, f, code, -, rfl⟩, rfl | rfl⟩ := h <;> rfl
  | cfgWr reg value => obtain ⟨m, status, rfl⟩ := h; rfl
  | cfgRd reg => obtain ⟨status, v, rfl⟩ := h; rfl
  | linkInit => obtain ⟨a, e, rfl⟩ := h; rfl
  | reset => cases h; rfl
  | reserved opcode => cases h; rfl
  | _ => simp [Instr.ofLink] at hi

/-- Settles O50: a handler logs at most one frame, and every other instruction none. -/
theorem onlyLinkTransmits : Obligations.OnlyLinkTransmits := by
  intro i s t he
  have h := exec_writes he
  by_cases hi : i.ofLink = true ∧ i ≠ .linkInit
  · have htx : ∃ es, t.out.txlog = s.out.txlog ++ es ∧ es.length ≤ 1 := by
      obtain ⟨hlink, hinit⟩ := hi
      cases i with
      | linkDispatch => obtain ⟨ev, q, p, -, hw⟩ := h; exact hw.txlog rfl
      | evFrameReceiveTimeout => obtain ⟨p, hw⟩ := h; exact hw.txlog rfl
      | linkInit => exact absurd rfl hinit
      | rxPut | parseStep | tick | sendReq | cfgWr | cfgRd | reset | reserved => cases hlink
      | _ => exact HandlerWrites.txlog h rfl
    obtain ⟨es, hes, hlen⟩ := htx
    exact ⟨es, hes, hlen, fun _ => hi⟩
  · have hout : i.ofLink = false ∨ i = .linkInit := by
      rw [not_and_or, Bool.not_eq_true, not_not] at hi
      exact hi
    exact ⟨[], by rw [h.txlog_eq hout, List.append_nil], Nat.zero_le 1, fun hne => absurd rfl hne⟩

/-! ### The writers of the shared elements (R87, R340) -/

/-- Settles O52, by cases on the instruction in `exec_writes`. -/
theorem sharedElementsHaveTheirWriters : Obligations.SharedElementsHaveTheirWriters := by
  intro i s t he hr
  have h := exec_writes he
  cases i with
  | rxPut b => obtain ⟨r, status, rfl⟩ := h; simp [respond]
  | parseStep => obtain ⟨r, p, tm, q, f, code, -, rfl⟩ := h; simp
  | tick delta => obtain ⟨tm, q, f, code, -, rfl⟩ := h; simp
  | sendReq dest len payload => obtain ⟨u, ⟨q, f, code, -, rfl⟩, rfl | rfl⟩ := h <;> simp [respond]
  | cfgWr reg value => obtain ⟨m, status, rfl⟩ := h; simp [respond]
  | cfgRd reg => obtain ⟨status, v, rfl⟩ := h; simp [respond]
  | linkInit => obtain ⟨a, e, rfl⟩ := h; simp [Instr.ofLink]
  | linkDispatch =>
    obtain ⟨ev, q, p, -, -, hring, -, -, hmax, -⟩ := h
    simp [hring, hmax, Instr.ofLink]
  | evFrameReceiveTimeout =>
    obtain ⟨p, -, hring, -, hevq, hmax, -⟩ := h
    simp [hring, hevq, hmax, Instr.ofLink]
  | reset => exact absurd rfl hr
  | reserved opcode => cases h; simp [respond]
  | _ =>
    obtain ⟨-, hring, hparser, hevq, hmax, -⟩ := h
    simp [hring, hparser, hevq, hmax, Instr.ofLink]

end Sys2Proof.Machine
end

section
/-! The encodings (30_encoding.md): the command decoder and the command words are inverse to each other (O1, O2), so that no word is a
proper initial part of another (O3); the words of R97 and R98 written out (O8) and the reserved opcodes (O4); the wire layout read back
(O5) and the row a frame's type byte names (O6); the signal codes (O7); and the step that runs a decoded word (O9). -/

namespace Sys2Proof

/-! ### The command word of a command decodes to it (R97, R98, R100) -/

/-- R100: the reserved opcodes by number. -/
theorem reservedOpcode_iff {op : Byte} : reservedOpcode op = true ↔
    op.toNat = 0x00 ∨ (0x09 ≤ op.toNat ∧ op.toNat ≤ 0x0E) ∨ 0x10 ≤ op.toNat := by
  simp only [reservedOpcode, Bool.or_eq_true, Bool.and_eq_true, beq_iff_eq, decide_eq_true_eq, ← BitVec.toNat_inj,
    BitVec.toNat_ofNat]
  omega

/-- A reserved opcode is none of those R97 lists. -/
theorem ne_of_reservedOpcode {op listed : Byte} (h : reservedOpcode op = true) (hl : reservedOpcode listed = false) :
    op ≠ listed := by
  rintro rfl
  exact Bool.false_ne_true (hl.symm.trans h)

/-- A reserved opcode is a word of its own, whatever follows it (R100). -/
theorem decode_reserved {op : Byte} (h : reservedOpcode op = true) (rest : List Byte) :
    decode (op :: rest) = .ok (.reserved op, rest) := by
  simp (disch := decide) only [decode, decodeOpcode, ne_of_reservedOpcode h, if_false]

/-- R98: the operand of TICK. -/
theorem decodeTick_wordBytes (delta : Word) (rest : List Byte) :
    decodeTick (wordBytes delta ++ rest) = .ok (.tick delta, rest) := by
  simp [wordBytes, decodeTick]

/-- R98: the operands of CFG_WR. -/
theorem decodeCfgWr_wordBytes (reg : Byte) (value : Word) (rest : List Byte) :
    decodeCfgWr (reg :: wordBytes value ++ rest) = .ok (.cfgWr reg value, rest) := by
  simp [wordBytes, decodeCfgWr]

/-- R98: the operands of SEND_REQ, the payload as long as its length byte says. -/
theorem decodeSendReq_wordBytes (dest : Word) {len : Byte} {payload : List Byte} (h : payload.length = len.toNat)
    (rest : List Byte) :
    decodeSendReq (wordBytes dest ++ len :: payload ++ rest) = .ok (.sendReq dest len payload, rest) := by
  simp [wordBytes, decodeSendReq, ← h]

/-- Settles O1, by cases on the command. -/
theorem commandWordRoundTrip : Obligations.CommandWordRoundTrip := by
  intro c i rest hi hw
  cases i with
  | rxPut b => rfl
  | parseStep => rfl
  | tick delta => exact decodeTick_wordBytes delta rest
  | sendReq dest len payload => exact decodeSendReq_wordBytes dest (Machine.length_of_payloadFits hw) rest
  | cfgWr reg value => exact decodeCfgWr_wordBytes reg value rest
  | cfgRd reg => rfl
  | linkInit => rfl
  | linkDispatch => rfl
  | reset => rfl
  | reserved opcode => exact decode_reserved hw rest
  | _ => cases hi

/-! ### What the decoder reads is a command word (R97, R98, R101) -/

/-- Whatever the operand decoder of an opcode reads, its opcode and operands are the word of the instruction it answers. -/
theorem encode_of_decodeOpcode (c : Config) {op : Byte} {t rest : List Byte} {i : Instr}
    (h : decodeOpcode op t = .ok (i, rest)) : encode c i ++ rest = op :: t := by
  unfold decodeOpcode at h
  split_ifs at h with h1 h2 h3 h4 h5 h6 h7 h8 h15
  · unfold decodeRxPut at h; split at h <;> cases h; subst h1; rfl
  · cases h; subst h2; rfl
  · unfold decodeTick at h; split at h <;> cases h; simp [encode, h3]
  · unfold decodeSendReq at h; split at h
    · split at h <;> cases h; simp [encode, h4]
    · cases h
  · unfold decodeCfgWr at h; split at h <;> cases h; simp [encode, h5]
  · unfold decodeCfgRd at h; split at h <;> cases h; subst h6; rfl
  · cases h; subst h7; rfl
  · cases h; subst h8; rfl
  · cases h; subst h15; rfl
  · cases h; rfl

/-- Settles O2: `decode_command` says what is read, and `encode_of_decodeOpcode` that it is the bytes read. -/
theorem decodedBytesAreTheCommandWord : Obligations.DecodedBytesAreTheCommandWord := by
  intro c bs i rest h
  obtain ⟨hi, hw⟩ := Machine.decode_command (c := c) h
  refine ⟨hi, hw, ?_⟩
  cases bs with
  | nil => cases h
  | cons op t => exact encode_of_decodeOpcode c h

/-! ### Words cut short (R101) -/

/-- Where there is an opcode byte, the only refusal is that the word is cut short: each branch answers that or an instruction. -/
theorem decodeOpcode_eq_error {op : Byte} {t : List Byte} {e : DecodeError} (h : decodeOpcode op t = .error e) :
    e = .cutShort := by
  simp only [decodeOpcode, decodeRxPut, decodeTick, decodeSendReq, decodeCfgWr, decodeCfgRd] at h
  repeat' split at h
  all_goals cases h
  all_goals rfl

/-- A refusal is for want of any byte, or for a word cut short. -/
theorem decode_eq_error {bs : List Byte} {e : DecodeError} (h : decode bs = .error e) :
    e = if bs = [] then .noWord else .cutShort := by
  cases bs with
  | nil => exact (Except.error.inj h).symm
  | cons op t => exact decodeOpcode_eq_error h

/-- No word is a proper initial part of another: a byte string that decodes and that a command's word continues is the whole word, since
what it decodes to is also what the word decodes to. -/
theorem append_eq_nil_of_decode {c : Config} {i j : Instr} {bs after rest : List Byte} (hi : i.isCommand = true)
    (hw : i.wf c = true) (hword : bs ++ after = encode c i) (h : decode bs = .ok (j, rest)) : after = [] := by
  obtain ⟨hj, hjw, hbs⟩ := decodedBytesAreTheCommandWord c bs j rest h
  have hread_i : decode (encode c i) = .ok (i, []) := by
    simpa using commandWordRoundTrip c i [] hi hw
  have hread_j : decode (encode c i) = .ok (j, rest ++ after) := by
    rw [← hword, ← hbs, List.append_assoc]
    exact commandWordRoundTrip c j (rest ++ after) hj hjw
  have hnil : [] = rest ++ after := congrArg Prod.snd (Except.ok.inj (hread_i.symm.trans hread_j))
  exact (List.append_eq_nil_iff.mp hnil.symm).2

/-- Settles O3: a proper initial part decodes to nothing, and is empty exactly where its length is 0. -/
theorem cutShortWordIsNoCommand : Obligations.CutShortWordIsNoCommand := by
  intro c i k hi hw hk
  cases h : decode ((encode c i).take k) with
  | ok p =>
    have hnil := append_eq_nil_of_decode hi hw (List.take_append_drop k (encode c i)) h
    exact absurd (List.drop_eq_nil_iff.mp hnil) (Nat.not_le.mpr hk)
  | error e =>
    have hempty : (encode c i).take k = [] ↔ k = 0 := by
      rw [List.take_eq_nil_iff, or_iff_left (List.ne_nil_of_length_pos (Nat.zero_lt_of_lt hk))]
    rw [decode_eq_error h]
    simp only [hempty]

/-! ### The words of the spec (95_test_vectors.md) -/

/-- Settles O8: each word is the command word of its instruction, so O1 reads it back. -/
theorem wordsOfTheSpecDecode : Obligations.WordsOfTheSpecDecode :=
  have reads (i : Instr) (rest : List Byte) (hi : i.isCommand = true) (hw : i.wf Config.tc = true) :=
    commandWordRoundTrip Config.tc i rest hi hw
  ⟨reads (.rxPut 0x7E#8) [] rfl rfl, reads (.tick 10#32) [] rfl rfl,
    reads (.sendReq 0x00000002#32 3#8 [0x01#8, 0x02#8, 0x03#8]) [] rfl rfl, reads (.cfgWr 0x00#8 5#32) [] rfl rfl,
    reads (.cfgRd 0x01#8) [] rfl rfl, reads .linkDispatch [0x0F#8] rfl rfl⟩

/-! ### The wire frame (R90 to R94) -/

/-- What a well-formed frame is: its payload as long as its length byte says, which `MAX_PAYLOAD` bounds (R160). -/
theorem Frame.wf_iff {c : Config} {f : Frame} :
    f.wf c = true ↔ f.payload.length = f.len.toNat ∧ f.len.toNat ≤ c.maxPayload.toNat := by
  simp [Frame.wf, payloadFits]

/-- The wire layout of R90 read back from a frame's header, its payload and its checksum byte. -/
theorem decodeFrame_header {c : Config} {f : Frame} (hp : f.payload.length = f.len.toNat)
    (hmax : f.len.toNat ≤ c.maxPayload.toNat) (rest : List Byte) :
    decodeFrame c (f.header c ++ (f.payload ++ f.fcs :: rest)) = .ok (f, rest) := by
  have hfits : f.payload.length ≤ c.maxPayload.toNat := hp.trans_le hmax
  simp [Frame.header, wordBytes, decodeFrame, hfits, ← hp]

/-- Settles O5, with `serialise_length` for the length. -/
theorem frameWireRoundTrip : Obligations.FrameWireRoundTrip := by
  intro c f rest hw
  obtain ⟨hp, hmax⟩ := Frame.wf_iff.mp hw
  refine ⟨serialise_length hw, ?_⟩
  rw [serialise, Frame.body_eq hw, List.append_assoc, List.append_assoc]
  exact decodeFrame_header hp hmax rest

/-- Under a legal configuration the three type codes differ (R10). -/
theorem Config.types_ne {c : Config} (hv : c.valid = true) :
    c.typeReq ≠ c.typeAck ∧ c.typeReq ≠ c.typeNack ∧ c.typeAck ≠ c.typeNack := by
  simp only [Config.valid, List.all_cons, Bool.and_eq_true, id, bne_iff_ne] at hv
  obtain ⟨hra, hrn, han, -⟩ := hv
  exact ⟨hra, hrn, han⟩

/-! ### The signal codes (R103) -/

/-- The codes that name no signal. -/
theorem Signal.ofCode_eq_none_iff {code : Byte} :
    Signal.ofCode code = none ↔ code.toNat = 0 ∨ 6 ≤ code.toNat := by
  unfold Signal.ofCode
  split_ifs <;> simp only [false_iff, true_iff] <;> bv_omega

/-- Settles O7. -/
theorem signalCodesAreOneToFive : Obligations.SignalCodesAreOneToFive :=
  ⟨rfl, rfl, rfl, rfl, rfl, fun g => by cases g <;> rfl,
    fun _ => Option.isNone_iff_eq_none.trans Signal.ofCode_eq_none_iff⟩

end Sys2Proof

namespace Sys2Proof.Machine

/-! ### The reserved opcodes (R100) -/

/-- Settles O4. -/
theorem reservedOpcodesAnswerErr : Obligations.ReservedOpcodesAnswerErr := fun _ rest _ hop =>
  ⟨decode_reserved (reservedOpcode_iff.mpr hop) rest, rfl⟩

/-! ### The rows of a received frame (R94) -/

/-- EV_FrameReceived is the `FRAME_` row that the frame's type byte names (R94, R189 to R195). -/
theorem exec_evFrameReceived (f : Frame) (s : State) :
    exec (.evFrameReceived f) s = exec (frameInstr s.cfg f) s := by
  simp only [exec, execEvFrameReceived, handleFrameReceived, frameInstr]
  cases frameKind s.cfg f.type <;> rfl

/-- From a state of the invariant the handling of a well-formed frame answers a next state with the queue as it was (R189 to R195). -/
theorem exec_evFrameReceived_next {f : Frame} {s : State} (h : s.Inv) (hf : s.fatal = false)
    (hl : s.arq.lstate = .handle) (hw : f.wf s.cfg = true) :
    ∃ t, exec (.evFrameReceived f) s = .next t ∧ t.evq = s.evq := by
  obtain ⟨t, ht, heff⟩ := (handleFrameReceived_effect h hf hl hw).outcome
  exact ⟨t, (whenHandle_handle hf hl _).trans ht, heff.evq⟩

/-- Settles O6, from the row that the type byte names. -/
theorem frameTypeSelectsItsRow : Obligations.FrameTypeSelectsItsRow := by
  intro f s hv
  obtain ⟨hra, hrn, han⟩ := Config.types_ne hv
  refine ⟨fun h => ?_, fun h => ?_, fun h => ?_, fun hr ha hn => ?_, exec_evFrameReceived_next⟩ <;>
    rw [exec_evFrameReceived]
  · simp [frameInstr, frameKind, h]
  · simp [frameInstr, frameKind, h, hra.symm]
  · simp [frameInstr, frameKind, h, hrn.symm, han.symm]
  · simp [frameInstr, frameKind, hr, ha, hn]

/-! ### The step (R102) -/

/-- Settles O9. -/
theorem stepRunsDecodedInstruction : Obligations.StepRunsDecodedInstruction := by
  intro s i rest hv hd
  have hf : fetch s = .ok (i, setScript rest s) := by rw [fetch, hd]
  rw [step, if_pos hv, hf]
  rfl

end Sys2Proof.Machine
end

section
/-! The ring buffer (40_ring_buffer.md): the answers of RX_PUT (O14), the one element a byte store touches (O15), and the order in which
bytes leave the ring (O16). -/

namespace Sys2Proof.Machine

/-! ### What RbPut and RX_PUT answer (R120, R121, R123) -/

/-- The ring with a byte stored at its tail (R121). -/
def pushed (c : Config) (b : Byte) (r : Ring) : Ring :=
  ⟨r.mem.write r.tail b, r.head, (r.tail + 1) % c.rbCap, r.count + 1⟩

/-- RbPut that accepts a byte had room and writes the ring alone (R121). -/
theorem rbPut_eq_some {s u : State} {b : Byte} (h : rbPut b s = .ok (some u)) :
    s.ring.count ≠ s.cfg.rbCap ∧ u = s.setRing (pushed s.cfg b s.ring) := by
  unfold rbPut at h
  split at h
  · cases h
  · next hc =>
    split at h
    · cases h
    · next m hm =>
      obtain ⟨-, rfl⟩ := arrayWrite_eq_ok hm
      cases h
      exact ⟨hc, rfl⟩

/-- R123. -/
theorem putReceived_full {s : State} (b : Byte) (hc : s.ring.count = s.cfg.rbCap) :
    putReceived b s = .ok (respond .full none s) := by
  rw [putReceived, rbPut_full b hc, Res.ofRead_ok]

/-- R121. -/
theorem putReceived_room {s : State} (b : Byte) (hc : s.ring.count ≠ s.cfg.rbCap) (ht : s.ring.tail < s.cfg.rbCap) :
    putReceived b s = .ok (respond .ok none (s.setRing (pushed s.cfg b s.ring))) := by
  rw [putReceived, rbPut_room b hc ht, Res.ofRead_ok]
  rfl

/-- While alive RX_PUT answers the state its rule goes on in (R120). -/
theorem exec_rxPut_next {b : Byte} {s t : State} (hf : s.fatal = false) (ht : putReceived b s = .ok t) :
    exec (.rxPut b) s = .next t :=
  (whenAlive_alive hf _).trans (congrArg Res.outcome ht)

/-- Settles O14: one case for a fatal block, a full ring and a ring with room. -/
theorem rxPutAppendsOrAnswersFull : Obligations.RxPutAppendsOrAnswersFull := fun b _ =>
  ⟨fun hf => whenAlive_fatal hf _,
    fun hf hc => exec_rxPut_next hf (putReceived_full b hc),
    fun hf hc ht => exec_rxPut_next hf (putReceived_room b hc ht)⟩

/-! ### The element a byte store touches (R121, R122, R239) -/

/-- Statements after a read, where the value read is known. -/
theorem Res.Ends.ofRead_of_eq {α : Type} {P : State → Prop} {read : Except Fault α} {next : α → Res}
    (h : ∀ a, read = .ok a → (next a).Ends P) : (Res.ofRead read next).Ends P := by
  cases read with
  | ok a => exact h a rfl
  | error e => trivial

/-- RX_PUT's store: the element at the tail of a ring with room (R121). -/
theorem putReceived_stores (b : Byte) (s : State) : (putReceived b s).Ends fun t =>
    t.parser = s.parser ∧ t.arq = s.arq ∧
      ∀ k, k ≠ s.ring.tail ∨ s.ring.count = s.cfg.rbCap → t.ring.mem.read k = s.ring.mem.read k := by
  refine .ofRead_of_eq fun answer ha => ?_
  cases answer with
  | none => exact ⟨rfl, rfl, fun _ _ => rfl⟩
  | some u =>
    obtain ⟨hroom, rfl⟩ := rbPut_eq_some ha
    exact ⟨rfl, rfl, fun k hk => Memory.read_write_other _ _ (hk.resolve_right hroom)⟩

/-- In Data the parser stores its byte at `pidx` (R239). -/
theorem takeData_stores (b : Byte) (s : State) : (takeData b s).Ends fun t =>
    t.parser.rxPayload = s.parser.rxPayload.write s.parser.pidx.toNat b := by
  refine .ofRead_of_eq fun m hm => .ofRead fun len => ?_
  obtain ⟨-, rfl⟩ := arrayWrite_eq_ok hm
  split <;> rfl

/-- Posting an event leaves the parser (R161). -/
theorem Posts.parser_eq {s t : State} (h : Posts s t) : t.parser = s.parser := by
  obtain ⟨q, f, code, -, rfl⟩ := h
  rfl

/-- Outside Data no transition stores a payload byte (R232 to R238, R240). -/
theorem parseByte_keepsPayload (b : Byte) {s : State} (hd : s.parser.pstate ≠ .data) : (parseByte b s).Ends fun t =>
    t.parser.rxPayload = s.parser.rxPayload := by
  unfold parseByte
  cases hst : s.parser.pstate with
  | awaitingSof => simp only [takeSof]; split <;> rfl
  | destAddr => exact .ofRead fun a => by split <;> rfl
  | srcAddr => exact .ofRead fun a => by split <;> rfl
  | type | subType | seqNum => rfl
  | len =>
    simp only [takeLen]
    split
    · rfl
    · split <;> rfl
  | data => exact absurd hst hd
  | fcs =>
    refine .ofRead fun f => Res.Ends.andThen ((evqPost_posts _ (.refl _)).mono fun u hu => ?_) fun _ h => h
    exact (congrArg Parser.rxPayload hu.parser_eq :)

/-- The one payload element that a transition may store (R239). -/
theorem parseByte_stores (b : Byte) (s : State) : (parseByte b s).Ends fun t =>
    ∀ k, k ≠ s.parser.pidx.toNat ∨ s.parser.pstate ≠ .data →
      t.parser.rxPayload.read k = s.parser.rxPayload.read k := by
  by_cases hd : s.parser.pstate = .data
  · rw [parseByte, hd]
    refine (takeData_stores b s).mono fun t ht k hk => ?_
    rw [ht, Memory.read_write_other _ _ (hk.resolve_right fun hne => hne rfl)]
  · exact (parseByte_keepsPayload b hd).mono fun t ht k _ => by rw [ht]

/-- A transition leaves the ring and the engine (R230). -/
theorem ParserWrites.ring_arq {s t : State} (h : ParserWrites s t) : t.ring = s.ring ∧ t.arq = s.arq := by
  obtain ⟨p, tm, q, f, code, -, rfl⟩ := h
  exact ⟨rfl, rfl⟩

/-- Settles O15: for PARSE_STEP, RbGet stores no byte and one transition stores at most one. -/
theorem byteStoresTouchOneElement : Obligations.ByteStoresTouchOneElement := by
  refine ⟨fun b s t he => ?_, fun s t he => ?_⟩
  · obtain ⟨hparser, harq, hring⟩ := Res.Ends.of_whenAlive (fun _ => putReceived_stores b s) he
    exact ⟨by rw [hparser], by rw [harq], hring⟩
  · obtain ⟨-, hp⟩ := whenAlive_eq_next he
    obtain ⟨b, u, hg, ht⟩ := parseOldest_eq_next hp
    obtain ⟨-, rfl⟩ := rbGet_eq_some hg
    obtain ⟨hring, harq⟩ := ((parseByte_writes b _).of_next ht).ring_arq
    have hpayload := (parseByte_stores b _).of_next ht
    exact ⟨by rw [hring]; rfl, by rw [harq]; rfl, hpayload⟩

/-! ### The order of the bytes held (R121, R122, R124) -/

/-- Two places less than the capacity apart are different slots of the ring (R32, R33). -/
theorem slot_ne {cap head k n : Nat} (hk : k < n) (hn : n < cap) : (head + k) % cap ≠ (head + n) % cap := by
  intro h
  have hmod : k % cap = n % cap := Nat.ModEq.add_left_cancel' head h
  rw [Nat.mod_eq_of_lt (hk.trans hn), Nat.mod_eq_of_lt hn] at hmod
  exact hk.ne hmod

/-- A byte stored comes last: its slot is none of those that hold the bytes before it (R121). -/
theorem Ring.Inv.ringBytes_pushed {c : Config} {r : Ring} (h : r.Inv c) (hc : r.count ≠ c.rbCap) (b : Byte) :
    ringBytes c (pushed c b r) = ringBytes c r ++ [some b] := by
  have hroom : r.count < c.rbCap := Nat.lt_of_le_of_ne h.countInRange hc
  have hbefore : ∀ k < r.count,
      (r.mem.write r.tail b).read ((r.head + k) % c.rbCap) = r.mem.read ((r.head + k) % c.rbCap) := fun k hk =>
    Memory.read_write_other _ _ (h.tailAgrees ▸ slot_ne hk hroom)
  have hlast : (r.mem.write r.tail b).read ((r.head + r.count) % c.rbCap) = some b := by
    rw [← h.tailAgrees, Memory.read_write_same]
  simp only [ringBytes, pushed, List.range_succ, List.map_append, List.map_cons, List.map_nil, hlast]
  rw [List.map_congr_left fun k hk => hbefore k (List.mem_range.mp hk)]

/-- The bytes held are the oldest and then those of the ring without it (R122). -/
theorem Ring.Inv.ringBytes_popped {c : Config} {r : Ring} (h : r.Inv c) (hc : r.count ≠ 0) :
    ringBytes c r = r.mem.read r.head :: ringBytes c (popped c r) := by
  obtain ⟨n, hn⟩ := Nat.exists_eq_succ_of_ne_zero hc
  simp [ringBytes, popped, hn, List.range_succ_eq_map, Nat.mod_eq_of_lt h.headInRange, Nat.add_assoc, Nat.add_comm 1]

/-- RbGet on a ring of the invariant that is not empty takes the oldest byte (R122). -/
theorem Ring.Inv.rbGet_eq_oldest {s : State} (h : s.ring.Inv s.cfg) (hc : s.ring.count ≠ 0) :
    ∃ b, s.ring.mem.read s.ring.head = some b ∧ rbGet s = .ok (some (b, s.setRing (popped s.cfg s.ring))) := by
  obtain ⟨b, hb⟩ := h.exists_oldest hc
  exact ⟨b, hb, rbGet_byte hc h.headInRange hb⟩

/-- RbGet answers empty only where the ring holds nothing (R122). -/
theorem Ring.Inv.count_eq_zero {s : State} (h : s.ring.Inv s.cfg) (hg : rbGet s = .ok none) : s.ring.count = 0 := by
  by_contra hc
  obtain ⟨b, -, hb⟩ := h.rbGet_eq_oldest hc
  rw [hg] at hb
  cases hb

/-- Settles O16, from what a store and a take do to the list of the bytes held. -/
theorem ringIsFifo : Obligations.RingIsFifo := by
  intro s h
  refine ⟨fun b u hp => ?_, fun b u hg => ?_, fun hg => ?_⟩
  · obtain ⟨hroom, rfl⟩ := rbPut_eq_some hp
    exact h.ringBytes_pushed hroom b
  · obtain ⟨hc, -⟩ := rbGet_eq_some hg
    obtain ⟨b', hb, hg'⟩ := h.rbGet_eq_oldest hc
    cases hg.symm.trans hg'
    exact hb ▸ h.ringBytes_popped hc
  · rw [ringBytes, h.count_eq_zero hg]
    rfl

end Sys2Proof.Machine
end

section
/-! The timers (41_timer.md): what TICK posts and keeps where the queue has room for every expiry (O29) and where it has not (O30), and
what setting and cancelling a timer do (O31). -/

namespace Sys2Proof.Machine

/-! ### TICK (R142, R143) -/

/-- The image of the elements with a property, in list order. -/
theorem map_filter_eq_filterMap {α β : Type} (p : α → Bool) (f : α → β) (l : List α) :
    (l.filter p).map f = l.filterMap fun a => if p a then some (f a) else none := by
  rw [← List.filterMap_eq_map, List.filterMap_filter]
  rfl

/-- The events of the timers that expire, in list order (R142, R143). -/
def expiryEvents (delta : Word) (l : List TimerEntry) : List Event :=
  (firedKeys delta l).map signalOf

/-- One event for each timer that expires. -/
theorem expiryEvents_length (delta : Word) (l : List TimerEntry) :
    (expiryEvents delta l).length = (l.filter (fun e => decide (e.remaining.toNat ≤ delta.toNat))).length := by
  simp only [expiryEvents, firedKeys, List.length_map, BitVec.le_def]

theorem expiryEvents_eq_filterMap (delta : Word) (l : List TimerEntry) :
    expiryEvents delta l =
      l.filterMap fun e => if e.remaining.toNat ≤ delta.toNat then some (signalOf e.key) else none := by
  rw [expiryEvents, firedKeys, List.map_map, map_filter_eq_filterMap]
  simp only [decide_eq_true_eq, BitVec.le_def, Function.comp_apply]

theorem keptEntries_eq_filterMap (delta : Word) (l : List TimerEntry) :
    keptEntries delta l =
      l.filterMap fun e => if e.remaining.toNat ≤ delta.toNat then none else some ⟨e.key, e.remaining - delta⟩ := by
  simp only [keptEntries, map_filter_eq_filterMap, Bool.not_eq_true', decide_eq_false_iff_not, BitVec.le_def, ite_not]

/-- Where every event fits TICK posts them all (R142). -/
theorem exec_tick_room {delta : Word} {s : State} (hf : s.fatal = false)
    (hroom : s.evq.length + (expiryEvents delta s.tmList).length ≤ s.cfg.evqCap) :
    exec (.tick delta) s =
      .next ((s.setTimers (keptEntries delta s.tmList)).setEvq (s.evq ++ expiryEvents delta s.tmList)) :=
  have hpost := (postAll_eq (s := s.setTimers (keptEntries delta s.tmList)) (expiryEvents delta s.tmList)
    (Nat.le_of_add_right_le hroom)).trans (if_pos hroom)
  (whenAlive_alive hf _).trans (congrArg Res.outcome hpost)

/-- Where not every event fits TICK fills the queue and raises EVQ_OVERFLOW (R142, R161). -/
theorem exec_tick_overflow {delta : Word} {s : State} (hf : s.fatal = false) (hq : s.evq.length ≤ s.cfg.evqCap)
    (hfull : s.cfg.evqCap < s.evq.length + (expiryEvents delta s.tmList).length) :
    exec (.tick delta) s =
      .next (((s.setTimers (keptEntries delta s.tmList)).setEvq
        (s.evq ++ (expiryEvents delta s.tmList).take (s.cfg.evqCap - s.evq.length))).setFatal true 0x04#8) :=
  have hpost := (postAll_eq (s := s.setTimers (keptEntries delta s.tmList)) (expiryEvents delta s.tmList) hq).trans
    (if_neg (Nat.not_le.mpr hfull))
  (whenAlive_alive hf _).trans (congrArg Res.outcome hpost)

/-- Settles O29. -/
theorem tickFiresExpiredTimersInOrder : Obligations.TickFiresExpiredTimersInOrder := by
  intro delta s hf hroom
  rw [← expiryEvents_length] at hroom
  rw [exec_tick_room hf hroom, keptEntries_eq_filterMap, expiryEvents_eq_filterMap]
  rfl

/-- Settles O30: what is posted is the initial part of the events that fills the queue. -/
theorem tickOverflowIsFatal : Obligations.TickOverflowIsFatal := by
  intro delta s hf hq hfull
  rw [← expiryEvents_length] at hfull
  refine ⟨(expiryEvents delta s.tmList).take (s.cfg.evqCap - s.evq.length), ?_, ?_, ?_⟩
  · rw [exec_tick_overflow hf hq hfull, keptEntries_eq_filterMap]
    rfl
  · rw [List.length_append, List.length_take]
    omega
  · exact expiryEvents_eq_filterMap delta s.tmList ▸ List.take_prefix _ _

/-! ### Setting and cancelling (R140, R141) -/

/-- An entry set is armed (R140). -/
theorem armed_append_entry (k : TimerKey) (n : Word) (l : List TimerEntry) : armed k (l ++ [⟨k, n⟩]) = true :=
  armed_iff.mpr ⟨⟨k, n⟩, List.mem_append_right l List.mem_cons_self, rfl⟩

/-- A timer that is not armed has no entry to drop (R141). -/
theorem dropKey_of_not_armed {k : TimerKey} {l : List TimerEntry} (h : armed k l = false) : dropKey k l = l := by
  refine List.filter_eq_self.mpr fun e he => decide_eq_true fun hk => ?_
  rw [armed_iff.mpr ⟨e, he, hk⟩] at h
  cases h

/-- Settles O31. -/
theorem timerSetAndCancel : Obligations.TimerSetAndCancel := fun k n s =>
  ⟨rfl, rfl, armed_append_entry k n _, armed_dropKey k s.tmList,
    fun h => congrArg s.setTimers (dropKey_of_not_armed h),
    fun h hn => ⟨h.set hn, h.drop⟩⟩

end Sys2Proof.Machine
end

section
/-! The event queue (42_event_queue.md): LINK_DISPATCH alone takes from it, at its front, and everything else that touches it posts at
its end (O51). -/

namespace Sys2Proof.Machine

/-! ### What stays of the queue (R162, R163) -/

/-- R161, R162. -/
theorem Posts.evq_prefix {s t : State} (h : Posts s t) : s.evq <+: t.evq := by
  obtain ⟨q, f, code, hq, rfl⟩ := h
  exact hq

/-- A handler posts nothing. -/
theorem HandlerWrites.evq_eq {s t : State} (h : HandlerWrites s t) : t.evq = s.evq := by
  obtain ⟨-, -, -, hevq, -⟩ := h
  exact hevq

/-- LINK_DISPATCH takes the first event, and its handler leaves the rest (R163, R182). -/
theorem Writes.evq_eq_cons {s t : State} (h : Writes s t .linkDispatch) : ∃ ev, s.evq = ev :: t.evq := by
  obtain ⟨ev, q, p, hq, hw⟩ := h
  have ht : t.evq = q := hw.evq_eq
  exact ⟨ev, ht ▸ hq⟩

/-- Every other instruction but RESET keeps the queue as the front of the new one (R162). -/
theorem Writes.evq_prefix {i : Instr} {s t : State} (h : Writes s t i) (hd : i ≠ .linkDispatch) (hr : i ≠ .reset) :
    s.evq <+: t.evq := by
  cases i with
  | rxPut b => obtain ⟨r, status, rfl⟩ := h; exact List.prefix_rfl
  | parseStep => obtain ⟨r, p, tm, hp⟩ := h; exact hp.evq_prefix
  | tick delta => obtain ⟨tm, hp⟩ := h; exact hp.evq_prefix
  | sendReq dest len payload => obtain ⟨u, hp, rfl | rfl⟩ := h <;> exact hp.evq_prefix
  | cfgWr reg value => obtain ⟨m, status, rfl⟩ := h; exact List.prefix_rfl
  | cfgRd reg => obtain ⟨status, v, rfl⟩ := h; exact List.prefix_rfl
  | linkInit => obtain ⟨a, e, rfl⟩ := h; exact List.prefix_rfl
  | linkDispatch => exact absurd rfl hd
  | reset => exact absurd rfl hr
  | reserved opcode => cases h; exact List.prefix_rfl
  | evFrameReceiveTimeout => obtain ⟨p, hw⟩ := h; exact hw.evq_eq ▸ List.prefix_rfl
  | _ => exact HandlerWrites.evq_eq h ▸ List.prefix_rfl

/-- Settles O51, from what each instruction writes. -/
theorem eventQueueIsFifo : Obligations.EventQueueIsFifo := by
  intro i s t he hr
  have h := exec_writes he
  constructor
  · rintro rfl
    exact h.evq_eq_cons
  · intro hd
    obtain ⟨posted, hp⟩ := h.evq_prefix hd hr
    exact ⟨posted, hp.symm⟩

end Sys2Proof.Machine
end

section
/-! The ARQ engine (43_arq_engine.md): LINK_INIT (O36), the handlers of the events and of the received frames (O37 to O46), how an
unanswered send ends (O47), and what every instruction may do to an outstanding send (O55, O60). -/

namespace Sys2Proof.Machine

/-! ### The draws (R14, assumption log 3) -/

/-- A status draw that the environment has fixed. -/
theorem drawStatus_fixed {s : State} {d : WriteStatus} {ds : List WriteStatus} (h : s.env.writeDraws = d :: ds) :
    drawStatus s = (d, s.setEnv { s.env with writeDraws := ds }) := by
  rw [drawStatus, h]

/-- A sequence-number draw that the environment has fixed. -/
theorem drawSeq_fixed {s : State} {d : Byte} {ds : List Byte} (h : s.env.seqDraws = d :: ds) :
    drawSeq s = (d, s.setEnv { s.env with seqDraws := ds }) := by
  rw [drawSeq, h]

/-- A sequence-number draw takes no command word and no status draw. -/
theorem drawSeq_env (s : State) :
    (drawSeq s).2.env.script = s.env.script ∧ (drawSeq s).2.env.writeDraws = s.env.writeDraws := by
  unfold drawSeq
  split <;> exact ⟨rfl, rfl⟩

/-! ### A frame write by its status (R291) -/

section
variable {f : Frame} {s u : State} (henv : u.env = s.env)
include henv

/-- A write that goes through, its status drawn where the environment is that of `s`. -/
theorem transmit_sent (hd : (drawStatus s).1 = .ok) :
    transmit f u = .ok (logTx (.sent (serialise u.cfg f)) (u.setEnv (drawStatus s).2.env)) := by
  obtain ⟨hst, he⟩ := drawStatus_congr henv
  rw [transmit_eq, hst, he, hd]
  rfl

/-- A write that fails, its status drawn where the environment is that of `s`. -/
theorem transmit_failed (hd : (drawStatus s).1 = .fail) :
    transmit f u =
      .fatal ((logTx (.failed (serialise u.cfg f)) (u.setEnv (drawStatus s).2.env)).setFatal true 0x03#8) := by
  obtain ⟨hst, he⟩ := drawStatus_congr henv
  rw [transmit_eq, hst, he, hd]
  rfl

variable (htx : txFrame u.cfg u.arq.tx = .ok f)
include htx

/-- R186, R191. -/
theorem retransmit_sent (hd : (drawStatus s).1 = .ok) :
    retransmit u =
      .ok (bumpRetry (armSend (logTx (.sent (serialise u.cfg f)) (u.setEnv (drawStatus s).2.env)))) := by
  rw [retransmit_eq htx, transmit_sent henv hd, Res.andThen_ok]

/-- R186, R191. -/
theorem retransmit_failed (hd : (drawStatus s).1 = .fail) :
    retransmit u =
      .fatal ((logTx (.failed (serialise u.cfg f)) (u.setEnv (drawStatus s).2.env)).setFatal true 0x03#8) := by
  rw [retransmit_eq htx, transmit_failed henv hd, Res.andThen_fatal]

end

/-! ### LINK_INIT (R180, R181) -/

/-- R181. -/
theorem initLink_eq (s : State) :
    initLink s = .ok ((s.setArq { s.arq with
      sendSeq := some (drawSeq s).1, recvSeq := some (drawSeq (drawSeq s).2).1, sendState := .idle,
      maxRetry := s.cfg.maxRetryDefault, lstate := .handle }).setEnv (drawSeq (drawSeq s).2).2.env) := by
  simp only [initLink]
  rw [drawSeq_snd (drawSeq s).2, drawSeq_snd s]
  rfl

/-- R180. -/
theorem whenInit_handle {s : State} (hf : s.fatal = false) (hl : s.arq.lstate = .handle)
    (run : Host.Outcome State Fault Refusal) : whenInit s run = .refused .notInInit := by
  simp [whenInit, whenAlive, hf, hl]

/-- Settles O36: the two draws are taken one after the other. -/
theorem linkInitSetsUpTheEngine : Obligations.LinkInitSetsUpTheEngine := by
  intro s
  refine ⟨fun hf => whenAlive_fatal hf _, fun hf hl => whenInit_handle hf hl _, fun hf hl => ?_⟩
  obtain ⟨hscript, hwrite⟩ := drawSeq_env s
  obtain ⟨hscript', hwrite'⟩ := drawSeq_env (drawSeq s).2
  refine ⟨_, _, _, (whenInit_init hf hl _).trans (congrArg Res.outcome (initLink_eq s)), hscript'.trans hscript,
    hwrite'.trans hwrite, fun x y rest hseq => ?_⟩
  rw [drawSeq_fixed hseq, drawSeq_fixed (d := y) (ds := rest) rfl]
  exact ⟨rfl, rfl, rfl⟩

/-! ### LINK_DISPATCH (R182) -/

/-- R180. -/
theorem whenHandle_init {s : State} (hf : s.fatal = false) (hl : s.arq.lstate = .init)
    (run : Host.Outcome State Fault Refusal) : whenHandle s run = .refused .notInHandle := by
  simp [whenHandle, whenAlive, hf, hl]

/-- LINK_DISPATCH is the oldest event's own instruction, on the queue without it (R182, assumption log 7). -/
theorem exec_linkDispatch_cons {s : State} {ev : Event} {rest : List Event} (hq : s.evq = ev :: rest) :
    exec .linkDispatch s = exec (decodeEvent ev) (s.setEvq rest) := by
  calc exec .linkDispatch s = whenHandle s (dispatchOldest s) := rfl
    _ = whenHandle (s.setEvq rest) (handleEvent ev (s.setEvq rest)).outcome := by rw [dispatchOldest, evqTake, hq]; rfl
    _ = exec (decodeEvent ev) (s.setEvq rest) := by cases ev <;> rfl

/-- From a state of the invariant LINK_DISPATCH completes and leaves the other events (R182). -/
theorem exec_linkDispatch_next {s : State} (h : s.Inv) (hf : s.fatal = false) (hl : s.arq.lstate = .handle)
    {ev : Event} {rest : List Event} (hq : s.evq = ev :: rest) :
    ∃ t, exec .linkDispatch s = .next t ∧ t.evq = rest := by
  obtain ⟨t, ht⟩ := dispatchOldest_next h hf hl (hq ▸ List.cons_ne_nil ev rest)
  have he : exec .linkDispatch s = .next t := (whenHandle_handle hf hl _).trans ht
  obtain ⟨ev', hq'⟩ := (exec_writes he).evq_eq_cons
  exact ⟨t, he, (List.cons.inj (hq'.symm.trans hq)).2⟩

/-- Settles O37: each stop by its name, and the oldest event's own instruction otherwise. -/
theorem linkDispatchRunsTheOldestEvent : Obligations.LinkDispatchRunsTheOldestEvent := fun _ =>
  ⟨fun hf => whenAlive_fatal hf _, fun hf hl => whenHandle_init hf hl _,
    fun hf hl hq => (whenHandle_handle hf hl _).trans (dispatchOldest_empty hq),
    fun _ _ => exec_linkDispatch_cons, fun h hf hl _ _ => exec_linkDispatch_next h hf hl⟩

/-! ### SendRequest (R183 to R185) -/

/-- R183. -/
theorem handleSendRequest_sending {s : State} (dest : Word) (len : Byte) (payload : List Byte)
    (hs : s.arq.sendState = .sending) : handleSendRequest dest len payload s = .fatal (s.setFatal true 0x01#8) := by
  rw [handleSendRequest, hs]
  rfl

/-- R185. -/
theorem handleSendRequest_oversize {s : State} {q len : Byte} (dest : Word) (payload : List Byte)
    (hs : s.arq.sendState = .idle) (hq : s.arq.sendSeq = some q) (hlen : s.cfg.maxPayload.toNat < len.toNat) :
    handleSendRequest dest len payload s =
      .fatal ((s.setArq { s.arq with sendSeq := some (q + 1#8) }).setFatal true 0x02#8) := by
  simp only [handleSendRequest, hs, if_pos hlen, oversizeSend, hq]
  rfl

/-- Settles O38: the send state is looked at before the length. -/
theorem refusedSendRequestsAreFatal : Obligations.RefusedSendRequestsAreFatal := fun dest len payload _ hf hl =>
  ⟨fun hs => (whenHandle_handle hf hl _).trans (congrArg Res.outcome (handleSendRequest_sending dest len payload hs)),
    fun _ hs hq hlen =>
      (whenHandle_handle hf hl _).trans (congrArg Res.outcome (handleSendRequest_oversize dest payload hs hq hlen))⟩

/-- An accepted SendRequest fills the payload array from index 0 and transmits the REQ it has loaded (R184). -/
theorem handleSendRequest_accepted {s : State} {q len : Byte} {payload : List Byte} (dest : Word)
    (hs : s.arq.sendState = .idle) (hq : s.arq.sendSeq = some q) (hp : payload.length = len.toNat)
    (hlen : len.toNat ≤ s.cfg.maxPayload.toNat) :
    ∃ m : Memory, (∀ k, m.read k = if k < len.toNat then payload[k]? else s.arq.tx.payload.read k) ∧
      handleSendRequest dest len payload s =
        (transmit (requestFrame s.cfg dest (q + 1#8) len payload)
          (s.setArq (loadSend s.arq (q + 1#8) (requestFrame s.cfg dest (q + 1#8) len payload) m))).andThen
          fun t => .ok (armSend t) := by
  obtain ⟨m, hfill, hread, -, -⟩ :=
    arrayFill_ok (cap := s.cfg.maxPayload.toNat) payload (m := s.arq.tx.payload) (i := 0) (by omega)
  have htx : txFrame s.cfg (.ofFrame (requestFrame s.cfg dest (q + 1#8) len payload) m) =
      .ok (requestFrame s.cfg dest (q + 1#8) len payload) := txFrame_ofFrame hp hlen hfill
  refine ⟨m, fun k => by simpa [hp] using hread k, ?_⟩
  simp only [handleSendRequest, hs, if_neg (Nat.not_lt.mpr hlen), acceptSend, hq, written_some, Res.ofRead_ok,
    payloadBytes_ok hp, hfill, transmitTx, State.setArq_cfg, State.setArq_arq, loadSend, htx]

/-- Settles O39, by the status of the write. -/
theorem sendRequestWhileIdleIsSent : Obligations.SendRequestWhileIdleIsSent := by
  intro dest len q payload s hf hl hs hq hp hlen
  obtain ⟨m, hread, hrun⟩ := handleSendRequest_accepted dest hs hq hp hlen
  refine ⟨requestFrame s.cfg dest (q + 1#8) len payload, m, rfl, rfl, rfl, rfl, rfl, rfl, rfl, rfl, hread, ?_⟩
  refine (whenHandle_handle hf hl _).trans ((congrArg Res.outcome hrun).trans ?_)
  cases hd : (drawStatus s).1 with
  | ok => rw [transmit_sent (State.setArq_env s _) hd]; rfl
  | fail => rw [transmit_failed (State.setArq_env s _) hd]; rfl

/-! ### SendTimeout (R186 to R188) -/

/-- R188. -/
theorem handleSendTimeout_idle {s : State} (hs : s.arq.sendState = .idle) : handleSendTimeout s = .ok s := by
  rw [handleSendTimeout, hs]

/-- R187. -/
theorem handleSendTimeout_ceiling {s : State} (hs : s.arq.sendState = .sending)
    (hr : s.arq.maxRetry.toNat ≤ s.arq.retry.toNat) : handleSendTimeout s = .ok (abandon s) := by
  simp only [handleSendTimeout, hs, BitVec.lt_def, if_neg (Nat.not_lt.mpr hr)]

/-- R186. -/
theorem handleSendTimeout_below {s : State} (hs : s.arq.sendState = .sending)
    (hr : s.arq.retry.toNat < s.arq.maxRetry.toNat) : handleSendTimeout s = retransmit s := by
  simp only [handleSendTimeout, hs, BitVec.lt_def, if_pos hr]

/-- Settles O40: below the ceiling by the status of the write. -/
theorem sendTimeoutRetriesOrAbandons : Obligations.SendTimeoutRetriesOrAbandons := by
  intro s hf hl
  have hrun : exec .evSendTimeout s = (handleSendTimeout s).outcome := whenHandle_handle hf hl _
  rw [hrun]
  refine ⟨fun hs => congrArg Res.outcome (handleSendTimeout_idle hs),
    fun hs hr => congrArg Res.outcome (handleSendTimeout_ceiling hs hr), fun f hs hr htx => ?_⟩
  rw [handleSendTimeout_below hs hr]
  cases hd : (drawStatus s).1 with
  | ok => exact congrArg Res.outcome (retransmit_sent rfl htx hd)
  | fail => exact congrArg Res.outcome (retransmit_failed rfl htx hd)

/-! ### FrameReceived (R189 to R195) -/

/-- Settles O41, by the status of the ACK's write. -/
theorem receivedReqIsAcknowledgedAndDelivered : Obligations.ReceivedReqIsAcknowledgedAndDelivered := by
  intro f s hf hl hp
  refine ⟨buildResponse s.cfg s.cfg.typeAck 0x00#8 f, rfl, rfl, rfl, rfl, rfl, rfl, rfl, rfl, ?_⟩
  refine (whenHandle_handle hf hl (handleReq f s).outcome).trans ?_
  simp only [handleReq, payloadBytes_ok hp, Res.ofRead_ok]
  cases hd : (drawStatus s).1 with
  | ok => rw [transmit_sent (State.setArq_env s _) hd]; rfl
  | fail => rw [transmit_failed (State.setArq_env s _) hd]; rfl

/-- Settles O42: the ACK matches exactly where the engine is Sending and the sequence numbers agree. -/
theorem receivedAckCompletesOrIsIgnored : Obligations.ReceivedAckCompletesOrIsIgnored := by
  intro f q s hf hl hq
  refine (whenHandle_handle hf hl (handleAck f s).outcome).trans ?_
  rw [handleAck, matchesSend_ok hq, Res.ofRead_ok]
  by_cases hm : s.arq.sendState = .sending ∧ f.seq = q
  · rw [if_pos hm, if_pos (decide_eq_true hm)]
    rfl
  · rw [if_neg hm, if_neg (mt of_decide_eq_true hm)]
    rfl

/-- R194. -/
theorem handleNack_ignored {s : State} {f : Frame} {q : Byte} (hq : s.arq.sendSeq = some q)
    (hm : s.arq.sendState = .idle ∨ f.seq ≠ q) : handleNack f s = .ok s := by
  have hno : ¬ (s.arq.sendState = .sending ∧ f.seq = q) := by
    rintro ⟨hs, he⟩
    obtain hi | hne := hm
    · rw [hs] at hi; cases hi
    · exact hne he
  rw [handleNack, matchesSend_ok hq, decide_eq_false hno, Res.ofRead_ok]
  rfl

/-- A matching NACK cancels the send timeout and then does as a SendTimeout while Sending does (R191, R192). -/
theorem handleNack_matching {s : State} {f : Frame} {q : Byte} (hq : s.arq.sendSeq = some q)
    (hs : s.arq.sendState = .sending) (he : f.seq = q) :
    handleNack f s = handleSendTimeout (timerCancel .sendTmo s) := by
  have hsc : (timerCancel .sendTmo s).arq.sendState = .sending := hs
  rw [handleNack, matchesSend_ok hq, decide_eq_true ⟨hs, he⟩, Res.ofRead_ok, handleSendTimeout, hsc]
  rfl

/-- A timer cancelled twice (R141). -/
theorem dropKey_dropKey (k : TimerKey) (l : List TimerEntry) : dropKey k (dropKey k l) = dropKey k l :=
  dropKey_of_not_armed (armed_dropKey k l)

/-- Setting a timer just cancelled is setting it (R140, R141). -/
theorem armSend_timerCancel (s : State) : armSend (timerCancel .sendTmo s) = armSend s := by
  simp only [armSend, timerSet, timerCancel, State.setTimers, dropKey_dropKey]

/-- Settles O43: a matching NACK is handled as a SendTimeout once its timer is cancelled. -/
theorem receivedNackRetriesAbandonsOrIsIgnored : Obligations.ReceivedNackRetriesAbandonsOrIsIgnored := by
  intro f g q s hf hl hq
  have hrun : exec (.frameNack f) s = (handleNack f s).outcome := whenHandle_handle hf hl _
  rw [hrun]
  refine ⟨fun hm => congrArg Res.outcome (handleNack_ignored hq hm), fun hs he hr => ?_, fun hs he hr htx => ?_⟩
  · rw [handleNack_matching hq hs he]
    exact congrArg Res.outcome (handleSendTimeout_ceiling (s := timerCancel .sendTmo s) hs hr)
  · rw [handleNack_matching hq hs he, handleSendTimeout_below (s := timerCancel .sendTmo s) hs hr]
    cases hd : (drawStatus s).1 with
    | ok =>
      have hsent := retransmit_sent (s := s) (u := timerCancel .sendTmo s) rfl htx hd
      have harm := armSend_timerCancel (logTx (.sent (serialise s.cfg g)) (s.setEnv (drawStatus s).2.env))
      exact congrArg Res.outcome (hsent.trans (congrArg (fun t => Res.ok (bumpRetry t)) harm))
    | fail => exact congrArg Res.outcome (retransmit_failed (s := s) (u := timerCancel .sendTmo s) rfl htx hd)

/-- R195. -/
theorem exec_frameOther {f : Frame} {s : State} (hf : s.fatal = false) (hl : s.arq.lstate = .handle) :
    exec (.frameOther f) s = .next s :=
  whenHandle_handle hf hl (handleOther f s).outcome

/-- Settles O44: the type byte names the row `FRAME_OTHER`. -/
theorem receivedOtherFrameIsIgnored : Obligations.ReceivedOtherFrameIsIgnored := by
  intro f s hf hl
  refine ⟨exec_frameOther hf hl, fun hv hreq hack hnack => ?_⟩
  obtain ⟨-, -, -, hother, -⟩ := frameTypeSelectsItsRow f s hv
  exact (hother hreq hack hnack).trans (exec_frameOther hf hl)

/-! ### FrameChecksumError and FrameReceiveTimeout (R196, R197) -/

/-- Settles O45, by the status of the NACK's write. -/
theorem checksumErrorIsNacked : Obligations.ChecksumErrorIsNacked := by
  intro f s hf hl
  refine ⟨buildResponse s.cfg s.cfg.typeNack s.cfg.subNackCsum f, rfl, rfl, rfl, rfl, rfl, rfl, rfl, rfl, ?_⟩
  refine (whenHandle_handle hf hl (handleChecksumError f s).outcome).trans ?_
  cases hd : (drawStatus s).1 with
  | ok => exact congrArg Res.outcome (transmit_sent rfl hd)
  | fail => exact congrArg Res.outcome (transmit_failed rfl hd)

/-- Settles O46: the handler is the parser reset alone. -/
theorem receiveTimeoutResetsTheParser : Obligations.ReceiveTimeoutResetsTheParser := fun s hf hl =>
  whenHandle_handle hf hl (handleReceiveTimeout s).outcome

/-! ### The handlers LINK_DISPATCH runs, as one inversion of the LINK agent's instructions (R182, assumption log 7) -/

/-- The handlers of the LINK agent, FrameReceived's by the kind of frame (R183 to R197). -/
inductive IsHandler : (State → Res) → Prop where
  | sendRequest (dest : Word) (len : Byte) (payload : List Byte) : IsHandler (handleSendRequest dest len payload)
  | sendTimeout : IsHandler handleSendTimeout
  | req (f : Frame) : IsHandler (handleReq f)
  | ack (f : Frame) : IsHandler (handleAck f)
  | nack (f : Frame) : IsHandler (handleNack f)
  | other (f : Frame) : IsHandler (handleOther f)
  | checksumError (f : Frame) : IsHandler (handleChecksumError f)
  | receiveTimeout : IsHandler handleReceiveTimeout

/-- R94. -/
theorem exists_handler_frameReceived (f : Frame) (s : State) :
    ∃ handler, IsHandler handler ∧ handleFrameReceived f s = handler s := by
  unfold handleFrameReceived
  cases frameKind s.cfg f.type with
  | req => exact ⟨_, .req f, rfl⟩
  | ack => exact ⟨_, .ack f, rfl⟩
  | nack => exact ⟨_, .nack f, rfl⟩
  | other => exact ⟨_, .other f, rfl⟩

/-- R182. -/
theorem exists_handler_event (ev : Event) (s : State) :
    ∃ handler, IsHandler handler ∧ handleEvent ev s = handler s := by
  cases ev with
  | sendRequest dest len payload => exact ⟨_, .sendRequest dest len payload, rfl⟩
  | sendTimeout => exact ⟨_, .sendTimeout, rfl⟩
  | frameReceived f => exact exists_handler_frameReceived f s
  | frameChecksumError f => exact ⟨_, .checksumError f, rfl⟩
  | frameReceiveTimeout => exact ⟨_, .receiveTimeout, rfl⟩

/-- A handler leads from `s`, alive and in Handle, to `t`, on the queue as it is or with events taken from its front (R180, R182). -/
def RunsAHandler (s t : State) : Prop :=
  s.fatal = false ∧ s.arq.lstate = .handle ∧
    ∃ handler q, IsHandler handler ∧ q <:+ s.evq ∧ (handler (s.setEvq q)).outcome = .next t

/-- A handler run on the queue as it is. -/
theorem RunsAHandler.of_whenHandle {handler : State → Res} {s t : State} (h : IsHandler handler)
    (he : whenHandle s (handler s).outcome = .next t) : RunsAHandler s t := by
  obtain ⟨hf, hl, ht⟩ := whenHandle_eq_next he
  exact ⟨hf, hl, handler, s.evq, h, List.suffix_rfl, ht⟩

/-- Every instruction of the LINK agent but LINK_INIT runs a handler. -/
theorem runsAHandler_of_exec {i : Instr} {s t : State} (hi : i.ofLink = true) (hinit : i ≠ .linkInit)
    (he : exec i s = .next t) : RunsAHandler s t := by
  cases i with
  | linkInit => exact absurd rfl hinit
  | linkDispatch =>
    obtain ⟨hf, hl, hd⟩ := whenHandle_eq_next he
    obtain ⟨ev, q, hq, ht⟩ := dispatchOldest_eq_next hd
    obtain ⟨handler, hh, heq⟩ := exists_handler_event ev (s.setEvq q)
    exact ⟨hf, hl, handler, q, hh, ⟨[ev], hq.symm⟩, heq ▸ ht⟩
  | evSendRequest dest len payload => exact .of_whenHandle (.sendRequest dest len payload) he
  | evSendTimeout => exact .of_whenHandle .sendTimeout he
  | evFrameReceived f =>
    obtain ⟨handler, hh, heq⟩ := exists_handler_frameReceived f s
    exact .of_whenHandle hh (heq ▸ he)
  | evFrameChecksumError f => exact .of_whenHandle (.checksumError f) he
  | evFrameReceiveTimeout => exact .of_whenHandle .receiveTimeout he
  | frameReq f => exact .of_whenHandle (.req f) he
  | frameAck f => exact .of_whenHandle (.ack f) he
  | frameNack f => exact .of_whenHandle (.nack f) he
  | frameOther f => exact .of_whenHandle (.other f) he
  | rxPut | parseStep | tick | sendReq | cfgWr | cfgRd | reset | reserved => cases hi

/-- While a send is outstanding LINK_INIT has no step, and so an instruction of the LINK agent runs a handler (R180, R63). -/
theorem runsAHandler_of_sending {i : Instr} {s t : State} (h : s.Inv) (hs : s.arq.sendState = .sending)
    (hi : i.ofLink = true) (he : exec i s = .next t) : RunsAHandler s t := by
  refine runsAHandler_of_exec hi (fun hinit => ?_) he
  subst hinit
  obtain ⟨-, hl, -⟩ := whenInit_eq_next he
  have hidle := h.arq.initIdle hl
  rw [hs] at hidle
  cases hidle

/-! ### An outstanding send ends only with a notification (R202, R203) -/

/-- Either the send state is as it was, or the send ended and the log of notifications says how (R203). -/
def EndsNotified (s t : State) : Prop :=
  t.arq.sendState = s.arq.sendState ∨
    t.out.notelog = s.out.notelog ++ [.sendOk] ∨ t.out.notelog = s.out.notelog ++ [.sendFail]

/-- R291. -/
theorem transmit_sendState (f : Frame) (s : State) :
    (transmit f s).Ends fun t => t.arq.sendState = s.arq.sendState := by
  rw [transmit_eq]
  cases (drawStatus s).1 <;> exact rfl

/-- R186, R191. -/
theorem retransmit_sendState (s : State) : (retransmit s).Ends fun t => t.arq.sendState = s.arq.sendState :=
  Res.Ends.andThen (.ofRead fun f => transmit_sendState f s) fun _ => id

/-- R186 to R188. -/
theorem handleSendTimeout_endsNotified (s : State) : (handleSendTimeout s).Ends (EndsNotified s) := by
  unfold handleSendTimeout
  split
  · exact .inl rfl
  · split
    · exact (retransmit_sendState s).mono fun _ => .inl
    · exact .inr (.inr rfl)

/-- A handler run while Sending. -/
theorem IsHandler.endsNotified {handler : State → Res} (h : IsHandler handler) {s : State}
    (hs : s.arq.sendState = .sending) : (handler s).Ends (EndsNotified s) := by
  cases h with
  | sendRequest dest len payload =>
    rw [handleSendRequest_sending dest len payload hs]
    exact .inl rfl
  | sendTimeout => exact handleSendTimeout_endsNotified s
  | req f =>
    have hrun : (handleReq f s).Ends fun t => t.arq.sendState = s.arq.sendState :=
      (transmit_sendState _ _).andThen fun _ ht => .ofRead fun _ => ht
    exact hrun.mono fun _ => .inl
  | ack f =>
    refine .ofRead fun hit => ?_
    cases hit with
    | false => exact .inl rfl
    | true => exact .inr (.inl rfl)
  | nack f =>
    refine .ofRead fun hit => ?_
    split
    · split
      · exact (retransmit_sendState (timerCancel .sendTmo s)).mono fun _ => .inl
      · exact .inr (.inr rfl)
    · exact .inl rfl
  | other f => exact .inl rfl
  | checksumError f => exact (transmit_sendState _ s).mono fun _ => .inl
  | receiveTimeout => exact .inl rfl

/-- Settles O55: outside the LINK agent the send state is kept, and a handler that ends the send notifies. -/
theorem sendEndsOnlyWithANotification : Obligations.SendEndsOnlyWithANotification := by
  intro i s t h he hr hs ht
  have hne : t.arq.sendState ≠ s.arq.sendState := by rw [hs, ht]; exact SendState.noConfusion
  cases hi : i.ofLink with
  | false => exact absurd (exec_keepsEngine hi hr he).sendState hne
  | true =>
    obtain ⟨-, -, handler, q, hh, -, hrun⟩ := runsAHandler_of_sending h hs hi he
    have hends := (hh.endsNotified (s := s.setEvq q) hs).of_next hrun
    exact ⟨rfl, hends.resolve_left hne⟩

/-! ### Retransmissions are counted (R186, R191, R201) -/

/-- Taking events keeps the invariant (R162). -/
theorem State.Inv.setEvq_suffix {s : State} (h : s.Inv) {q : List Event} (hq : q <:+ s.evq) : (s.setEvq q).Inv :=
  { h with queue := ⟨hq.length_le.trans h.queue.bounded, fun ev hev => h.queue.eventsWf ev (hq.subset hev)⟩ }

/-- A handler counts what it sends again (R186, R191). -/
theorem IsHandler.countsRetries {handler : State → Res} (h : IsHandler handler) {s t : State} (hI : s.Inv)
    (hf : s.fatal = false) (hl : s.arq.lstate = .handle) (ht : (handler s).outcome = .next t) : CountsRetries s t := by
  cases h with
  | sendRequest dest len payload => exact (handleSendRequest_send hf ht).2.1
  | sendTimeout => exact (handleSendTimeout_send hI hf ht).2.1
  | req f => exact (handleReq_send hI hf ht).2.1
  | ack f => exact (handleAck_send hf ht).2.1
  | nack f => exact (handleNack_send hI hf hl ht).2.1
  | other f => exact (handleOther_send hf ht).2.1
  | checksumError f => exact (handleChecksumError_send hI hf ht).2.1
  | receiveTimeout => exact (handleReceiveTimeout_send hf ht).2.1

/-- Outside the LINK agent the engine and `txlog` are kept. -/
theorem exec_countsRetries_of_not_link {i : Instr} {s t : State} (hi : i.ofLink = false) (hr : i ≠ .reset)
    (he : exec i s = .next t) : CountsRetries s t := by
  have harq := (exec_keepsEngine hi hr he).arq
  exact .of_same (congrArg Arq.tx harq :) (congrArg Arq.sendSeq harq :) (congrArg Arq.retry harq :)
    ((exec_writes he).txlog_eq (.inl hi))

/-- Settles O60: what an instruction of the LINK agent runs while Sending is a handler. -/
theorem retransmissionsAreCounted : Obligations.RetransmissionsAreCounted := by
  intro i s t f h hs htx hr he
  cases hi : i.ofLink with
  | false => exact exec_countsRetries_of_not_link hi hr he hs f htx
  | true =>
    obtain ⟨hf, hl, handler, q, hh, hq, hrun⟩ := runsAHandler_of_sending h hs hi he
    exact hh.countsRetries (h.setEvq_suffix hq) hf hl hrun hs f htx

/-! ### How an unanswered send ends (R201) -/

/-- A send that nothing but its timeout will end: `n` more retransmissions are due, each with its write fixed to go through (R201,
assumption log 3). -/
structure Unanswered (f : Frame) (n : Nat) (ds : List WriteStatus) (s : State) : Prop where
  room : 1 ≤ s.cfg.evqCap
  alive : s.fatal = false
  handle : s.arq.lstate = .handle
  sending : s.arq.sendState = .sending
  frame : txFrame s.cfg s.arq.tx = .ok f
  queue : s.evq = []
  timer : s.tmList = [⟨.sendTmo, s.cfg.tSend⟩]
  count : s.arq.retry.toNat + n = s.arq.maxRetry.toNat
  draws : s.env.writeDraws = List.replicate n .ok ++ ds

/-- How the send has ended: retransmitted `n` times and then abandoned, with nothing left to come (R201). -/
structure GivenUp (f : Frame) (n : Nat) (ds : List WriteStatus) (s t : State) : Prop where
  txlog : t.out.txlog = s.out.txlog ++ List.replicate n (.sent (serialise s.cfg f))
  notelog : t.out.notelog = s.out.notelog ++ [.sendFail]
  arq : t.arq = { s.arq with retry := s.arq.maxRetry, sendState := .idle }
  tmList : t.tmList = []
  evq : t.evq = []
  fatal : t.fatal = false
  env : t.env = { s.env with writeDraws := ds }

/-- R8. -/
theorem State.Inv.one_le_evqCap {s : State} (h : s.Inv) : 1 ≤ s.cfg.evqCap := by
  have hv := h.config
  simp [Config.valid] at hv
  omega

theorem runInstrs_cons {i : Instr} {rest : List Instr} {s u : State} (h : exec i s = .next u) :
    runInstrs (i :: rest) s = runInstrs rest u := by
  rw [runInstrs, h]

/-- The state with the send timer expired and its event taken (R142, R162). -/
def timedOut (s : State) : State := (s.setTimers []).setEvq []

/-- One round: TICK `T_SEND` posts the SendTimeout that LINK_DISPATCH then handles (R142, R182). -/
theorem Unanswered.run_round {f : Frame} {n : Nat} {ds : List WriteStatus} {s u : State} (h : Unanswered f n ds s)
    (hrun : handleSendTimeout (timedOut s) = .ok u) (rest : List Instr) :
    runInstrs (.tick s.cfg.tSend :: .linkDispatch :: rest) s = runInstrs rest u := by
  have hkept : keptEntries s.cfg.tSend s.tmList = [] := by simp [keptEntries, h.timer]
  have hfired : expiryEvents s.cfg.tSend s.tmList = [.sendTimeout] := by
    simp [expiryEvents, firedKeys, h.timer, signalOf]
  have htick : exec (.tick s.cfg.tSend) s = .next ((s.setTimers []).setEvq [.sendTimeout]) := by
    have hpost := exec_tick_room (delta := s.cfg.tSend) h.alive (by rw [hfired, h.queue]; exact h.room)
    rwa [hkept, hfired, h.queue] at hpost
  have hdispatch : exec .linkDispatch ((s.setTimers []).setEvq [.sendTimeout]) = .next u :=
    calc exec .linkDispatch ((s.setTimers []).setEvq [.sendTimeout])
      _ = exec .evSendTimeout (timedOut s) := exec_linkDispatch_cons (ev := .sendTimeout) rfl
      _ = (handleSendTimeout (timedOut s)).outcome := whenHandle_handle (s := timedOut s) h.alive h.handle _
      _ = .next u := congrArg Res.outcome hrun
  rw [runInstrs_cons htick, runInstrs_cons hdispatch]

/-- The state after a round below the ceiling: the frame sent again, the timer armed again, the retry counted (R186). -/
def resent (f : Frame) (n : Nat) (ds : List WriteStatus) (s : State) : State :=
  bumpRetry (armSend (logTx (.sent (serialise s.cfg f))
    ((timedOut s).setEnv { s.env with writeDraws := List.replicate n .ok ++ ds })))

section
variable {f : Frame} {n : Nat} {ds : List WriteStatus} {s : State}

/-- R186. -/
theorem Unanswered.handleSendTimeout_resent (h : Unanswered f (n + 1) ds s) :
    handleSendTimeout (timedOut s) = .ok (resent f n ds s) := by
  have hr : (timedOut s).arq.retry.toNat < (timedOut s).arq.maxRetry.toNat := by
    have hc := h.count
    show s.arq.retry.toNat < s.arq.maxRetry.toNat
    omega
  have hd := drawStatus_fixed (s := timedOut s) h.draws
  have hsent := retransmit_sent (s := timedOut s) rfl h.frame (congrArg Prod.fst hd)
  rw [handleSendTimeout_below (s := timedOut s) h.sending hr, hsent, hd]
  rfl

/-- A retry counted below the ceiling does not wrap (R45). -/
theorem Unanswered.retry_toNat (h : Unanswered f (n + 1) ds s) :
    (s.arq.retry + 1#8).toNat = s.arq.retry.toNat + 1 := by
  have hc := h.count
  have hmax := s.arq.maxRetry.isLt
  bv_omega

/-- After a round one retransmission fewer is due. -/
theorem Unanswered.after_round (h : Unanswered f (n + 1) ds s) : Unanswered f n ds (resent f n ds s) where
  room := h.room
  alive := h.alive
  handle := h.handle
  sending := h.sending
  frame := h.frame
  queue := rfl
  timer := rfl
  count := by
    have hc := h.count
    show (s.arq.retry + 1#8).toNat + n = s.arq.maxRetry.toNat
    rw [h.retry_toNat]
    omega
  draws := rfl

/-- What follows a round ends the send with one retransmission more. -/
theorem GivenUp.of_resent {t : State} (h : GivenUp f n ds (resent f n ds s) t) : GivenUp f (n + 1) ds s t where
  txlog := h.txlog.trans (List.append_assoc _ _ _)
  notelog := h.notelog
  arq := h.arq
  tmList := h.tmList
  evq := h.evq
  fatal := h.fatal
  env := h.env

/-- R187. -/
theorem Unanswered.handleSendTimeout_abandon (h : Unanswered f 0 ds s) :
    handleSendTimeout (timedOut s) = .ok (abandon (timedOut s)) :=
  handleSendTimeout_ceiling h.sending h.count.ge

/-- At the ceiling the abandon ends the send with nothing sent again (R187, R202). -/
theorem Unanswered.givenUp_abandon (h : Unanswered f 0 ds s) : GivenUp f 0 ds s (abandon (timedOut s)) where
  txlog := (List.append_nil _).symm
  notelog := rfl
  arq := by
    have hretry : s.arq.retry = s.arq.maxRetry := BitVec.eq_of_toNat_eq h.count
    rw [← hretry]
    rfl
  tmList := rfl
  evq := rfl
  fatal := h.alive
  env := by
    have hdraws : s.env.writeDraws = ds := h.draws
    rw [← hdraws]
    rfl

end

/-- The rounds, by induction on the retransmissions that are due (R201). -/
theorem Unanswered.run_timeoutRounds {f : Frame} {n : Nat} {ds : List WriteStatus} {s : State}
    (h : Unanswered f n ds s) : ∃ t, runInstrs (timeoutRounds s.cfg (n + 1)) s = .next t ∧ GivenUp f n ds s t := by
  induction n generalizing s with
  | zero => exact ⟨_, h.run_round h.handleSendTimeout_abandon [], h.givenUp_abandon⟩
  | succ n ih =>
    obtain ⟨t, ht, hend⟩ := ih h.after_round
    exact ⟨t, (h.run_round h.handleSendTimeout_resent _).trans ht, hend.of_resent⟩

/-- Settles O47: the hypotheses are those of `Unanswered`, and the rounds give up the send. -/
theorem unansweredSendEndsAfterItsRetries : Obligations.UnansweredSendEndsAfterItsRetries := by
  intro s f n ds h hf hl hs htx hq htm hcount hdraws
  obtain ⟨t, ht, hend⟩ := Unanswered.run_timeoutRounds ⟨h.one_le_evqCap, hf, hl, hs, htx, hq, htm, hcount, hdraws⟩
  exact ⟨t, ht, hend.txlog, hend.notelog, hend.arq, hend.tmList, hend.evq, hend.fatal, hend.env⟩

end Sys2Proof.Machine
end

section
/-! The frame parser (44_frame_parser.md): what PARSE_STEP does with the oldest byte in each parser state (O17, O18, O20 to O23), that
the wire bytes of a frame make it post exactly that frame (O24), and that a frame after a dropped one is received (O25). -/

namespace Sys2Proof.Machine

/-! ### One transition in each parser state (R232 to R240) -/

/-- While alive PARSE_STEP answers what one transition on the oldest byte does, with the byte out of the ring (R230). -/
theorem exec_parseStep_oldest {s : State} {b : Byte} {r : Res} (hf : s.fatal = false) (hb : OldestByte s b)
    (hr : parseByte b (s.setRing (popped s.cfg s.ring)) = r) : exec .parseStep s = r.outcome := by
  obtain ⟨hc, hhead, hread⟩ := hb
  have hg : rbGet s = .ok (some (b, s.setRing (popped s.cfg s.ring))) := rbGet_byte hc hhead hread
  calc exec .parseStep s = parseOldest s := whenAlive_alive hf _
    _ = (parseByte b (s.setRing (popped s.cfg s.ring))).outcome := by rw [parseOldest, hg]
    _ = r.outcome := congrArg Res.outcome hr

section
variable {s : State} (b : Byte)

/-- R232. -/
theorem parseByte_awaitingSof (hp : s.parser.pstate = .awaitingSof) :
    parseByte b s = .ok (if b = s.cfg.sofValue then
      (s.setTimers (dropKey .recvTmo s.tmList ++ [⟨.recvTmo, s.cfg.tRecv⟩])).setParser
        { s.parser with pidx := 0#8, pstate := .destAddr }
      else s) := by
  rw [parseByte, hp]
  exact (apply_ite Res.ok _ _ _).symm

/-- R233. -/
theorem parseByte_destAddr {a : AddrReg} (hp : s.parser.pstate = .destAddr)
    (ha : s.parser.rxDest.put s.parser.pidx.toNat b = .ok a) :
    parseByte b s = .ok (s.setParser (if s.parser.pidx = 3#8 then
      { s.parser with rxDest := a, pidx := 0#8, pstate := .srcAddr }
      else { s.parser with rxDest := a, pidx := s.parser.pidx + 1#8 })) := by
  simp only [parseByte, hp, takeDest, ha, Res.ofRead_ok]
  split <;> rfl

/-- R234. -/
theorem parseByte_srcAddr {a : AddrReg} (hp : s.parser.pstate = .srcAddr)
    (ha : s.parser.rxSrc.put s.parser.pidx.toNat b = .ok a) :
    parseByte b s = .ok (s.setParser (if s.parser.pidx = 3#8 then
      { s.parser with rxSrc := a, pidx := 0#8, pstate := .type }
      else { s.parser with rxSrc := a, pidx := s.parser.pidx + 1#8 })) := by
  simp only [parseByte, hp, takeSrc, ha, Res.ofRead_ok]
  split <;> rfl

/-- R235. -/
theorem parseByte_type (hp : s.parser.pstate = .type) :
    parseByte b s = .ok (s.setParser { s.parser with rxType := some b, pstate := .subType }) := by
  rw [parseByte, hp]
  rfl

/-- R236. -/
theorem parseByte_subType (hp : s.parser.pstate = .subType) :
    parseByte b s = .ok (s.setParser { s.parser with rxSub := some b, pstate := .seqNum }) := by
  rw [parseByte, hp]
  rfl

/-- R237. -/
theorem parseByte_seqNum (hp : s.parser.pstate = .seqNum) :
    parseByte b s = .ok (s.setParser { s.parser with rxSeq := some b, pstate := .len }) := by
  rw [parseByte, hp]
  rfl

/-- R238. -/
theorem parseByte_len (hp : s.parser.pstate = .len) :
    parseByte b s = .ok (if s.cfg.maxPayload.toNat < b.toNat then
        (s.setTimers (dropKey .recvTmo s.tmList)).setParser
          { s.parser with rxLen := some b, pstate := .awaitingSof, pidx := 0#8 }
      else if b = 0#8 then s.setParser { s.parser with rxLen := some b, pstate := .fcs }
      else s.setParser { s.parser with rxLen := some b, pidx := 0#8, pstate := .data }) := by
  rw [parseByte, hp]
  exact ((apply_ite Res.ok _ _ _).trans (congrArg _ (apply_ite Res.ok _ _ _))).symm

/-- R239. -/
theorem parseByte_data {len : Byte} (hp : s.parser.pstate = .data) (hlen : s.parser.rxLen = some len)
    (hin : s.parser.pidx.toNat < s.cfg.maxPayload.toNat) :
    parseByte b s = .ok (s.setParser (if s.parser.pidx.toNat + 1 = len.toNat then
      { s.parser with rxPayload := s.parser.rxPayload.write s.parser.pidx.toNat b, pidx := 0#8, pstate := .fcs }
      else
        { s.parser with
          rxPayload := s.parser.rxPayload.write s.parser.pidx.toNat b, pidx := s.parser.pidx + 1#8 })) := by
  simp only [parseByte, hp, takeData, arrayWrite_ok hin, hlen, written_some, Res.ofRead_ok]
  split <;> rfl

/-- FCS: the frame's event is posted on the timers without RECV_TMO, and then the parser is reset (R240). -/
theorem parseByte_fcs {f : Frame} (hp : s.parser.pstate = .fcs)
    (hf : rxSnapshot s.cfg { s.parser with rxFcs := some b } = .ok f) :
    parseByte b s =
      (evqPost (frameEvent s.cfg f) (timerCancel .recvTmo (s.setParser { s.parser with rxFcs := some b }))).andThen
        fun t => .ok (parserReset t) := by
  rw [parseByte, hp]
  show Res.ofRead (rxSnapshot s.cfg { s.parser with rxFcs := some b }) _ = _
  rw [hf]
  rfl

/-- R240, into a full queue. -/
theorem parseByte_fcs_full {f : Frame} (hp : s.parser.pstate = .fcs)
    (hf : rxSnapshot s.cfg { s.parser with rxFcs := some b } = .ok f) (hq : s.evq.length = s.cfg.evqCap) :
    parseByte b s = .fatal (((s.setTimers (dropKey .recvTmo s.tmList)).setParser
      { s.parser with rxFcs := some b }).setFatal true 0x04#8) := by
  rw [parseByte_fcs b hp hf, evqPost_full (by exact hq)]
  rfl

/-- R240, with room in the queue. -/
theorem parseByte_fcs_room {f : Frame} (hp : s.parser.pstate = .fcs)
    (hf : rxSnapshot s.cfg { s.parser with rxFcs := some b } = .ok f) (hq : s.evq.length ≠ s.cfg.evqCap) :
    parseByte b s = .ok (((s.setTimers (dropKey .recvTmo s.tmList)).setParser
      { s.parser with rxFcs := some b, pstate := .awaitingSof, pidx := 0#8 }).setEvq
        (s.evq ++ [frameEvent s.cfg f])) := by
  rw [parseByte_fcs b hp hf, evqPost_room (by exact hq)]
  rfl

end

/-! ### The transitions of PARSE_STEP -/

/-- Settles O17. -/
theorem awaitingSofTransition : Obligations.AwaitingSofTransition := fun _ b hf hb hp =>
  exec_parseStep_oldest hf hb (parseByte_awaitingSof b hp)

/-- Settles O18: `AddrReg.put_ok` gives the register with its byte put. -/
theorem addressByteTransitions : Obligations.AddressByteTransitions := by
  refine fun s b hf hb hidx => ⟨fun hp => ?_, fun hp => ?_⟩
  · obtain ⟨a, ha, hbytes⟩ := AddrReg.put_ok (r := s.parser.rxDest) (b := b) hidx
    exact ⟨a, hbytes, exec_parseStep_oldest hf hb (parseByte_destAddr b hp ha)⟩
  · obtain ⟨a, ha, hbytes⟩ := AddrReg.put_ok (r := s.parser.rxSrc) (b := b) hidx
    exact ⟨a, hbytes, exec_parseStep_oldest hf hb (parseByte_srcAddr b hp ha)⟩

/-- Settles O20. -/
theorem headerByteTransitions : Obligations.HeaderByteTransitions := fun _ b hf hb =>
  ⟨fun hp => exec_parseStep_oldest hf hb (parseByte_type b hp),
    fun hp => exec_parseStep_oldest hf hb (parseByte_subType b hp),
    fun hp => exec_parseStep_oldest hf hb (parseByte_seqNum b hp)⟩

/-- Settles O21. -/
theorem lenTransition : Obligations.LenTransition := fun _ b hf hb hp =>
  exec_parseStep_oldest hf hb (parseByte_len b hp)

/-- Settles O22: a payload index below the length is below `MAX_PAYLOAD`. -/
theorem dataTransition : Obligations.DataTransition := fun _ b _ hf hb hp hlen hidx hmax =>
  exec_parseStep_oldest hf hb (parseByte_data b hp hlen (hidx.trans_le hmax))

/-- Settles O23: one case for a full queue and one for room, where the frame's own checksum byte is the one taken. -/
theorem fcsTransition : Obligations.FcsTransition := by
  intro s b f hf hb hp hframe
  obtain ⟨-, -, -, -, -, -, hfcs, -⟩ := rxSnapshot_eq_ok hframe
  obtain rfl : b = f.fcs := Option.some.inj hfcs
  split
  · next hq => exact exec_parseStep_oldest hf hb (parseByte_fcs_full f.fcs hp hframe hq)
  · next hq => exact exec_parseStep_oldest hf hb (parseByte_fcs_room f.fcs hp hframe hq)

end Sys2Proof.Machine
end

section
/-! Bytes fed one after another (R108, R241): the parser alone on a list of bytes, and that it does the same through the ring. -/

namespace Sys2Proof.Machine

/-! ### The parser on a list of bytes -/

/-- The transitions of the parser on bytes, in order. -/
def parseBytes : List Byte → State → Res
  | [], s => .ok s
  | b :: bs, s => (parseByte b s).andThen (parseBytes bs)

@[simp] theorem Res.andThen_eq_self (r : Res) : r.andThen .ok = r := by
  cases r <;> rfl

theorem Res.andThen_assoc (r : Res) (f g : State → Res) : (r.andThen f).andThen g = r.andThen fun s => (f s).andThen g := by
  cases r <;> rfl

theorem Res.andThen_eq_ok {r : Res} {next : State → Res} {t : State} (h : r.andThen next = .ok t) :
    ∃ u, r = .ok u ∧ next u = .ok t := by
  cases r with
  | ok u => exact ⟨u, rfl, h⟩
  | fatal u => cases h
  | fault e => cases h

theorem Res.ofRead_eq_ok {α : Type} {read : Except Fault α} {next : α → Res} {t : State}
    (h : Res.ofRead read next = .ok t) : ∃ a, read = .ok a ∧ next a = .ok t := by
  cases read with
  | ok a => exact ⟨a, rfl, h⟩
  | error e => cases h

theorem parseBytes_append (bs cs : List Byte) (s : State) :
    parseBytes (bs ++ cs) s = (parseBytes bs s).andThen (parseBytes cs) := by
  induction bs generalizing s with
  | nil => rfl
  | cons b bs ih =>
    rw [List.cons_append, parseBytes, parseBytes, Res.andThen_assoc]
    exact congrArg _ (funext ih)

/-! ### What a transition does not touch -/

/-- The configuration, parser, timers and queue of a state, with everything else taken from another state. -/
def State.within (s x : State) : State :=
  { x with cfg := s.cfg, parser := s.parser, tmList := s.tmList, evq := s.evq }

/-- A transition that goes on neither reads nor writes the ring, the engine, the fatal flag and the records (R230 to R240). -/
theorem parseByte_within {b : Byte} {s t : State} (h : parseByte b s = .ok t) (x : State) :
    parseByte b (s.within x) = .ok (t.within x) := by
  suffices hsame : ∃ u, parseByte b s = .ok u ∧ parseByte b (s.within x) = .ok (u.within x) by
    obtain ⟨u, hu, hx⟩ := hsame
    cases hu.symm.trans h
    exact hx
  have hrun := h
  unfold parseByte at hrun
  cases hp : s.parser.pstate <;> rw [hp] at hrun
  case awaitingSof =>
    refine ⟨_, parseByte_awaitingSof b hp, (parseByte_awaitingSof (s := s.within x) b hp).trans (congrArg Res.ok ?_)⟩
    rw [apply_ite (State.within · x)]
    rfl
  case destAddr =>
    obtain ⟨a, ha, -⟩ := Res.ofRead_eq_ok hrun
    exact ⟨_, parseByte_destAddr b hp ha, parseByte_destAddr (s := s.within x) b hp ha⟩
  case srcAddr =>
    obtain ⟨a, ha, -⟩ := Res.ofRead_eq_ok hrun
    exact ⟨_, parseByte_srcAddr b hp ha, parseByte_srcAddr (s := s.within x) b hp ha⟩
  case type => exact ⟨_, parseByte_type b hp, parseByte_type (s := s.within x) b hp⟩
  case subType => exact ⟨_, parseByte_subType b hp, parseByte_subType (s := s.within x) b hp⟩
  case seqNum => exact ⟨_, parseByte_seqNum b hp, parseByte_seqNum (s := s.within x) b hp⟩
  case len =>
    refine ⟨_, parseByte_len b hp, (parseByte_len (s := s.within x) b hp).trans (congrArg Res.ok ?_)⟩
    rw [apply_ite (State.within · x), apply_ite (State.within · x)]
    rfl
  case data =>
    obtain ⟨m, hm, hrun⟩ := Res.ofRead_eq_ok hrun
    obtain ⟨len, hlen, -⟩ := Res.ofRead_eq_ok hrun
    obtain ⟨hin, -⟩ := arrayWrite_eq_ok hm
    have hlen := written_eq_ok hlen
    exact ⟨_, parseByte_data b hp hlen hin, parseByte_data (s := s.within x) b hp hlen hin⟩
  case fcs =>
    obtain ⟨f, hf, -⟩ := Res.ofRead_eq_ok hrun
    have hq : s.evq.length ≠ s.cfg.evqCap := fun hq => by
      rw [parseByte_fcs_full b hp hf hq] at h
      cases h
    exact ⟨_, parseByte_fcs_room b hp hf hq, parseByte_fcs_room (s := s.within x) b hp hf hq⟩

/-- A transition leaves the configuration (R295). -/
theorem parseByte_cfg {b : Byte} {s t : State} (h : parseByte b s = .ok t) : t.cfg = s.cfg := by
  obtain ⟨p, tm, q, f, code, -, rfl⟩ := (parseByte_writes b s).of_next (congrArg Res.outcome h)
  rfl

/-! ### Through the ring (R108) -/

/-- What may stand around the parser once bytes have gone through an empty ring: as in `s`, but for answers recorded. -/
structure BytesPassed (c : Config) (s x : State) : Prop where
  ring : x.ring.Inv c
  empty : x.ring.count = 0
  alive : x.fatal = false
  arq : x.arq = s.arq
  txlog : x.out.txlog = s.out.txlog
  notelog : x.out.notelog = s.out.notelog

/-- A byte has gone into the ring, and the answer is recorded (R120, R121). -/
def bytePut (c : Config) (b : Byte) (x : State) : State :=
  respond .ok none (x.setRing (pushed c b x.ring))

/-- A byte has gone into the ring and out of it again (R121, R122). -/
def bytePassed (c : Config) (b : Byte) (x : State) : State :=
  (bytePut c b x).setRing (popped c (pushed c b x.ring))

section
variable {c : Config} {s t x : State} {b : Byte}

/-- An empty ring of the invariant has room (R32 to R34). -/
theorem BytesPassed.room (h : BytesPassed c s x) : x.ring.count ≠ c.rbCap ∧ x.ring.tail < c.rbCap := by
  have hhead := h.ring.headInRange
  refine ⟨fun hc => ?_, ?_⟩
  · have hempty := h.empty
    omega
  · rw [h.ring.tailAgrees]
    exact Nat.mod_lt _ (by omega)

/-- The next byte leaves it so. -/
theorem BytesPassed.byte (h : BytesPassed c s x) (b : Byte) : BytesPassed c s (bytePassed c b x) where
  ring := (h.ring.put h.room.1).pop (Nat.succ_ne_zero _)
  empty := h.empty
  alive := h.alive
  arq := h.arq
  txlog := h.txlog
  notelog := h.notelog

/-- The byte put into an empty ring is its oldest (R121, R122). -/
theorem BytesPassed.oldestByte_bytePut (h : BytesPassed s.cfg t x) :
    OldestByte (bytePut s.cfg b (s.within x)) b := by
  have hhead : x.ring.tail = x.ring.head := by
    rw [h.ring.tailAgrees, h.empty, Nat.add_zero, Nat.mod_eq_of_lt h.ring.headInRange]
  refine ⟨Nat.succ_ne_zero _, h.ring.headInRange, ?_⟩
  show (x.ring.mem.write x.ring.tail b).read x.ring.head = some b
  rw [hhead, Memory.read_write_same]

/-- One byte fed: what the parser does with it, and the byte out of the ring again (R108). -/
theorem runInstrs_feed_cons {o : State} (hx : BytesPassed s.cfg o x) (h : parseByte b s = .ok t) (bs : List Byte) :
    runInstrs (feed (b :: bs)) (s.within x) = runInstrs (feed bs) (t.within (bytePassed s.cfg b x)) := by
  obtain ⟨hc, ht⟩ := hx.room
  have hput : exec (.rxPut b) (s.within x) = .next (bytePut s.cfg b (s.within x)) :=
    exec_rxPut_next hx.alive (putReceived_room b hc ht)
  have hparse : exec .parseStep (bytePut s.cfg b (s.within x)) = .next (t.within (bytePassed s.cfg b x)) :=
    exec_parseStep_oldest (s := bytePut s.cfg b (s.within x)) hx.alive hx.oldestByte_bytePut
      (parseByte_within h (bytePassed s.cfg b x))
  exact (runInstrs_cons hput).trans (runInstrs_cons hparse)

end

/-- Bytes fed through an empty ring are parsed one by one (R108, R241). -/
theorem runInstrs_feed {bs : List Byte} {o s t x : State} (h : parseBytes bs s = .ok t)
    (hx : BytesPassed s.cfg o x) :
    ∃ y, BytesPassed s.cfg o y ∧ runInstrs (feed bs) (s.within x) = .next (t.within y) := by
  induction bs generalizing s x with
  | nil =>
    cases h
    exact ⟨x, hx, rfl⟩
  | cons b bs ih =>
    obtain ⟨u, hu, h⟩ := Res.andThen_eq_ok h
    have hcfg := parseByte_cfg hu
    obtain ⟨y, hy, hrun⟩ := ih h (hcfg ▸ hx.byte b)
    rw [hcfg] at hy hrun
    exact ⟨y, hy, (runInstrs_feed_cons hx hu bs).trans hrun⟩

/-- Bytes fed to an alive state of the invariant whose ring is empty. -/
theorem State.Inv.runInstrs_feed {bs : List Byte} {s t : State} (h : s.Inv) (hf : s.fatal = false)
    (hc : s.ring.count = 0) (ht : parseBytes bs s = .ok t) :
    ∃ x, BytesPassed s.cfg s x ∧ runInstrs (feed bs) s = .next (t.within x) :=
  Machine.runInstrs_feed (x := s) ht ⟨h.ring, hc, hf, rfl, rfl, rfl⟩

/-- Several instructions, each well-formed under every configuration, keep the invariant (R63). -/
theorem runInstrs_inv {is : List Instr} (hw : ∀ i ∈ is, ∀ c, i.wf c = true) {s t : State} (h : s.Inv)
    (ht : runInstrs is s = .next t) : t.Inv := by
  induction is generalizing s with
  | nil => cases ht; exact h
  | cons i is ih =>
    obtain ⟨hi, his⟩ := List.forall_mem_cons.mp hw
    rw [runInstrs] at ht
    split at ht
    · next u hu => exact ih his (exec_inv h (hi s.cfg) hu) ht
    · cases ht
    · cases ht

theorem wf_of_mem_feed {bs : List Byte} {i : Instr} (hi : i ∈ feed bs) (c : Config) : i.wf c = true := by
  obtain ⟨b, -, hi⟩ := List.mem_flatMap.mp hi
  obtain rfl | rfl : i = .rxPut b ∨ i = .parseStep := by simpa using hi
  · rfl
  · rfl

end Sys2Proof.Machine
end

section
/-! The wire bytes of a frame through the parser (R242, R243, R267): the header, the payload and the checksum byte, each taken from any
state that awaits it, and from them the whole frame (O24) and the frame after a dropped one (O25). -/

namespace Sys2Proof.Machine

/-! ### The header (R232 to R237) -/

/-- An address register that holds a word (R72). -/
def AddrReg.ofWord (w : Word) : AddrReg :=
  ⟨some (wordByte w 0), some (wordByte w 1), some (wordByte w 2), some (wordByte w 3)⟩

@[simp] theorem AddrReg.value_ofWord (w : Word) : (AddrReg.ofWord w).value = .ok w := by
  rw [ofWord, value_written, wordOfBytes_wordByte]

/-- The four bytes of the destination address, most significant first (R233). -/
theorem parseBytes_destAddr {s : State} (hp : s.parser.pstate = .destAddr) (hi : s.parser.pidx = 0#8) (w : Word) :
    parseBytes (wordBytes w) s =
      .ok (s.setParser { s.parser with rxDest := .ofWord w, pidx := 0#8, pstate := .srcAddr }) := by
  simp [parseBytes, wordBytes, parseByte, takeDest, AddrReg.put, AddrReg.ofWord, State.setParser, hp, hi]

/-- The four bytes of the source address, most significant first (R234). -/
theorem parseBytes_srcAddr {s : State} (hp : s.parser.pstate = .srcAddr) (hi : s.parser.pidx = 0#8) (w : Word) :
    parseBytes (wordBytes w) s =
      .ok (s.setParser { s.parser with rxSrc := .ofWord w, pidx := 0#8, pstate := .type }) := by
  simp [parseBytes, wordBytes, parseByte, takeSrc, AddrReg.put, AddrReg.ofWord, State.setParser, hp, hi]

/-- A parser that has taken the header of a frame up to its length byte, with the receive timeout armed (R232 to R237). -/
def atLength (f : Frame) (s : State) : State :=
  (s.setTimers (dropKey .recvTmo s.tmList ++ [⟨.recvTmo, s.cfg.tRecv⟩])).setParser
    { s.parser with
      pstate := .len, pidx := 0#8, rxDest := .ofWord f.dest, rxSrc := .ofWord f.src
      rxType := some f.type, rxSub := some f.sub, rxSeq := some f.seq }

/-- The header, down to the transition on its length byte (R90, R232 to R237). -/
theorem parseBytes_header {s : State} (hp : s.parser.pstate = .awaitingSof) (f : Frame) :
    parseBytes (f.header s.cfg) s = parseByte f.len (atLength f s) := by
  rw [Frame.header, parseBytes, parseByte_awaitingSof _ hp, if_pos rfl, Res.andThen_ok, parseBytes_append,
    parseBytes_destAddr rfl rfl, Res.andThen_ok, parseBytes_append, parseBytes_srcAddr rfl rfl, Res.andThen_ok]
  exact Res.andThen_eq_self _

/-! ### The payload (R238, R239) -/

/-- The payload bytes still due, at least one, are stored from `pidx` on, and the last moves to FCS (R239). -/
theorem parseBytes_data {bs : List Byte} {s : State} {len : Byte} {m : Memory} (hp : s.parser.pstate = .data)
    (hlen : s.parser.rxLen = some len) (hmax : len.toNat ≤ s.cfg.maxPayload.toNat) (hne : bs ≠ [])
    (hdue : s.parser.pidx.toNat + bs.length = len.toNat)
    (hm : arrayFill s.cfg.maxPayload.toNat s.parser.rxPayload s.parser.pidx.toNat bs = .ok m) :
    parseBytes bs s = .ok (s.setParser { s.parser with rxPayload := m, pidx := 0#8, pstate := .fcs }) := by
  induction bs generalizing s with
  | nil => exact absurd rfl hne
  | cons b bs ih =>
    rw [List.length_cons] at hdue
    have hin : s.parser.pidx.toNat < s.cfg.maxPayload.toNat := by omega
    rw [arrayFill, arrayWrite_ok hin] at hm
    rw [parseBytes, parseByte_data b hp hlen hin, Res.andThen_ok]
    by_cases hbs : bs = []
    · subst hbs
      cases hm
      rw [if_pos (by exact hdue)]
      rfl
    · have hpos := List.length_pos_iff.mpr hbs
      have hnext : (s.parser.pidx + 1#8).toNat = s.parser.pidx.toNat + 1 := by
        have hlt := len.isLt
        bv_omega
      rw [if_neg (by omega)]
      refine ih (by exact hp) (by exact hlen) hmax hbs ?_ ?_
      · show (s.parser.pidx + 1#8).toNat + bs.length = len.toNat
        omega
      · show arrayFill _ _ (s.parser.pidx + 1#8).toNat bs = .ok m
        rw [hnext]
        exact hm

/-- The length byte and the payload of a well-formed frame (R238, R239). -/
theorem parseBytes_lenPayload {s : State} {f : Frame} {m : Memory} (hp : s.parser.pstate = .len)
    (hi : s.parser.pidx = 0#8) (hw : f.wf s.cfg = true)
    (hm : arrayFill s.cfg.maxPayload.toNat s.parser.rxPayload 0 f.payload = .ok m) :
    parseBytes (f.len :: f.payload) s =
      .ok (s.setParser { s.parser with rxLen := some f.len, rxPayload := m, pidx := 0#8, pstate := .fcs }) := by
  obtain ⟨hlen, hmax⟩ := Frame.wf_iff.mp hw
  rw [parseBytes, parseByte_len _ hp, if_neg (Nat.not_lt.mpr hmax), Res.andThen_ok]
  split
  · next hz =>
    have hnil : f.payload = [] := by
      rw [← List.length_eq_zero_iff, hlen, hz]
      rfl
    rw [hnil] at hm ⊢
    cases hm
    rw [← hi]
    rfl
  · next hz =>
    have hne : f.payload ≠ [] := fun hnil => by
      rw [hnil] at hlen
      exact hz (BitVec.eq_of_toNat_eq hlen.symm)
    exact parseBytes_data (len := f.len) rfl rfl hmax hne ((Nat.zero_add _).trans hlen) hm

/-! ### The whole frame (R240, R242) -/

/-- A parser that has taken every byte of a frame but its checksum (R232 to R239). -/
def atFcs (f : Frame) (m : Memory) (s : State) : State :=
  (atLength f s).setParser
    { (atLength f s).parser with rxLen := some f.len, rxPayload := m, pidx := 0#8, pstate := .fcs }

/-- The scratch frame is then the frame itself (R240). -/
theorem rxSnapshot_atFcs {s : State} {f : Frame} {m : Memory} (hw : f.wf s.cfg = true)
    (hm : arrayFill s.cfg.maxPayload.toNat s.parser.rxPayload 0 f.payload = .ok m) :
    rxSnapshot s.cfg { (atFcs f m s).parser with rxFcs := some f.fcs } = .ok f := by
  obtain ⟨hlen, hmax⟩ := Frame.wf_iff.mp hw
  have hread := arrayRange_fill (hlen.trans_le hmax) hm
  rw [hlen] at hread
  simp [rxSnapshot, atFcs, atLength, hread, bind, Except.bind, pure, Except.pure]

/-- A timer set and then cancelled leaves the list as if it had been cancelled (R140, R141). -/
theorem dropKey_append_entry (k : TimerKey) (n : Word) (l : List TimerEntry) :
    dropKey k (dropKey k l ++ [⟨k, n⟩]) = dropKey k l := by
  simp [dropKey]

/-- The wire bytes of a well-formed frame from AwaitingSOF, with room in the queue: its event is posted, and the parser awaits the
next sentinel (R240, R242). -/
theorem parseBytes_serialise {s : State} {f : Frame} (hp : s.parser.pstate = .awaitingSof)
    (hq : s.evq.length ≠ s.cfg.evqCap) (hw : f.wf s.cfg = true) :
    ∃ p : Parser, p.pstate = .awaitingSof ∧ p.pidx = 0#8 ∧
      parseBytes (serialise s.cfg f) s =
        .ok (((s.setTimers (dropKey .recvTmo s.tmList)).setParser p).setEvq (s.evq ++ [frameEvent s.cfg f])) := by
  obtain ⟨hlen, hmax⟩ := Frame.wf_iff.mp hw
  obtain ⟨m, hm, -⟩ := arrayFill_ok f.payload (m := s.parser.rxPayload) (i := 0)
    ((Nat.zero_add _).trans_le (hlen.trans_le hmax))
  have hbody : parseBytes (f.header s.cfg ++ f.payload) s = .ok (atFcs f m s) := by
    rw [parseBytes_append, parseBytes_header hp]
    exact parseBytes_lenPayload (s := atLength f s) rfl rfl hw hm
  have hframe := rxSnapshot_atFcs hw hm
  refine ⟨{ (atFcs f m s).parser with rxFcs := some f.fcs, pstate := .awaitingSof, pidx := 0#8 }, rfl, rfl, ?_⟩
  rw [serialise, Frame.body_eq hw, ← List.append_assoc, parseBytes_append, hbody, Res.andThen_ok, parseBytes,
    parseByte_fcs_room (s := atFcs f m s) f.fcs rfl hframe hq]
  rw [← dropKey_append_entry .recvTmo s.cfg.tRecv s.tmList]
  rfl

/-- Settles O24: the frame's bytes run through the parser alone, and so through the ring. -/
theorem parserTakesAWholeFrame : Obligations.ParserTakesAWholeFrame := by
  intro s f h hf hp hc hq hw
  obtain ⟨p, hstate, hidx, ht⟩ := parseBytes_serialise hp hq.ne hw
  obtain ⟨x, hx, hrun⟩ := h.runInstrs_feed hf hc ht
  exact ⟨_, hrun, rfl, hstate, hidx, hx.empty, rfl, hx.arq, hx.alive, hx.txlog, hx.notelog,
    runInstrs_inv (fun _ hi => wf_of_mem_feed hi) h hrun⟩

/-! ### Resynchronisation (R238, R243) -/

/-- Bytes none of which is the sentinel leave a parser in AwaitingSOF as it is (R232). -/
theorem parseBytes_junk {junk : List Byte} {s : State} (hp : s.parser.pstate = .awaitingSof)
    (hj : s.cfg.sofValue ∉ junk) : parseBytes junk s = .ok s := by
  induction junk with
  | nil => rfl
  | cons b bs ih =>
    obtain ⟨hb, hbs⟩ := not_or.mp (mt List.mem_cons.mpr hj)
    rw [parseBytes, parseByte_awaitingSof b hp, if_neg (Ne.symm hb), Res.andThen_ok, ih hbs]

/-- A header with an oversized length byte leaves the parser in AwaitingSOF, and posts nothing (R238). -/
theorem parseBytes_oversized {s : State} {f : Frame} (hp : s.parser.pstate = .awaitingSof)
    (hlen : s.cfg.maxPayload.toNat < f.len.toNat) :
    ∃ (tm : List TimerEntry) (p : Parser), p.pstate = .awaitingSof ∧
      parseBytes (f.header s.cfg) s = .ok ((s.setTimers tm).setParser p) := by
  refine ⟨dropKey .recvTmo (atLength f s).tmList,
    { (atLength f s).parser with rxLen := some f.len, pstate := .awaitingSof, pidx := 0#8 }, rfl, ?_⟩
  rw [parseBytes_header hp, parseByte_len _ rfl, if_pos (by exact hlen)]
  rfl

/-- Settles O25: the dropped header and the bytes after it leave a parser that awaits the frame's sentinel. -/
theorem parserRecoversAfterOversizedLength : Obligations.ParserRecoversAfterOversizedLength := by
  intro s dropped f junk h hf hp hc hq hlen hj hw hsum
  obtain ⟨tm, p, hstate, hdrop⟩ := parseBytes_oversized hp hlen
  have hjunk := parseBytes_junk (s := (s.setTimers tm).setParser p) hstate hj
  obtain ⟨p', hstate', -, hframe⟩ := parseBytes_serialise (s := (s.setTimers tm).setParser p) hstate hq.ne hw
  have hbefore : parseBytes (dropped.header s.cfg ++ junk) s = .ok ((s.setTimers tm).setParser p) := by
    rw [parseBytes_append, hdrop, Res.andThen_ok, hjunk]
  have ht := (parseBytes_append (dropped.header s.cfg ++ junk) (serialise s.cfg f) s).trans
    ((congrArg (Res.andThen · _) hbefore).trans hframe)
  obtain ⟨x, hx, hrun⟩ := h.runInstrs_feed hf hc ht
  refine ⟨_, hrun, ?_, hstate', hx.arq, hx.txlog, hx.notelog⟩
  show s.evq ++ [frameEvent s.cfg f] = _
  rw [frameEvent, if_pos hsum]

end Sys2Proof.Machine
end

section
/-! The checksum (45_checksum.md): a frame is valid exactly when its wire bytes cancel out (O26), one flipped bit is detected (O27), and
every frame the block logs carries its own checksum (O28). -/

namespace Sys2Proof.Machine

/-! ### Valid frames cancel out (R261, R264) -/

/-- The wire bytes of a frame add its checksum byte to the bytes the checksum is computed over (R92, R260). -/
theorem xorBytes_serialise (c : Config) (f : Frame) : xorBytes (serialise c f) = checksum c f ^^^ f.fcs := by
  rw [serialise, ← List.append_assoc, xorBytes_append, checksum, xorBytes_cons, xorBytes_nil, BitVec.xor_zero]

/-- Settles O26. -/
theorem validExactlyWhenWireXorIsZero : Obligations.ValidExactlyWhenWireXorIsZero := fun c f => by
  rw [xorBytes_serialise, BitVec.xor_eq_zero_iff]

/-! ### One flipped bit (R260, R265) -/

/-- The checksum by the fields of the frame (R260). -/
theorem checksum_eq (c : Config) (f : Frame) :
    checksum c f = c.sofValue ^^^ xorBytes (wordBytes f.dest) ^^^ xorBytes (wordBytes f.src) ^^^ f.type ^^^ f.sub ^^^ f.seq ^^^
      f.len ^^^ xorBytes f.body := by
  simp only [checksum, Frame.header, xorBytes_append, xorBytes_cons, xorBytes_nil, BitVec.xor_zero, BitVec.xor_assoc]

theorem wordByte_xor (w d : Word) (k : Nat) : wordByte (w ^^^ d) k = wordByte w k ^^^ wordByte d k :=
  BitVec.extractLsb'_xor

theorem xorBytes_wordBytes_xor (w d : Word) :
    xorBytes (wordBytes (w ^^^ d)) = xorBytes (wordBytes w) ^^^ xorBytes (wordBytes d) := by
  simp only [wordBytes, wordByte_xor, xorBytes_cons, xorBytes_nil]
  ac_rfl

/-- One bit of a word is one bit of one of its bytes (R72). -/
theorem xorBytes_wordBytes_twoPow {n : Nat} (hn : n < 32) :
    xorBytes (wordBytes (BitVec.twoPow 32 n)) = BitVec.twoPow 8 (n % 8) := by
  revert n
  decide

theorem xorBytes_modify_xor (d : Byte) {l : List Byte} {k : Nat} (hk : k < l.length) :
    xorBytes (l.modify k (fun b => b ^^^ d)) = xorBytes l ^^^ d := by
  induction l generalizing k with
  | nil => cases hk
  | cons b l ih =>
    cases k with
    | zero =>
      rw [List.modify_zero_cons, xorBytes_cons, xorBytes_cons]
      ac_rfl
    | succ k => rw [List.modify_succ_cons, xorBytes_cons, xorBytes_cons, ih (Nat.lt_of_succ_lt_succ hk), BitVec.xor_assoc]

theorem twoPow_ne_zero {n : Nat} (hn : n < 8) : BitVec.twoPow 8 n ≠ 0x00#8 := by
  revert n
  decide

/-- A flipped bit makes a byte another one. -/
theorem xor_twoPow_ne (b : Byte) {n : Nat} (hn : n < 8) : b ^^^ BitVec.twoPow 8 n ≠ b := fun h =>
  twoPow_ne_zero hn ((BitVec.xor_right_inj b).mp (h.trans BitVec.xor_zero.symm))

/-- A frame whose checksum differs from a right one in one bit is detected. -/
theorem checksum_ne_of_flip {c : Config} {f g : Frame} {n : Nat} (hsum : checksum c f = f.fcs) (hn : n < 8)
    (hflip : checksum c g = checksum c f ^^^ BitVec.twoPow 8 n) : checksum c g ≠ f.fcs := by
  rw [hflip, hsum]
  exact xor_twoPow_ne f.fcs hn

/-- One flipped bit of an address. -/
theorem checksum_flip_address (c : Config) (f : Frame) {n : Nat} (hn : n < 32) :
    checksum c { f with dest := f.dest ^^^ BitVec.twoPow 32 n } = checksum c f ^^^ BitVec.twoPow 8 (n % 8) ∧
      checksum c { f with src := f.src ^^^ BitVec.twoPow 32 n } = checksum c f ^^^ BitVec.twoPow 8 (n % 8) := by
  constructor <;>
  · simp only [checksum_eq, Frame.body, xorBytes_wordBytes_xor, xorBytes_wordBytes_twoPow hn]
    ac_rfl

/-- A change of a byte of the header is the same change of the checksum. -/
theorem checksum_xor_headerByte (c : Config) (f : Frame) (d : Byte) :
    checksum c { f with type := f.type ^^^ d } = checksum c f ^^^ d ∧
      checksum c { f with sub := f.sub ^^^ d } = checksum c f ^^^ d ∧
      checksum c { f with seq := f.seq ^^^ d } = checksum c f ^^^ d := by
  refine ⟨?_, ?_, ?_⟩ <;>
  · simp only [checksum_eq, Frame.body]
    ac_rfl

/-- A payload byte counts where the payload has the length its length byte says (R92, R260). -/
theorem checksum_xor_payload (c : Config) {f : Frame} (d : Byte) {k : Nat} (hl : f.payload.length = f.len.toNat)
    (hk : k < f.payload.length) :
    checksum c { f with payload := f.payload.modify k (fun b => b ^^^ d) } = checksum c f ^^^ d := by
  have hbody : f.body = f.payload := List.take_of_length_le hl.le
  have hmod : (f.payload.modify k (fun b => b ^^^ d)).take f.len.toNat = f.payload.modify k (fun b => b ^^^ d) :=
    List.take_of_length_le ((List.length_modify ..).trans hl).le
  rw [checksum_eq, checksum_eq, hbody, Frame.body, hmod, xorBytes_modify_xor d hk]
  ac_rfl

/-- Settles O27: a flipped bit of any of these bytes flips one bit of the checksum. -/
theorem singleBitFlipsAreDetected : Obligations.SingleBitFlipsAreDetected := by
  intro c f n k hsum hl
  have hbit : n % 8 < 8 := Nat.mod_lt n (by decide)
  obtain ⟨htype, hsub, hseq⟩ := checksum_xor_headerByte c f (BitVec.twoPow 8 n)
  refine ⟨fun hn => ?dest, fun hn => ?src, fun hn => ?type, fun hn => ?sub, fun hn => ?seq, fun hn hk => ?payload,
    fun hn => ?fcs⟩
  case dest => exact checksum_ne_of_flip hsum hbit (checksum_flip_address c f hn).1
  case src => exact checksum_ne_of_flip hsum hbit (checksum_flip_address c f hn).2
  case type => exact checksum_ne_of_flip hsum hn htype
  case sub => exact checksum_ne_of_flip hsum hn hsub
  case seq => exact checksum_ne_of_flip hsum hn hseq
  case payload => exact checksum_ne_of_flip hsum hn (checksum_xor_payload c _ hl hk)
  case fcs => rw [hsum]; exact (xor_twoPow_ne f.fcs hn).symm

/-! ### The frames the block logs (R82, R95, R262) -/

/-- At most one entry is added to `txlog`, and it holds a frame the block may send. -/
def LogsValidFrame (s t : State) : Prop :=
  ∃ es, t.out.txlog = s.out.txlog ++ es ∧ es.length ≤ 1 ∧ ∀ e ∈ es, TxEntry.Valid s.cfg e

theorem LogsValidFrame.of_same {s t : State} (h : t.out.txlog = s.out.txlog) : LogsValidFrame s t :=
  ⟨[], by rw [h, List.append_nil], Nat.zero_le 1, fun _ he => absurd he List.not_mem_nil⟩

/-- What a handler may do to a state of the invariant logs at most one frame the block may send. -/
theorem Res.All.logsValidFrame {s : State} {rule : Res} (h : rule.All (LinkEffect s)) : rule.Ends (LogsValidFrame s) :=
  h.ends.mono fun _ => LinkEffect.tx

/-- R189: the ACK is a frame the block may send whatever the frame it answers, even one whose payload is too short to be delivered. -/
theorem handleReq_logsValidFrame (f : Frame) (s : State) : (handleReq f s).Ends (LogsValidFrame s) := by
  have hack := buildResponse_valid s.cfg f s.cfg.typeAck 0x00#8 (.inl ⟨rfl, rfl⟩)
  have hwrite : (transmit (buildResponse s.cfg s.cfg.typeAck 0x00#8 f) (s.setArq { s.arq with recvSeq := some f.seq })).Ends
      (LogsValidFrame s) := by
    rw [transmit_eq]
    cases (drawStatus (s.setArq { s.arq with recvSeq := some f.seq })).1 <;>
      exact ⟨_, rfl, Nat.le_refl 1, fun e he => hack e (by rw [List.mem_singleton.mp he]; rfl)⟩
  exact hwrite.andThen fun _ h => .ofRead fun _ => h

/-- Only the first `len` bytes of a request's payload are looked at (R184; assumption log 16). -/
theorem handleSendRequest_take (dest : Word) (len : Byte) (payload : List Byte) (s : State) :
    handleSendRequest dest len (payload.take len.toNat) s = handleSendRequest dest len payload s := by
  have hbytes : payloadBytes len (payload.take len.toNat) = payloadBytes len payload := by
    simp [payloadBytes, List.take_take]
  simp only [handleSendRequest, acceptSend, hbytes]

/-- A request whose payload is shorter than its length byte is not sent (assumption log 16). -/
theorem handleSendRequest_short (dest : Word) {len : Byte} {payload : List Byte} (s : State)
    (h : payload.length < len.toNat) :
    (handleSendRequest dest len payload s).Ends fun t => t.out.txlog = s.out.txlog := by
  unfold handleSendRequest
  split
  · exact rfl
  · split
    · exact .ofRead fun q => rfl
    · refine .ofRead fun q => ?_
      rw [payloadBytes, if_pos h]
      trivial

/-- R183 to R185, with any payload. -/
theorem handleSendRequest_logsValidFrame {s : State} (h : s.Inv) (hf : s.fatal = false) (hl : s.arq.lstate = .handle)
    (dest : Word) (len : Byte) (payload : List Byte) :
    (handleSendRequest dest len payload s).Ends (LogsValidFrame s) := by
  by_cases hp : payload.length < len.toNat
  · exact (handleSendRequest_short dest s hp).mono fun _ => .of_same
  · rw [← handleSendRequest_take]
    exact (handleSendRequest_effect h hf hl (List.length_take_of_le (Nat.le_of_not_lt hp))).logsValidFrame

/-- Every handler, on any operands. -/
theorem IsHandler.logsValidFrame {handler : State → Res} (hh : IsHandler handler) {s : State} (h : s.Inv)
    (hf : s.fatal = false) (hl : s.arq.lstate = .handle) : (handler s).Ends (LogsValidFrame s) := by
  cases hh with
  | sendRequest dest len payload => exact handleSendRequest_logsValidFrame h hf hl dest len payload
  | sendTimeout => exact (handleSendTimeout_effect h hf).logsValidFrame
  | req f => exact handleReq_logsValidFrame f s
  | ack f => exact (handleAck_effect h hf hl).logsValidFrame
  | nack f => exact (handleNack_effect h hf hl).logsValidFrame
  | other f => exact .of_same rfl
  | checksumError f => exact (handleChecksumError_effect h hf).logsValidFrame
  | receiveTimeout => exact .of_same rfl

/-- Settles O28: only a handler of the LINK agent logs, and it logs a frame the block may send. -/
theorem transmittedFramesAreValid : Obligations.TransmittedFramesAreValid := by
  intro i s t h he
  by_cases hi : i.ofLink = true ∧ i ≠ .linkInit
  · obtain ⟨hlink, hinit⟩ := hi
    obtain ⟨hf, hl, handler, q, hh, hq, hrun⟩ := runsAHandler_of_exec hlink hinit he
    exact (hh.logsValidFrame (h.setEvq_suffix hq) hf hl).of_next hrun
  · have hout : i.ofLink = false ∨ i = .linkInit := by
      rwa [not_and_or, Bool.not_eq_true, not_not] at hi
    exact LogsValidFrame.of_same ((exec_writes he).txlog_eq hout)

end Sys2Proof.Machine
end

section
/-! The host's commands (46_host_transport.md): SEND_REQ (O32), CFG_WR (O33) and CFG_RD (O34); and that no step changes a parameter or
takes anything out of the environment's records (O53). -/

namespace Sys2Proof.Machine

/-! ### SEND_REQ (R280) -/

/-- R280, R161: where the queue has room the request is posted and answered. -/
theorem postSendRequest_room {s : State} {len : Byte} {payload : List Byte} (dest : Word)
    (hl : payload.length = len.toNat) (hq : s.evq.length ≠ s.cfg.evqCap) :
    postSendRequest dest len payload s = .ok (respond .ok none (s.setEvq (s.evq ++ [.sendRequest dest len payload]))) := by
  rw [postSendRequest, payloadBytes_ok hl, Res.ofRead_ok, evqPost_room hq, Res.andThen_ok]

/-- R280, R161: the overflow ends the step before the answer. -/
theorem postSendRequest_full {s : State} {len : Byte} {payload : List Byte} (dest : Word)
    (hl : payload.length = len.toNat) (hq : s.evq.length = s.cfg.evqCap) :
    postSendRequest dest len payload s = .fatal (s.setFatal true 0x04#8) := by
  rw [postSendRequest, payloadBytes_ok hl, Res.ofRead_ok, evqPost_full hq, Res.andThen_fatal]

/-- Settles O32: one case for a fatal block, a queue with room and a full queue. -/
theorem sendReqPostsItsRequest : Obligations.SendReqPostsItsRequest := fun dest _ _ _ hl =>
  ⟨fun hf => whenAlive_fatal hf _,
    fun hf hq => (whenAlive_alive hf _).trans (congrArg Res.outcome (postSendRequest_room dest hl hq)),
    fun hf hq => (whenAlive_alive hf _).trans (congrArg Res.outcome (postSendRequest_full dest hl hq))⟩

/-! ### Register numbers (R52, R61) -/

/-- Number 0x00 alone names MAX_RETRY (R52). -/
theorem regOf_ne_maxRetry {n : Byte} (h : n ≠ 0x00#8) : regOf n ≠ some .maxRetry := by
  rw [regOf, if_neg h]
  split_ifs <;> simp

/-- Numbers 0x08 to 0xFF are reserved (R61). -/
theorem regOf_eq_none_iff {n : Byte} : regOf n = none ↔ 0x08 ≤ n.toNat := by
  unfold regOf
  split_ifs <;> simp only [false_iff, true_iff] <;> bv_omega

/-! ### CFG_WR (R282) -/

/-- R282, R53. -/
theorem writeReg_maxRetry (value : Word) (s : State) :
    writeReg 0x00#8 value s =
      .ok (respond .ok none (s.setArq { s.arq with maxRetry := value.extractLsb' 0 8 })) := by
  rw [← BitVec.setWidth_eq_extractLsb' (by decide)]
  rfl

/-- R282, R61. -/
theorem writeReg_other {reg : Byte} (h : reg ≠ 0x00#8) (value : Word) (s : State) :
    writeReg reg value s = .ok (respond .err none s) := by
  unfold writeReg
  split
  · next hr => exact absurd hr (regOf_ne_maxRetry h)
  · rfl

/-- Settles O33: by whether the number is that of MAX_RETRY. -/
theorem cfgWrWritesOnlyMaxRetry : Obligations.CfgWrWritesOnlyMaxRetry := by
  intro reg value s
  refine ⟨fun hf => whenAlive_fatal hf _, fun hf => (whenAlive_alive hf _).trans ?_⟩
  split
  · next h => subst h; rw [writeReg_maxRetry]; rfl
  · next h => rw [writeReg_other h]; rfl

/-! ### CFG_RD (R281) -/

/-- The answer to a read: OK with the register's value, or ERR where the read is rejected (R281). -/
def readAnswer : Option Word → Response
  | some v => ⟨.ok, some v⟩
  | none => ⟨.err, none⟩

/-- CFG_RD adds its answer and changes nothing else, in the fatal state too (R281, R312). -/
theorem exec_cfgRd_next {reg : Byte} {s : State} {v : Option Word} (h : readNumber reg s = .ok v) :
    exec (.cfgRd reg) s = .next { s with out := { s.out with resplog := s.out.resplog ++ [readAnswer v] } } := by
  have hrun : exec (.cfgRd reg) s = (answerRead reg s).outcome := rfl
  rw [hrun, answerRead, h, Res.ofRead_ok]
  cases v <;> rfl

/-- Reads of SEQ in Init are rejected (R55). -/
theorem readSeq_init {s : State} (hl : s.arq.lstate = .init) : readSeq s = .ok none := by
  rw [readSeq, hl]

/-- SEQ alone may read an unwritten element, and only in Handle (R55, R64). -/
theorem exists_readNumber (reg : Byte) {s : State}
    (h : s.arq.lstate = .handle → s.arq.sendSeq.isSome = true ∧ s.arq.recvSeq.isSome = true) :
    ∃ v, readNumber reg s = .ok v := by
  unfold readNumber
  cases regOf reg with
  | none => exact ⟨none, rfl⟩
  | some r =>
    cases r with
    | seq =>
      cases hl : s.arq.lstate with
      | init => exact ⟨none, readSeq_init hl⟩
      | handle =>
        obtain ⟨hsend, hrecv⟩ := h hl
        obtain ⟨a, ha⟩ := Option.isSome_iff_exists.mp hsend
        obtain ⟨b, hb⟩ := Option.isSome_iff_exists.mp hrecv
        exact ⟨_, readSeq_handle hl ha hb⟩
    | _ => exact ⟨_, rfl⟩

/-- Reads that are rejected: of a reserved number, and of SEQ in Init (R281). -/
theorem readNumber_rejected {reg : Byte} {s : State}
    (h : 0x08 ≤ reg.toNat ∨ (reg = 0x02#8 ∧ s.arq.lstate = .init)) : readNumber reg s = .ok none := by
  obtain hr | ⟨rfl, hl⟩ := h
  · rw [readNumber, regOf_eq_none_iff.mpr hr]
  · exact readSeq_init hl

/-- SEQ as a number: `recv_seq` in bits [15:8], `send_seq` in bits [7:0] (R55). -/
theorem seqWord_eq_ofNat (a b : Byte) : seqWord a b = BitVec.ofNat 32 (b.toNat * 256 + a.toNat) := by
  have hbytes : seqWord a b = wordOfBytes 0#8 0#8 b a := rfl
  have hvalue := wordOfBytes_toNat 0#8 0#8 b a
  bv_omega

/-- Settles O34: the answer is that of the value the number reads as, which each clause names. -/
theorem cfgRdAnswersWithoutSideEffect : Obligations.CfgRdAnswersWithoutSideEffect := by
  intro reg s hseq
  obtain ⟨v, hv⟩ := exists_readNumber reg hseq
  have answers {w : Option Word} (hw : readNumber reg s = .ok w) : readAnswer v = readAnswer w :=
    congrArg readAnswer (Except.ok.inj (hv.symm.trans hw))
  refine ⟨readAnswer v, exec_cfgRd_next hv, fun h => answers (readNumber_rejected h), ?maxRetry, ?status, ?seq, ?retry,
    ?localAddr, ?rbCount, ?evqCount, ?timers⟩
  case maxRetry | status | retry | localAddr | rbCount | timers =>
    rintro rfl
    exact answers rfl
  case seq =>
    rintro a b rfl hl ha hb
    rw [← seqWord_eq_ofNat]
    exact answers (readSeq_handle hl ha hb)
  case evqCount =>
    rintro rfl
    exact ⟨countWord s.evq.length, answers rfl, fun hlt => if_pos hlt⟩

/-! ### Parameters and records (R49, R125, R295, R340) -/

/-- The parameters are unchanged, and each of the environment's records is the beginning of it after. -/
def KeepsRecords (s t : State) : Prop :=
  t.cfg = s.cfg ∧
    s.out.txlog <+: t.out.txlog ∧ s.out.notelog <+: t.out.notelog ∧ s.out.resplog <+: t.out.resplog

theorem KeepsRecords.of_same {s t : State} (hc : t.cfg = s.cfg) (ho : t.out = s.out) : KeepsRecords s t :=
  ⟨hc, by rw [ho], by rw [ho], by rw [ho]⟩

theorem Posts.keepsRecords {s t : State} (h : Posts s t) : KeepsRecords s t := by
  obtain ⟨q, f, code, -, rfl⟩ := h
  exact .of_same rfl rfl

/-- The handlers of the LINK agent log frames and notifications at the end (R49). -/
theorem HandlerWrites.keepsRecords {s t : State} (h : HandlerWrites s t) : KeepsRecords s t := by
  obtain ⟨hcfg, -, -, -, -, hresp, hnote, es, htx, -⟩ := h
  exact ⟨hcfg, ⟨es, htx.symm⟩, hnote, hresp ▸ List.prefix_rfl⟩

/-- An answer is logged at the end (R99). -/
theorem KeepsRecords.respond {s u : State} (status : Status) (v : Option Word) (h : KeepsRecords s u) :
    KeepsRecords s (respond status v u) := by
  obtain ⟨hcfg, htx, hnote, hresp⟩ := h
  exact ⟨hcfg, htx, hnote, hresp.trans (List.prefix_append _ _)⟩

/-- What every instruction writes leaves the parameters and keeps the records. -/
theorem Writes.keepsRecords {i : Instr} {s t : State} (h : Writes s t i) : KeepsRecords s t := by
  cases i with
  | rxPut b => obtain ⟨r, status, rfl⟩ := h; exact .respond status none (.of_same rfl rfl)
  | parseStep => obtain ⟨r, p, tm, hp⟩ := h; exact hp.keepsRecords
  | tick delta => obtain ⟨tm, hp⟩ := h; exact hp.keepsRecords
  | sendReq dest len payload =>
    obtain ⟨u, hp, rfl | rfl⟩ := h
    · exact hp.keepsRecords
    · exact hp.keepsRecords.respond .ok none
  | cfgWr reg value => obtain ⟨m, status, rfl⟩ := h; exact .respond status none (.of_same rfl rfl)
  | cfgRd reg => obtain ⟨status, v, rfl⟩ := h; exact .respond status v (.of_same rfl rfl)
  | linkInit => obtain ⟨a, e, rfl⟩ := h; exact .of_same rfl rfl
  | linkDispatch => obtain ⟨ev, q, p, -, hw⟩ := h; exact hw.keepsRecords
  | reset => cases h; exact .of_same rfl rfl
  | reserved opcode => cases h; exact .respond .err none (.of_same rfl rfl)
  | evFrameReceiveTimeout => obtain ⟨p, hw⟩ := h; exact hw.keepsRecords
  | _ => exact HandlerWrites.keepsRecords h

/-- Settles O53: a step that is not refused runs an instruction once its word is issued, which touches no record. -/
theorem parametersStayAndRecordsOnlyGrow : Obligations.ParametersStayAndRecordsOnlyGrow := by
  intro s t hs
  obtain ⟨q, hq⟩ | ⟨i, rest, -, -, he⟩ := step_cases s
  · cases hs.symm.trans hq
  · exact (exec_writes (he.symm.trans hs)).keepsRecords

end Sys2Proof.Machine
end

section
/-! Exceptions, reset and hazards (60_exceptions.md, 70_reset_and_hazards.md): the four causes of a fatal (O49), the fatal state until
RESET (O48), and what RESET restores (O11, O12). -/

namespace Sys2Proof.Machine

/-! ### The fatals of the LINK agent (R183, R185, R291) -/

/-- What a SendRequest of `len` bytes that is refused leaves: while Sending nothing changed, and while Idle, oversized, `send_seq`
incremented (R183, R185). -/
def RefusesSend (len : Byte) (s t : State) : Prop :=
  (t.fatalCode = 0x01#8 ∧ s.arq.sendState = .sending ∧ t.arq = s.arq ∧ t.out = s.out) ∨
    (t.fatalCode = 0x02#8 ∧ s.arq.sendState = .idle ∧ s.cfg.maxPayload.toNat < len.toNat ∧
      (∃ q, s.arq.sendSeq = some q ∧ t.arq = { s.arq with sendSeq := some (q + 1#8) }) ∧ t.out = s.out)

/-- The fatals an instruction of the LINK agent can raise: that of a failed write, or of a SendRequest whose handler it runs. -/
def LinkFatalCause (i : Instr) (s t : State) : Prop :=
  FailsOnlyByWrite s t ∨
    ∃ dest len payload, RunsHandler (.sendRequest dest len payload) i s ∧ RefusesSend len s t

/-- The draw does not look at the queue (R14). -/
theorem FailsOnlyByWrite.of_setEvq {s t : State} {q : List Event} (h : FailsOnlyByWrite (s.setEvq q) t) :
    FailsOnlyByWrite s t := by
  intro ht
  obtain ⟨hcode, hdraw, hout⟩ := h ht
  obtain ⟨hsame, -⟩ := drawStatus_congr (s := s.setEvq q) (s' := s) rfl
  exact ⟨hcode, hsame.symm.trans hdraw, hout⟩

/-- An event's own row runs its handler when the LINK agent is alive and in Handle (assumption log 7). -/
theorem exec_decodeEvent (ev : Event) (s : State) :
    exec (decodeEvent ev) s = whenHandle s (handleEvent ev s).outcome := by
  cases ev <;> rfl

/-- Whichever instruction runs an event's handler, it runs it in Handle, on the queue as it is or with its front taken (R180, R182). -/
theorem RunsHandler.handleEvent_next {ev : Event} {i : Instr} {s t : State} (hrun : RunsHandler ev i s)
    (he : exec i s = .next t) :
    s.arq.lstate = .handle ∧ ∃ q, q <:+ s.evq ∧ (handleEvent ev (s.setEvq q)).outcome = .next t := by
  obtain rfl | ⟨rfl, hhead⟩ := hrun
  · rw [exec_decodeEvent] at he
    obtain ⟨-, hl, ht⟩ := whenHandle_eq_next he
    exact ⟨hl, s.evq, List.suffix_rfl, ht⟩
  · obtain ⟨-, hl, hd⟩ := whenHandle_eq_next he
    obtain ⟨oldest, q, hq, ht⟩ := dispatchOldest_eq_next hd
    rw [hq] at hhead
    cases hhead
    exact ⟨hl, q, ⟨[ev], hq.symm⟩, ht⟩

/-- The handler of any event (R183 to R197). -/
theorem RunsHandler.linkFatalCause {ev : Event} {i : Instr} {s t : State} (hrun : RunsHandler ev i s) (h : s.Inv)
    (hf : s.fatal = false) (he : exec i s = .next t) : LinkFatalCause i s t := by
  obtain ⟨hl, q, hq, ht⟩ := hrun.handleEvent_next he
  have hI := h.setEvq_suffix hq
  cases ev with
  | sendRequest dest len payload =>
    obtain hw | hrefused := (handleSendRequest_send (s := s.setEvq q) hf ht).1
    · exact .inl hw.of_setEvq
    · exact .inr ⟨dest, len, payload, hrun, hrefused⟩
  | sendTimeout => exact .inl (handleSendTimeout_send hI hf ht).1.of_setEvq
  | frameReceived f => exact .inl (handleFrameReceived_send hI hf hl ht).1.of_setEvq
  | frameChecksumError f => exact .inl (handleChecksumError_send hI hf ht).1.of_setEvq
  | frameReceiveTimeout => exact .inl (handleReceiveTimeout_send (s := s.setEvq q) hf ht).1.of_setEvq

/-- Every instruction of the LINK agent: the handler of an event, one of the four kinds of frame, or LINK_INIT, which raises none. -/
theorem exec_linkFatalCause {i : Instr} {s t : State} (hi : i.ofLink = true) (h : s.Inv) (hf : s.fatal = false)
    (he : exec i s = .next t) : LinkFatalCause i s t := by
  have ofEvent (ev : Event) (hrun : RunsHandler ev i s) : LinkFatalCause i s t := hrun.linkFatalCause h hf he
  cases i with
  | linkInit =>
    obtain ⟨a, e, rfl⟩ := exec_writes he
    exact .inl (.of_alive hf)
  | linkDispatch =>
    obtain ⟨-, -, hd⟩ := whenHandle_eq_next he
    obtain ⟨ev, q, hq, -⟩ := dispatchOldest_eq_next hd
    exact ofEvent ev (.inr ⟨rfl, by rw [hq]; rfl⟩)
  | evSendRequest dest len payload => exact ofEvent (.sendRequest dest len payload) (.inl rfl)
  | evSendTimeout => exact ofEvent .sendTimeout (.inl rfl)
  | evFrameReceived f => exact ofEvent (.frameReceived f) (.inl rfl)
  | evFrameChecksumError f => exact ofEvent (.frameChecksumError f) (.inl rfl)
  | evFrameReceiveTimeout => exact ofEvent .frameReceiveTimeout (.inl rfl)
  | frameReq f =>
    obtain ⟨-, -, ht⟩ := whenHandle_eq_next he
    exact .inl (handleReq_send h hf ht).1
  | frameAck f =>
    obtain ⟨-, -, ht⟩ := whenHandle_eq_next he
    exact .inl (handleAck_send hf ht).1
  | frameNack f =>
    obtain ⟨-, hl, ht⟩ := whenHandle_eq_next he
    exact .inl (handleNack_send h hf hl ht).1
  | frameOther f =>
    obtain ⟨-, -, ht⟩ := whenHandle_eq_next he
    exact .inl (handleOther_send hf ht).1
  | rxPut | parseStep | tick | sendReq | cfgWr | cfgRd | reset | reserved => cases hi

/-! ### The fatal of a full queue (R161) -/

/-- The only fatal is that of a post into a full queue, which leaves the records as they were (R161). -/
def FailsOnlyByPost (s t : State) : Prop :=
  t.fatal = true → t.fatalCode = 0x04#8 ∧ t.evq.length = s.cfg.evqCap ∧ t.out = s.out

theorem FailsOnlyByPost.of_alive {s t : State} (h : t.fatal = false) : FailsOnlyByPost s t :=
  fun ht => Bool.noConfusion (h.symm.trans ht)

/-- R280. -/
theorem postSendRequest_failsOnlyByPost (dest : Word) (len : Byte) (payload : List Byte) {s : State}
    (hf : s.fatal = false) : (postSendRequest dest len payload s).Ends (FailsOnlyByPost s) := by
  refine .ofRead fun p => ?_
  by_cases hq : s.evq.length = s.cfg.evqCap
  · rw [evqPost_full hq]
    exact fun _ => ⟨rfl, hq, rfl⟩
  · rw [evqPost_room hq]
    exact FailsOnlyByPost.of_alive hf

/-- The transition out of FCS alone posts, and so no other can raise a fatal (R232 to R240). -/
theorem parseByte_fatal_eq (b : Byte) {s : State} (hp : s.parser.pstate ≠ .fcs) :
    (parseByte b s).Ends fun t => t.fatal = s.fatal := by
  unfold parseByte
  cases hst : s.parser.pstate with
  | awaitingSof =>
    simp only [takeSof]
    split <;> exact rfl
  | destAddr =>
    refine .ofRead fun a => ?_
    split <;> exact rfl
  | srcAddr =>
    refine .ofRead fun a => ?_
    split <;> exact rfl
  | type | subType | seqNum => exact rfl
  | len =>
    simp only [takeLen]
    split
    · exact rfl
    · split <;> exact rfl
  | data =>
    refine .ofRead fun m => .ofRead fun len => ?_
    split <;> exact rfl
  | fcs => exact absurd hst hp

/-- PARSE_STEP raises a fatal in FCS alone (R240). -/
theorem exec_parseStep_failsOnlyByPost {s t : State} (h : s.Inv) (hf : s.fatal = false)
    (he : exec .parseStep s = .next t) :
    FailsOnlyByPost s t ∧ (t.fatal = true → s.parser.pstate = .fcs) := by
  obtain ⟨-, hp⟩ := whenAlive_eq_next he
  obtain ⟨b, u, hg, ht⟩ := parseOldest_eq_next hp
  obtain ⟨hc, rfl⟩ := rbGet_eq_some hg
  have heffect := (parseByte_effect (h.pop hc) hf).ends.of_next ht
  refine ⟨fun hfat => ?_, fun hfat => by_contra fun hne => ?_⟩
  · obtain ⟨hcode, hlen⟩ := heffect.fat hfat
    exact ⟨hcode, hlen, heffect.out⟩
  · have hkept := (parseByte_fatal_eq (s := s.setRing (popped s.cfg s.ring)) b hne).of_next ht
    exact Bool.noConfusion (hf.symm.trans (hkept.symm.trans hfat))

/-- The instructions that post, which R311 names for EVQ_OVERFLOW: PARSE_STEP in FCS, TICK and SEND_REQ. -/
def PostsEvents (i : Instr) (s : State) : Prop :=
  (i = .parseStep ∧ s.parser.pstate = .fcs) ∨ (∃ delta, i = .tick delta) ∨
    ∃ dest len payload, i = .sendReq dest len payload

/-- Outside the LINK agent: the instructions that post, and those that leave the block alive. -/
theorem exec_failsOnlyByPost {i : Instr} {s t : State} (hi : i.ofLink = false) (h : s.Inv) (hf : s.fatal = false)
    (he : exec i s = .next t) : FailsOnlyByPost s t ∧ (t.fatal = true → PostsEvents i s) := by
  have ofAlive (hu : t.fatal = false) : FailsOnlyByPost s t ∧ (t.fatal = true → PostsEvents i s) :=
    ⟨.of_alive hu, fun hfat => Bool.noConfusion (hu.symm.trans hfat)⟩
  cases i with
  | parseStep =>
    obtain ⟨hpost, hfcs⟩ := exec_parseStep_failsOnlyByPost h hf he
    exact ⟨hpost, fun hfat => .inl ⟨rfl, hfcs hfat⟩⟩
  | tick delta =>
    have heffect := Res.Ends.of_whenAlive (fun hf => (tickTimers_effect h hf).ends) he
    exact ⟨heffect.fat, fun _ => .inr (.inl ⟨delta, rfl⟩)⟩
  | sendReq dest len payload =>
    have hpost := Res.Ends.of_whenAlive (postSendRequest_failsOnlyByPost dest len payload) he
    exact ⟨hpost, fun _ => .inr (.inr ⟨dest, len, payload, rfl⟩)⟩
  | rxPut b =>
    obtain ⟨r, status, rfl⟩ := exec_writes he
    exact ofAlive hf
  | cfgWr reg value =>
    obtain ⟨m, status, rfl⟩ := exec_writes he
    exact ofAlive hf
  | cfgRd reg =>
    obtain ⟨status, v, rfl⟩ := exec_writes he
    exact ofAlive hf
  | reset =>
    cases he
    exact ofAlive rfl
  | reserved opcode =>
    cases he
    exact ofAlive hf
  | linkInit | linkDispatch | evSendRequest | evSendTimeout | evFrameReceived | evFrameChecksumError
  | evFrameReceiveTimeout | frameReq | frameAck | frameNack | frameOther => cases hi

/-- Settles O49: the LINK agent raises the first three codes, and the instructions that post the fourth. -/
theorem fatalHasOnlyItsFourCauses : Obligations.FatalHasOnlyItsFourCauses := by
  intro i s t h hf he hfat
  cases hi : i.ofLink with
  | true =>
    obtain hwrite | ⟨dest, len, payload, hrun, hconcurrent | hoversize⟩ := exec_linkFatalCause hi h hf he
    · obtain ⟨hcode, hdraw, hout⟩ := hwrite hfat
      exact .inr (.inr (.inl ⟨hcode, rfl, hdraw, hout⟩))
    · obtain ⟨hcode, hs, harq, hout⟩ := hconcurrent
      exact .inl ⟨hcode, hs, ⟨dest, len, payload, hrun⟩, harq, hout⟩
    · obtain ⟨hcode, hs, hlen, hseq, hout⟩ := hoversize
      exact .inr (.inl ⟨hcode, hs, ⟨dest, len, payload, hrun, hlen⟩, hseq, hout⟩)
  | false =>
    obtain ⟨hpost, hposts⟩ := exec_failsOnlyByPost hi h hf he
    obtain ⟨hcode, hlen, hout⟩ := hpost hfat
    exact .inr (.inr (.inr ⟨hcode, hlen, hout, hposts hfat⟩))

/-! ### The fatal state (R312, R313, R323) -/

/-- Every operation R312 lists has no step while the block is fatal. -/
theorem exec_eq_fatalState {i : Instr} {s : State} (hf : s.fatal = true) (hrd : ∀ reg, i ≠ .cfgRd reg)
    (hres : ∀ op, i ≠ .reserved op) (hreset : i ≠ .reset) : exec i s = .refused .fatalState := by
  cases i with
  | cfgRd reg => exact absurd rfl (hrd reg)
  | reserved op => exact absurd rfl (hres op)
  | reset => exact absurd rfl hreset
  | _ => exact whenAlive_fatal hf _

/-- Settles O48: what still runs while fatal, but for RESET, adds an answer. -/
theorem fatalIsQuiescentUntilReset : Obligations.FatalIsQuiescentUntilReset := by
  intro i s hf
  refine ⟨exec_eq_fatalState hf, fun t he hreset => ?_, ⟨_, rfl, rfl, rfl⟩⟩
  cases i with
  | cfgRd reg =>
    obtain ⟨status, v, rfl⟩ := exec_writes he
    rfl
  | reserved op =>
    cases he
    rfl
  | reset => exact absurd rfl hreset
  | _ =>
    have hrefused := exec_eq_fatalState hf (by simp) (by simp) hreset
    cases hrefused.symm.trans he

/-! ### RESET (R340, R341) -/

/-- Settles O11: the reset values of R31 to R48 are those `resetBlock` writes. -/
theorem resetRestoresEveryElement : Obligations.ResetRestoresEveryElement := fun _ => rfl

/-- Number 0x01 names STATUS (R52, R54). -/
theorem readNumber_status (s : State) : readNumber 0x01#8 s = .ok (some (statusWord s)) := rfl

/-- Number 0x07 names TIMERS (R52, R60). -/
theorem readNumber_timers (s : State) : readNumber 0x07#8 s = .ok (some (timersWord s)) := rfl

/-- Every field of STATUS has the code 0 at reset (R54). -/
theorem statusWord_resetWith (c : Config) : statusWord (State.resetWith c) = 0#32 := by
  simp [statusWord, flagBit, State.resetWith, PState.code, SendState.code, LState.code]

/-- No timer is armed at reset (R39, R60). -/
theorem timersWord_resetWith (c : Config) : timersWord (State.resetWith c) = 0#32 := by
  simp [timersWord, flagBit, armed]

/-- Settles O12: after reset the link is in Init, where SEQ is rejected like a reserved number. -/
theorem registersAfterReset : Obligations.RegistersAfterReset := by
  intro c
  refine ⟨rfl, ?status, readNumber_rejected (.inr ⟨rfl, rfl⟩), rfl, rfl, rfl, rfl, ?timers,
    fun n hn => readNumber_rejected (.inl hn)⟩
  case status => rw [readNumber_status, statusWord_resetWith]
  case timers => rw [readNumber_timers, timersWord_resetWith]

end Sys2Proof.Machine
end
